-- ==== Sys2Proof/Word.lean ====
section
/-! DEFINITION. The words of the core: command and data words, the binary32 value as its bit pattern, and the complex
baseband vector. Their arithmetic is in Machine/Float.lean and Machine/Ops.lean. -/

namespace Sys2Proof

/-- A command word `CMD[15:0]` (R101). -/
abbrev CmdWord := BitVec 16

/-- A data word: `DIN[31:0]`, `DOUT[31:0]`, or a register of the read space (R83, R103, R105). -/
abbrev DataWord := BitVec 32

/-- An IEEE 754 binary32 value, held as its bit pattern (R20, R24): bit 31 sign, bits 30:23 biased exponent,
bits 22:0 fraction. A structure of its own, so that no integer operation of bit vectors applies to it by accident. -/
structure F32 where
  /-- `bits(f)` of R24. -/
  bits : BitVec 32
deriving DecidableEq, Repr, Inhabited

/-- `f32_from_bits(w)` of R24. -/
abbrev F32.ofBits (w : DataWord) : F32 := ⟨w⟩

/-- `+0.0`. -/
abbrev F32.zero : F32 := ⟨0⟩

/-- A complex baseband vector `(i, q)` (R23). -/
structure V where
  i : F32
  q : F32
deriving DecidableEq, Repr, Inhabited

/-- `(+0.0, +0.0)`. -/
abbrev V.zero : V := ⟨F32.zero, F32.zero⟩

end Sys2Proof
end

