-- ==== Sys2Proof/Config.lean ====
section
/-! DEFINITION. What an instance of the core fixes when it is built (R10, R11), and the free values of its arithmetic.
Nothing here has a body: a statement about the machine holds for every configuration and every OPEN parameter. -/

namespace Sys2Proof

/-- The supported symbol durations `N = kSymbolDuration` (R10): six values, so that no other configuration can be
written down. -/
inductive SymbolDuration where
  | n5 | n6 | n8 | n10 | n12 | n16
deriving DecidableEq, Repr, Inhabited

/-- `N` as a number. -/
def SymbolDuration.toNat : SymbolDuration → Nat
  | .n5 => 5 | .n6 => 6 | .n8 => 8 | .n10 => 10 | .n12 => 12 | .n16 => 16

/-- The five coefficients `(b0, b1, b2, a0, a1)` of one biquad section (R11, R190). -/
structure BiquadCoef where
  b0 : F32
  b1 : F32
  b2 : F32
  a0 : F32
  a1 : F32
deriving DecidableEq, Repr, Inhabited

/-- The parameters of one core instance: its configuration (R10) and the OPEN parameters of R11 but `SIGNAL_POWER`,
which reads the core state and stands in Machine/State.lean. -/
structure Params where
  /-- `N` (R10). -/
  duration : SymbolDuration
  /-- `SYMBOL_RATE`, a positive integer (R10). -/
  symbolRate : ℕ+
  /-- `CRF_COEF(N, s)` (D12). -/
  crfCoef : SymbolDuration → Fin 2 → BiquadCoef
  /-- `ALPHA_HPF` (D13). -/
  alphaHpf : F32
  /-- `ALPHA_LVL` (D13). -/
  alphaLvl : F32
  /-- `COS_CYC` (D11). -/
  cosCyc : F32 → F32
  /-- `SIN_CYC` (D11). -/
  sinCyc : F32 → F32
deriving Inhabited

/-- `N` of an instance. -/
abbrev Params.n (p : Params) : Nat := p.duration.toNat

/-- `SAMPLE_RATE = N · SYMBOL_RATE` (R10: `N = SAMPLE_RATE / SYMBOL_RATE` and `SAMPLE_RATE mod SYMBOL_RATE = 0`). -/
abbrev Params.sampleRate (p : Params) : Nat := p.n * (p.symbolRate : Nat)

/-- The parameters of the instance that is modelled: free (entry 5 of the assumption log; DESIGN CHOICE, safe). -/
opaque Config.params : Params

/-- The arithmetic operations that can make a NaN (R20). -/
inductive FOp where
  | add | sub | mul | div | floor
deriving DecidableEq, Repr, Inhabited

/-- The sign and payload of the NaN that operation `op` makes from operands `a` and `b`: free (entry 7; DESIGN CHOICE,
safe). The payload `k` stands for the fraction `k + 1`, so that every NaN pattern, and nothing else, is possible. -/
opaque Config.nanBits (op : FOp) (a b : F32) : Bool × Fin 8388607

end Sys2Proof
end

