-- ==== Sys2Proof/Machine/Float.lean ====
section
/-! DEFINITION. IEEE 754 binary32 arithmetic (R20-R22): each operation computes its exact result and rounds it once, to
nearest with ties to even. Every finite binary32 value is a whole number of units of 2^-149, so exact results are integers
(or a quotient of two), and one rounding function serves every operation. The operations are irreducible: a proof unfolds
one by name, and nothing else makes Lean evaluate it (the kernel does, on numerals). -/

namespace Sys2Proof

/-- The sign bit (R24). -/
def F32.sign (a : F32) : Bool := a.bits.msb

/-- The pattern without its sign bit. -/
def F32.mag (a : F32) : Nat := a.bits.toNat % 2 ^ 31

/-- The magnitude pattern of infinity. -/
def infMag : Nat := 0x7F800000

def F32.isNaN (a : F32) : Bool := decide (infMag < a.mag)

def F32.isInf (a : F32) : Bool := a.mag == infMag

def F32.isFinite (a : F32) : Bool := decide (a.mag < infMag)

/-- The pattern with the given sign and magnitude. -/
def F32.ofSignMag (neg : Bool) (mag : Nat) : F32 :=
  ⟨BitVec.ofNat 32 ((if neg then 2 ^ 31 else 0) + mag)⟩

/-- The number of units of 2^-149 that a finite magnitude pattern stands for: a fraction with the exponent of the
subnormals for biased exponents 0 and 1, and a significand of 24 bits shifted by the exponent above. -/
def unitsOf (mag : Nat) : Nat :=
  let k := mag / 2 ^ 23 - 1
  (mag - k * 2 ^ 23) * 2 ^ k

/-- The exact value of a finite `f32`, in units of 2^-149. -/
def F32.value (a : F32) : Int :=
  if a.sign then -(unitsOf a.mag : Int) else (unitsOf a.mag : Int)

/-- `num / den` rounded to the nearest integer, ties to even. -/
def roundNearestEven (num den : Nat) : Nat :=
  let q := num / den
  let r := num % den
  if 2 * r < den ∨ (2 * r = den ∧ q % 2 = 0) then q else q + 1

/-- The magnitude pattern nearest to `num / den` units of 2^-149, ties to even, infinity on overflow (R20). A carry out
of the significand moves into the exponent field by itself. -/
def roundMag (num den : Nat) : Nat :=
  let k := Nat.log2 (num / den) - 23
  min (k * 2 ^ 23 + roundNearestEven num (den * 2 ^ k)) infMag

/-- The NaN that an operation makes: sign and payload are free (entry 7). -/
def nanResult (op : FOp) (a b : F32) : F32 :=
  let r := Config.nanBits op a b
  F32.ofSignMag r.1 (infMag + 1 + r.2.val)

/-- `-a` flips the sign bit exactly (R20): the other sign, the same magnitude pattern. -/
def F32.neg (a : F32) : F32 := F32.ofSignMag (!a.sign) a.mag

/-- `|a|` clears the sign bit exactly (R20): the same magnitude pattern. -/
def F32.abs (a : F32) : F32 := F32.ofSignMag false a.mag

/-- The rounded sum of `a` and `b`, with `nan` as the result of an invalid or NaN operand. An exact zero sum is `+0.0`,
but `-0.0` when both operands are negative zeros (entry 8; PRESUMED from IEEE 754). -/
def sumOr (nan a b : F32) : F32 :=
  if a.isNaN || b.isNaN then nan
  else if a.isInf then (if b.isInf && a.sign != b.sign then nan else a)
  else if b.isInf then b
  else
    let x := a.value + b.value
    if x = 0 then F32.ofSignMag (a.sign && b.sign) 0
    else F32.ofSignMag (decide (x < 0)) (roundMag x.natAbs 1)

/-- `a + b` (R20). -/
@[irreducible] def F32.add (a b : F32) : F32 := sumOr (nanResult .add a b) a b

/-- `a - b` (R20). -/
@[irreducible] def F32.sub (a b : F32) : F32 := sumOr (nanResult .sub a b) a b.neg

/-- `a * b` (R20). -/
@[irreducible] def F32.mul (a b : F32) : F32 :=
  let s := a.sign != b.sign
  if a.isNaN || b.isNaN then nanResult .mul a b
  else if a.isInf || b.isInf then
    if a.mag == 0 || b.mag == 0 then nanResult .mul a b else F32.ofSignMag s infMag
  else F32.ofSignMag s (roundMag (unitsOf a.mag * unitsOf b.mag) (2 ^ 149))

/-- `a / b` (R20). -/
@[irreducible] def F32.div (a b : F32) : F32 :=
  let s := a.sign != b.sign
  if a.isNaN || b.isNaN then nanResult .div a b
  else if a.isInf then (if b.isInf then nanResult .div a b else F32.ofSignMag s infMag)
  else if b.isInf then F32.ofSignMag s 0
  else if b.mag == 0 then (if a.mag == 0 then nanResult .div a b else F32.ofSignMag s infMag)
  else F32.ofSignMag s (roundMag (unitsOf a.mag * 2 ^ 149) (unitsOf b.mag))

/-- The real floor of a finite `f32`, as an integer. -/
def F32.floorInt (a : F32) : Int := a.value / 2 ^ 149

/-- `floor(a)` (R20): exact for finite `a`, the identity on infinities, NaN on NaN. A zero result keeps the sign of `a`
(entry 9; DEDUCED from `Wrap(-0.0) = +0.0` of 95_test_vectors.md). -/
@[irreducible] def F32.floor (a : F32) : F32 :=
  if a.isNaN then nanResult .floor a a
  else if a.isInf then a
  else
    let n := a.floorInt
    if n = 0 then F32.ofSignMag a.sign 0
    else F32.ofSignMag (decide (n < 0)) (roundMag (n.natAbs * 2 ^ 149) 1)

/-- The position of a pattern in the order of values: `+0.0` and `-0.0` share one. -/
def F32.key (a : F32) : Int :=
  if a.sign then -(a.mag : Int) else (a.mag : Int)

/-- Neither operand is a NaN. -/
def ordered (a b : F32) : Bool := !a.isNaN && !b.isNaN

/-- `a < b` (R21). -/
@[irreducible] def F32.lt (a b : F32) : Bool := ordered a b && decide (a.key < b.key)

/-- `a <= b` (R21). -/
@[irreducible] def F32.le (a b : F32) : Bool := ordered a b && decide (a.key ≤ b.key)

/-- `a > b` (R21). -/
def F32.gt (a b : F32) : Bool := b.lt a

/-- `a >= b` (R21). -/
def F32.ge (a b : F32) : Bool := b.le a

/-- `a == b` (R21): `+0 == -0`, and false on a NaN. -/
@[irreducible] def F32.eq (a b : F32) : Bool := ordered a b && decide (a.key = b.key)

/-- `a != b` (R21): true on a NaN. -/
def F32.ne (a b : F32) : Bool := !a.eq b

/-- `Wrap(x) = x - floor(x)` (R22); `frac` is the same function. -/
@[irreducible] def F32.wrap (x : F32) : F32 := x.sub x.floor

/-- `clamp(x, lo, hi)` (R22); a NaN `x` returns `x`. -/
@[irreducible] def F32.clamp (x lo hi : F32) : F32 :=
  if x.lt lo then lo else if x.gt hi then hi else x

/-- `lerp(a, b, t) = a + (b - a) * t` (R22). -/
@[irreducible] def F32.lerp (a b t : F32) : F32 := a.add ((b.sub a).mul t)

/-- The binary32 value nearest to `± num / den`, one rounding (R14, R110). -/
@[irreducible] def F32.nearest (neg : Bool) (num den : Nat) : F32 :=
  F32.ofSignMag neg (roundMag (num * 2 ^ 149) den)

/-- Vector addition, lane by lane (R23). -/
def V.add (a b : V) : V := ⟨a.i.add b.i, a.q.add b.q⟩

/-- `s * v`, lane by lane (R23). -/
def V.scale (s : F32) (v : V) : V := ⟨s.mul v.i, s.mul v.q⟩

/-- `cross(v1, v2) = v1.i * v2.q - v2.i * v1.q` (R23). -/
def V.cross (v1 v2 : V) : F32 := (v1.i.mul v2.q).sub (v2.i.mul v1.q)

/-- `norm2(v) = v.i * v.i + v.q * v.q` (R23). -/
def V.norm2 (v : V) : F32 := (v.i.mul v.i).add (v.q.mul v.q)

end Sys2Proof
end

