-- ==== Sys2Proof/Machine/Constants.lean ====
section
/-! DEFINITION. The numeric constants of the core (R12-R14), as the binary32 patterns the spec gives, and the check that
admits a configuration (R10). -/

namespace Sys2Proof

/-- `Kp = 0.02` (R14). -/
def kp : F32 := ⟨0x3CA3D70A⟩
/-- `Ki = 200e-6` (R14). -/
def ki : F32 := ⟨0x3951B717⟩
/-- `W = kWindupLimit = 0.1` (R14). -/
def windupLimit : F32 := ⟨0x3DCCCCCD⟩
/-- `-W` (R161). -/
def windupLimitNeg : F32 := windupLimit.neg
/-- `kLevelThreshold = 0.05` (R14, R138). -/
def levelThreshold : F32 := ⟨0x3D4CCCCD⟩
/-- `kPeakThreshold = 4.0` (R14). -/
def peakThreshold : F32 := ⟨0x40800000⟩
/-- `kCarrierSyncVector = (-0.75, -0.75)` (R14). -/
def carrierSyncVector : V := ⟨⟨0xBF400000⟩, ⟨0xBF400000⟩⟩
/-- `kCarrierSyncSymbol = 0xF` (R14). -/
def carrierSyncSymbol : BitVec 4 := 0xF
/-- `kAGCFast = 1e-3` (R14). -/
def agcFast : F32 := ⟨0x3A83126F⟩
/-- `kAGCSlow = 50e-6` (R14). -/
def agcSlow : F32 := ⟨0x3851B717⟩
/-- `K_SENSE = (2/π) · √2 · 0.75` (R14). -/
def kSense : F32 := ⟨0x3F2CDC59⟩
/-- `HALF = 0.5` (R14). -/
def half : F32 := ⟨0x3F000000⟩
/-- `-0.5`, the lowest threshold of the quantizer (R243). -/
def halfNeg : F32 := ⟨0xBF000000⟩
/-- `ONE = 1` (R14). -/
def one : F32 := ⟨0x3F800000⟩
/-- `-1`, an entry of the alignment pattern (R210). -/
def oneNeg : F32 := ⟨0xBF800000⟩
/-- `TWO = 2` (R14). -/
def two : F32 := ⟨0x40000000⟩

/-- `NOMINAL_FREQ = 1/N` (R13). -/
def nominalFreq : SymbolDuration → F32
  | .n5 => ⟨0x3E4CCCCD⟩
  | .n6 => ⟨0x3E2AAAAB⟩
  | .n8 => ⟨0x3E000000⟩
  | .n10 => ⟨0x3DCCCCCD⟩
  | .n12 => ⟨0x3DAAAAAB⟩
  | .n16 => ⟨0x3D800000⟩

/-- `DMAX = N - 1.001` (R13). -/
def dmax : SymbolDuration → F32
  | .n5 => ⟨0x407FEF9E⟩
  | .n6 => ⟨0x409FF7CF⟩
  | .n8 => ⟨0x40DFF7CF⟩
  | .n10 => ⟨0x410FFBE7⟩
  | .n12 => ⟨0x412FFBE7⟩
  | .n16 => ⟨0x416FFBE7⟩

/-- A count has reached `kSettlingTime` when `4·c ≥ SAMPLE_RATE` (R12). -/
def settled (p : Params) (c : Nat) : Bool := decide (p.sampleRate ≤ 4 * c)

/-- A count has reached `kCarrierSyncLength` when `40·c ≥ SYMBOL_RATE` (R12). -/
def syncLongEnough (p : Params) (c : Nat) : Bool := decide ((p.symbolRate : Nat) ≤ 40 * c)

/-- The supported symbol duration with this number of samples, if there is one (R10). -/
def SymbolDuration.ofNat? : Nat → Option SymbolDuration
  | 5 => some .n5 | 6 => some .n6 | 8 => some .n8 | 10 => some .n10 | 12 => some .n12 | 16 => some .n16
  | _ => none

/-- The configuration check made at build time (R10, R354): the symbol duration of a legal pair of rates, and nothing for
a pair the build rejects. -/
def checkConfig (sampleRate symbolRate : Nat) : Option SymbolDuration :=
  if symbolRate = 0 ∨ sampleRate % symbolRate ≠ 0 then none
  else SymbolDuration.ofNat? (sampleRate / symbolRate)

end Sys2Proof
end

