-- ==== Sys2Proof/Syntax.lean ====
section
/-! DEFINITION. The commands of the core: one constructor of `Instr` per row of spec/opcode_table.json, the command as
the port carries it, the names of the read space, and the abstract syntax of an assembler line. -/

namespace Sys2Proof

/-- One command of the core (R106): a row of the opcode table each. `PROCESS` carries its operand, the data word
`DIN` (R103); every other command ignores `DIN`, and a `READ` row is one register address (R102). -/
inductive Instr where
  | nop
  | init
  | reset
  | beginCarrierSync
  | process (din : DataWord)
  | readStatus
  | readPllPhase
  | readPllError
  | readPllStep
  | readDecisionPhase
  | readSignalPower
  | readRecoveredI
  | readRecoveredQ
  | readCorrelation
  | readAgc
  | readOutSymbol
  | readConfig
deriving DecidableEq, Repr

/-- What the host presents for one command: the pair `(CMD[15:0], DIN[31:0])` (R100). -/
structure Command where
  cmd : CmdWord
  din : DataWord
deriving DecidableEq, Repr, Inhabited

/-- The twelve registers of the read space, in address order 0x0 to 0xB (R70). -/
inductive Reg where
  | status
  | pllPhase
  | pllError
  | pllStep
  | decisionPhase
  | signalPower
  | recoveredI
  | recoveredQ
  | correlation
  | agc
  | outSymbol
  | config
deriving DecidableEq, Repr

/-- A `<sample>` of the assembler (R110): a decimal number `± mantissa · 10^(posExp - negExp)`, or a 32-bit hexadecimal
pattern used unchanged. -/
inductive Sample where
  | decimal (neg : Bool) (mantissa posExp negExp : Nat)
  | pattern (bits : DataWord)
deriving DecidableEq, Repr

/-- A `<register>` of the assembler (R110): a name of R106, or a numeric address. -/
inductive RegOperand where
  | name (r : Reg)
  | address (a : Nat)
deriving DecidableEq, Repr

/-- One assembler line: the six forms of R110 (`BCS` is the short form of `beginCarrierSync`) and the three
pseudo-instructions of R111. -/
inductive AsmLine where
  | nop
  | init
  | reset
  | beginCarrierSync
  | process (x : Sample)
  | read (r : RegOperand)
  | processRepeat (n : Nat) (x : Sample)
  | reacquire
  | errorQuery
deriving DecidableEq, Repr

end Sys2Proof
end

