-- ==== Sys2Proof/Machine/State.lean ====
section
/-! DEFINITION. The state of the machine: the core state of R40-R45, block by block, and the command port of R100; the
reasons for which a step can stop; and the machine right after reset (R75, R380, R381). -/

namespace Sys2Proof.Machine

/-- The seven states of the demodulator (R60). Code 7 is never held, and cannot be written down. -/
inductive SeqState where
  | waitToSettle
  | senseGain
  | carrierSync
  | carrierLock
  | align
  | ok
  | error
deriving DecidableEq, Repr, Inhabited

/-- AGC front end state (R40). -/
structure AgcState where
  /-- `hpf_lp` -/
  hpfLp : F32
  /-- `level` -/
  level : F32
  /-- `agc_gain` -/
  gain : F32
deriving DecidableEq, Repr, Inhabited

/-- PLL and oscillator state (R41). -/
structure PllState where
  /-- `pll_phase` -/
  phase : F32
  /-- `pll_prev_phase` -/
  prevPhase : F32
  /-- `pll_step` -/
  step : F32
  /-- `pll_acc` -/
  acc : F32
  /-- `pll_error` -/
  error : F32
deriving DecidableEq, Repr, Inhabited

/-- The state of one biquad section: `crf_x[s][0..2]` and `crf_y[s][0..1]` (R42). -/
structure BiquadState where
  x : Vector V 3
  y : Vector V 2
deriving DecidableEq, Repr

/-- Carrier-rejection filter state (R42): sections 0 and 1. -/
structure CrfState where
  sec0 : BiquadState
  sec1 : BiquadState
deriving DecidableEq, Repr

/-- Baseband sample-and-hold state (R43). -/
structure HoldState where
  /-- `v_hist`, the newest value first; its length is `N` in every state that satisfies the invariant (entry 12). -/
  vHist : List V
  /-- `recovered` -/
  recovered : V
deriving DecidableEq, Repr

/-- Correlator state (R44). Index 0 of each window is the newest entry. -/
structure CorState where
  /-- `cor_v` -/
  v : Vector V 8
  /-- `cor_phase` -/
  phase : Vector F32 3
  /-- `cor_hist` -/
  hist : Vector F32 3
  /-- `cor_max` -/
  max : F32
  /-- `cor_dec` -/
  dec : Vector F32 4
  /-- `cor_peaks` -/
  peaks : BitVec 3
deriving DecidableEq, Repr

/-- Sequencer state (R45). -/
structure SeqRegs where
  /-- `state` -/
  state : SeqState
  /-- `skipped_samples` -/
  skippedSamples : BitVec 32
  /-- `carrier_sync_count` -/
  carrierSyncCount : BitVec 32
  /-- `decision_phase` -/
  decisionPhase : F32
  /-- `decide` -/
  decide : Bool
  /-- `emit` -/
  emit : Bool
  /-- `out_symbol` -/
  outSymbol : BitVec 4
deriving DecidableEq, Repr, Inhabited

/-- The core state: every state element of R40-R45, and nothing else. -/
structure CoreState where
  agc : AgcState
  pll : PllState
  crf : CrfState
  hold : HoldState
  cor : CorState
  seq : SeqRegs
deriving DecidableEq, Repr

/-- The response codes (R104); codes 2 and 3 are never produced, and cannot be written down. -/
inductive RespCode where
  | done
  | illegal
deriving DecidableEq, Repr, Inhabited

/-- The response of a command: `(RESP[1:0], DOUT[31:0])` (R100). -/
structure Response where
  resp : RespCode
  dout : DataWord
deriving DecidableEq, Repr, Inhabited

/-- What can arrive from outside between two steps: a command at the command port (R100), or the assertion of the
power-on reset line `rst_n` (R381, entry 4). -/
inductive PortEvent where
  | command (c : Command)
  | powerOnReset
deriving DecidableEq, Repr

/-- The command port at the transaction level (R100, entry 1). -/
structure Port where
  /-- What the host and the reset line present, in order; the first is next. The model's own field, not the spec's. -/
  inputs : List PortEvent
  /-- The response that the last step presents; `none` when it presents none (`rsp_valid = 0`, entry 16). -/
  response : Option Response
deriving DecidableEq, Repr

/-- The state of the machine. -/
structure State where
  core : CoreState
  port : Port
deriving DecidableEq, Repr

/-- Faults: there are none. No rule stops the core; an illegal command is answered and the core goes on (R350-R352). -/
inductive Fault
deriving DecidableEq, Repr

/-- Reasons for which the model gives no next state. -/
inductive Refusal where
  /-- No meaning for the instruction: raised by `exec` alone, for an instruction the model has not reached. Safe. -/
  | notModelled (mnemonic : String)
  /-- A window read `W[k]` with `k ≥ L`, or with a delay that has no integer index: "a model must refuse it" (R32, I21).
  Raised by `PROCESS` in `ALIGN` alone (`SampleSymbol`, R250); no state that satisfies the invariant reaches it
  (entry 11). Safe. -/
  | windowIndex
deriving DecidableEq, Repr

/-- The core state after reset (R380) of an instance with `n` samples per symbol: every element zero,
`WAIT_TO_SETTLE`. -/
def CoreState.zeroed (n : Nat) : CoreState where
  agc := { hpfLp := F32.zero, level := F32.zero, gain := F32.zero }
  pll := { phase := F32.zero, prevPhase := F32.zero, step := F32.zero, acc := F32.zero, error := F32.zero }
  crf :=
    { sec0 := { x := #v[V.zero, V.zero, V.zero], y := #v[V.zero, V.zero] }
      sec1 := { x := #v[V.zero, V.zero, V.zero], y := #v[V.zero, V.zero] } }
  hold := { vHist := List.replicate n V.zero, recovered := V.zero }
  cor :=
    { v := #v[V.zero, V.zero, V.zero, V.zero, V.zero, V.zero, V.zero, V.zero]
      phase := #v[F32.zero, F32.zero, F32.zero]
      hist := #v[F32.zero, F32.zero, F32.zero]
      max := F32.zero
      dec := #v[F32.zero, F32.zero, F32.zero, F32.zero]
      peaks := 0 }
  seq :=
    { state := .waitToSettle, skippedSamples := 0, carrierSyncCount := 0, decisionPhase := F32.zero
      decide := false, emit := false, outSymbol := 0 }

/-- The machine right after power-on reset (R75, R381), before the host has presented anything (entry 3). -/
def State.reset : State where
  core := CoreState.zeroed Config.params.n
  port := { inputs := [], response := none }

end Sys2Proof.Machine

namespace Sys2Proof

/-- `SIGNAL_POWER`, the OPEN parameter behind the accessor `signal_power`: a total function of the core state, free
(R11, D30, entry 6; DESIGN CHOICE, safe). -/
opaque Config.signalPower (c : Machine.CoreState) : F32

end Sys2Proof
end

