-- ==== Sys2Proof/Machine/Ops.lean ====
section
/-! DEFINITION. The shared operations over the state: windows (R32, R33), saturating counters (R272), block updates,
responses (R104, R105), ResetState (R380), and the one exception of the core, Illegal (R350-R352). There is no return from
an exception beside it: an illegal command is not entered and returned from (R363). -/

namespace Sys2Proof.Machine

/-- `W.write(x)` of a window of fixed length (R32): `x` becomes `W[0]`, every entry moves one place, the oldest drops
out. -/
def windowWrite {α : Type} {n : Nat} (w : Vector α (n + 1)) (x : α) : Vector α (n + 1) :=
  ⟨(x :: w.toList.dropLast).toArray, by simp⟩

/-- `W.write(x)` of a window held as a list (R32): the length stays. -/
def historyWrite {α : Type} (w : List α) (x : α) : List α := (x :: w).take w.length

/-- `W[k]` of a window held as a list: nothing for `k ≥ L`, which the model refuses (R32, I21). -/
def historyRead {α : Type} (w : List α) (k : Nat) : Option α := w[k]?

/-- `W.sum()`: the binary32 sum in age order (R33). -/
def windowSum {n : Nat} (w : Vector F32 n) : F32 :=
  match w.toList with
  | [] => F32.zero
  | x :: rest => rest.foldl F32.add x

/-- `sat_u32(n + 1)` (R272, R281): the increment of a saturating 32-bit counter. -/
def satIncr (c : BitVec 32) : BitVec 32 := BitVec.ofNat 32 (min (c.toNat + 1) (2 ^ 32 - 1))

/-- Replace the AGC front end state. -/
def CoreState.withAgc (c : CoreState) (a : AgcState) : CoreState := { c with agc := a }

/-- Replace the PLL state. -/
def CoreState.withPll (c : CoreState) (a : PllState) : CoreState := { c with pll := a }

/-- Replace the carrier-rejection filter state. -/
def CoreState.withCrf (c : CoreState) (a : CrfState) : CoreState := { c with crf := a }

/-- Replace the sample-and-hold state. -/
def CoreState.withHold (c : CoreState) (a : HoldState) : CoreState := { c with hold := a }

/-- Replace the correlator state. -/
def CoreState.withCor (c : CoreState) (a : CorState) : CoreState := { c with cor := a }

/-- Replace the sequencer registers. -/
def CoreState.withSeq (c : CoreState) (a : SeqRegs) : CoreState := { c with seq := a }

/-- Replace the core state; the port stays. -/
def State.withCore (s : State) (c : CoreState) : State := { s with core := c }

/-- Take the next input off the port; the response of the command before it is no longer presented. -/
def State.withInputs (s : State) (rest : List PortEvent) : State :=
  { s with port := { inputs := rest, response := none } }

/-- Present a response (R100, R104); the core state stays. -/
def State.respond (s : State) (code : RespCode) (dout : DataWord) : State :=
  { s with port := { s.port with response := some { resp := code, dout := dout } } }

/-- `RESP <- DONE`, `DOUT <- dout` (R105). -/
def State.respondDone (s : State) (dout : DataWord) : State := s.respond .done dout

/-- `raise Illegal(cmd)`: the response is `(ILLEGAL, 0x00000000)` and no state element changes (R352). -/
def raiseIllegal (s : State) : State := s.respond .illegal 0x00000000

/-- `ResetState()` (R380): every element of R40-R45 is written. -/
def resetState (p : Params) (c : CoreState) : CoreState :=
  { c with
    agc := { c.agc with hpfLp := F32.zero, level := F32.zero, gain := F32.zero }
    pll := { c.pll with
      phase := F32.zero, prevPhase := F32.zero, step := F32.zero, acc := F32.zero, error := F32.zero }
    crf := { c.crf with
      sec0 := { x := Vector.replicate 3 V.zero, y := Vector.replicate 2 V.zero }
      sec1 := { x := Vector.replicate 3 V.zero, y := Vector.replicate 2 V.zero } }
    hold := { c.hold with vHist := List.replicate p.n V.zero, recovered := V.zero }
    cor := { c.cor with
      v := Vector.replicate 8 V.zero
      phase := Vector.replicate 3 F32.zero
      hist := Vector.replicate 3 F32.zero
      max := F32.zero
      dec := Vector.replicate 4 F32.zero
      peaks := 0 }
    seq := { c.seq with
      state := .waitToSettle, skippedSamples := 0, carrierSyncCount := 0, decisionPhase := F32.zero
      decide := false, emit := false, outSymbol := 0 } }

end Sys2Proof.Machine
end

