-- ==== Sys2Proof/Machine/Operands.lean ====
section
/-! DEFINITION. Operand forms (R102, R103) and the address map of the register read space (R70, R81, R106). -/

namespace Sys2Proof

/-- The binary32 sample in the data word of `PROCESS`: every pattern is legal (R103). -/
def sampleOf (din : DataWord) : F32 := F32.ofBits din

/-- The address of a register (R70). -/
def Reg.addr : Reg → BitVec 4
  | .status => 0x0
  | .pllPhase => 0x1
  | .pllError => 0x2
  | .pllStep => 0x3
  | .decisionPhase => 0x4
  | .signalPower => 0x5
  | .recoveredI => 0x6
  | .recoveredQ => 0x7
  | .correlation => 0x8
  | .agc => 0x9
  | .outSymbol => 0xA
  | .config => 0xB

/-- The register at an address; 0xC to 0xF are reserved (R70, R81). -/
def Reg.ofNat? : Nat → Option Reg
  | 0x0 => some .status
  | 0x1 => some .pllPhase
  | 0x2 => some .pllError
  | 0x3 => some .pllStep
  | 0x4 => some .decisionPhase
  | 0x5 => some .signalPower
  | 0x6 => some .recoveredI
  | 0x7 => some .recoveredQ
  | 0x8 => some .correlation
  | 0x9 => some .agc
  | 0xA => some .outSymbol
  | 0xB => some .config
  | _ => none

end Sys2Proof
end

