-- ==== Sys2Proof/Machine/Agc.lean ====
section
/-! DEFINITION. The AGC front end: high-pass filter, level follower, gain and its update (R130-R138). -/

namespace Sys2Proof.Machine

/-- HPF (R130): the result `y` and the state with the updated `hpf_lp`, which `y` uses. -/
def hpf (p : Params) (x : F32) (a : AgcState) : F32 × AgcState :=
  let lp := a.hpfLp.add (p.alphaHpf.mul (x.sub a.hpfLp))
  (x.sub lp, { a with hpfLp := lp })

/-- Level follower (R131); the result is the new `level`. -/
def follow (p : Params) (m : F32) (a : AgcState) : AgcState :=
  { a with level := a.level.add (p.alphaLvl.mul (m.abs.sub a.level)) }

/-- Gain application (R133). -/
def applyGain (y : F32) (a : AgcState) : F32 := y.mul a.gain

/-- Initial gain, on leaving `SENSE_GAIN` (R134). -/
def initialGain (level : F32) (a : AgcState) : AgcState := { a with gain := kSense.div level }

/-- AGCProcess, the gain update (R135); the gain has no limit (R137). -/
def agcProcess (v r : V) (speed : F32) (a : AgcState) : AgcState :=
  { a with gain := a.gain.sub (speed.mul (v.norm2.sub r.norm2)) }

end Sys2Proof.Machine
end

