-- ==== Sys2Proof/Machine/Correlator.lean ====
section
/-! DEFINITION. The correlator: matched filter, peak locator, phase vote (R210-R219). -/

namespace Sys2Proof.Machine

/-- `PAT_I`, index 0 for the newest entry (R210). -/
def patI : List F32 := [oneNeg, oneNeg, oneNeg, F32.zero, one, one, one, F32.zero]

/-- `PAT_Q` (R210). -/
def patQ : List F32 := [oneNeg, F32.zero, one, one, one, F32.zero, oneNeg, oneNeg]

/-- Push (R211). -/
def corPush (ph : F32) (u : V) (c : CorState) : CorState :=
  { c with phase := windowWrite c.phase ph, v := windowWrite c.v u }

/-- One term of the correlation: `PAT_I[k] * cor_v[k].i + PAT_Q[k] * cor_v[k].q` (R212). -/
def corTerm (pi pq : F32) (v : V) : F32 := (pi.mul v.i).add (pq.mul v.q)

/-- Correlation value (R212): the terms summed from `+0.0` in age order. -/
def correlationValue (w : Vector V 8) : F32 :=
  (List.zipWith (fun (pat : F32 × F32) v => corTerm pat.1 pat.2 v) (patI.zip patQ) w.toList).foldl F32.add F32.zero

/-- Running maximum and history (R213). -/
def corUpdate (x : F32) (c : CorState) : CorState :=
  { c with max := if x.gt c.max then x else c.max, hist := windowWrite c.hist x }

/-- Peak test (R214). -/
def peakTest (c : CorState) : Bool :=
  c.hist[1].eq c.max && c.hist[0].lt c.max && c.max.ge peakThreshold

/-- Valley reset (R217). -/
def valleyReset (x : F32) (c : CorState) : CorState :=
  if x.lt F32.zero then { c with max := F32.zero } else c

/-- Sub-sample tilt (R215). -/
def corTilt (c : CorState) : F32 :=
  let left := c.hist[1].sub c.hist[2]
  let right := c.hist[1].sub c.hist[0]
  (half.mul (left.sub right)).div (left.add right)

/-- Phase vote on a peak (R216). -/
def corVote (p : Params) (tilt : F32) (c : CorState) : CorState :=
  let a := c.phase[1]
  let b := if tilt.lt F32.zero then c.phase[2] else c.phase[0]
  let vote := F32.lerp (p.cosCyc a.wrap) (p.cosCyc b.wrap) tilt.abs
  { c with dec := windowWrite c.dec vote, peaks := BitVec.ofNat 3 (min (c.peaks.toNat + 1) 4) }

/-- Result (R218): the decision phase, once four peaks have been collected. -/
def corResult (c : CorState) : Option F32 :=
  if 4 ≤ c.peaks.toNat then some (if (windowSum c.dec).gt F32.zero then F32.zero else half) else none

/-- Correlate, the whole invocation, in the order of R219: the peak test reads the maximum before the valley reset, and
the vote comes after it. -/
def correlate (p : Params) (ph : F32) (u : V) (c : CorState) : Option F32 × CorState :=
  let c1 := corPush ph u c
  let x := correlationValue c1.v
  let c2 := corUpdate x c1
  let peak := peakTest c2
  let c3 := valleyReset x c2
  let c4 := if peak then corVote p (corTilt c3) c3 else c3
  (corResult c4, c4)

end Sys2Proof.Machine
end

