-- ==== Sys2Proof/Machine/Crf.lean ====
section
/-! DEFINITION. The carrier-rejection filter: a cascade of two biquad sections on complex samples (R190-R194). -/

namespace Sys2Proof.Machine

/-- The sum of one lane of a section, left to right (R191): `x` are the three inputs, newest first, and `y` the two
previous outputs. -/
def biquadLane (k : BiquadCoef) (x0 x1 x2 y0 y1 : F32) : F32 :=
  ((((k.b0.mul x0).add (k.b1.mul x1)).add (k.b2.mul x2)).sub (k.a0.mul y0)).sub (k.a1.mul y1)

/-- Biquad section step (R191): shift `x`, form the sum in each lane, shift `y`. -/
def biquad (k : BiquadCoef) (u : V) (b : BiquadState) : V × BiquadState :=
  let x := windowWrite b.x u
  let y : V :=
    ⟨biquadLane k x[0].i x[1].i x[2].i b.y[0].i b.y[1].i,
     biquadLane k x[0].q x[1].q x[2].q b.y[0].q b.y[1].q⟩
  (y, { x := x, y := windowWrite b.y y })

/-- Cascade (R192): section 0, then section 1, whose output is the filter's. -/
def crf (p : Params) (m : V) (c : CrfState) : V × CrfState :=
  let r0 := biquad (p.crfCoef p.duration 0) m c.sec0
  let r1 := biquad (p.crfCoef p.duration 1) r0.1 c.sec1
  (r1.1, { sec0 := r0.2, sec1 := r1.2 })

end Sys2Proof.Machine
end

