-- ==== Sys2Proof/Machine/Flags.lean ====
section
/-! DEFINITION. The flags of the core (R50, R275) and the codes and words that show them (R60, R70, R104, R320). -/

namespace Sys2Proof.Machine

/-- The code of a demodulator state (R60). -/
def SeqState.code : SeqState → BitVec 3
  | .waitToSettle => 0
  | .senseGain => 1
  | .carrierSync => 2
  | .carrierLock => 3
  | .align => 4
  | .ok => 5
  | .error => 6

/-- The code of a response (R104). -/
def RespCode.code : RespCode → BitVec 2
  | .done => 0
  | .illegal => 1

/-- The pre-acquisition states (R60). -/
def SeqState.preAcquisition : SeqState → Bool
  | .waitToSettle | .senseGain => true
  | .carrierSync | .carrierLock | .align | .ok | .error => false

/-- The demodulating states (R60). -/
def SeqState.demodulating : SeqState → Bool
  | .carrierSync | .carrierLock | .align | .ok => true
  | .waitToSettle | .senseGain | .error => false

/-- The derived flag `ERR`, the accessor `error()` (R50). -/
def SeqRegs.err (r : SeqRegs) : Bool := r.state == .error

/-- `decide <- 0; emit <- 0`, step 0 of a `PROCESS` outside `ERROR` (R275, R276). -/
def SeqRegs.clearFlags (r : SeqRegs) : SeqRegs := { r with decide := false, emit := false }

/-- `decide <- 1` (R275). -/
def SeqRegs.setDecide (r : SeqRegs) : SeqRegs := { r with decide := true }

/-- `zext_32` of one bit. -/
def bit32 (b : Bool) : DataWord := (BitVec.ofBool b).setWidth 32

/-- The word of `STATUS` (R70, R332). -/
def statusWord (r : SeqRegs) : DataWord :=
  bit32 r.emit <<< 5 ||| bit32 r.decide <<< 4 ||| bit32 r.err <<< 3 ||| r.state.code.setWidth 32

/-- The response data of `PROCESS` (R105, R320). -/
def processWord (r : SeqRegs) : DataWord := r.outSymbol.setWidth 32 <<< 4 ||| bit32 r.emit

end Sys2Proof.Machine
end

