-- ==== Sys2Proof/Machine/Pll.lean ====
section
/-! DEFINITION. The PLL, its oscillator, the mixer and the phase detectors (R160-R171). -/

namespace Sys2Proof.Machine

/-- ProcessError (R161): `pll_error`, then `pll_acc`, then `pll_step` from the new accumulator. -/
def processError (p : Params) (e : F32) (l : PllState) : PllState :=
  let acc := (l.acc.add (ki.mul e)).clamp windupLimitNeg windupLimit
  let t := (one.sub (kp.mul e)).sub acc
  { l with error := e, acc := acc, step := ((nominalFreq p.duration).mul t).clamp F32.zero one }

/-- Step, the NCO advance (R162). -/
def ncoStep (l : PllState) : PllState :=
  { l with prevPhase := l.phase, phase := (l.phase.add l.step).wrap }

/-- phase_trigger, the threshold-crossing detector (R163). -/
def phaseTrigger (threshold : F32) (l : PllState) : Option F32 :=
  let a := (l.phase.sub threshold).wrap
  let b := (l.prevPhase.sub threshold).wrap
  if a.lt b && l.phase.ne l.prevPhase then some (a.div (l.phase.sub l.prevPhase).wrap) else none

/-- Trigger selection of `CARRIER_LOCK` and `ALIGN` (R286): the `0`-trigger is preferred. -/
def selectTrigger (l : PllState) : Option F32 :=
  match phaseTrigger F32.zero l with
  | some d => some d
  | none => phaseTrigger half l

/-- Local oscillator `(cos φ, -sin φ)` (R165). -/
def localOsc (p : Params) (phi : F32) : V := ⟨p.cosCyc phi.wrap, (p.sinCyc phi.wrap).neg⟩

/-- Mixer `(2·g)·osc` (R168). -/
def mix (g : F32) (osc : V) : V := V.scale (two.mul g) osc

/-- Carrier-sync phase detector (R169). -/
def syncError (v : V) : F32 := v.cross carrierSyncVector

/-- Decision-directed phase detector (R170). -/
def decisionError (v vq : V) : F32 := v.cross vq

/-- Raised-cosine gated detector of `OK` (R171, R294). -/
def gatedError (p : Params) (v vq : V) (phi decisionPhase : F32) : F32 :=
  ((v.cross vq).mul half).mul (one.add (p.cosCyc (phi.sub decisionPhase).wrap))

end Sys2Proof.Machine
end

