-- ==== Sys2Proof/Machine/Symbol.lean ====
section
/-! DEFINITION. The quantizer, the symbol map and the fractional-delay sampler (R240-R251). -/

namespace Sys2Proof.Machine

/-- DecisionIndex, by its exact bands (R243); a NaN has index 0. -/
def decisionIndex (s : F32) : Fin 4 :=
  if s.ge half then 3 else if s.ge F32.zero then 2 else if s.ge halfNeg then 1 else 0

/-- `LEVEL[k]` (R240). -/
def levelOf : Fin 4 → F32
  | 0 => ⟨0xBF400000⟩
  | 1 => ⟨0xBE800000⟩
  | 2 => ⟨0x3E800000⟩
  | 3 => ⟨0x3F400000⟩

/-- Quantize of one lane (R244). -/
def quantize (s : F32) : F32 := levelOf (decisionIndex s)

/-- Quantize of a vector, lane by lane (R242). -/
def quantizeV (v : V) : V := ⟨quantize v.i, quantize v.q⟩

/-- The symbol map: row `i` index, column `q` index (R246). -/
def symbolMap : Fin 4 → Fin 4 → BitVec 4
  | 0, 0 => 0xF | 0, 1 => 0xD | 0, 2 => 0x9 | 0, 3 => 0xB
  | 1, 0 => 0xE | 1, 1 => 0xC | 1, 2 => 0x8 | 1, 3 => 0xA
  | 2, 0 => 0x6 | 2, 1 => 0x4 | 2, 2 => 0x0 | 2, 3 => 0x2
  | 3, 0 => 0x7 | 3, 1 => 0x5 | 3, 2 => 0x1 | 3, 3 => 0x3

/-- DecideSymbol (R246). -/
def decideSymbol (u : V) : BitVec 4 := symbolMap (decisionIndex u.i) (decisionIndex u.q)

/-- The index of one lane in the inverse map, from the two bits of the symbol that code it (R247). -/
def laneIndexOf (hi lo : Bool) : Fin 4 :=
  match hi, lo with
  | true, true => 0
  | true, false => 1
  | false, false => 2
  | false, true => 3

/-- The inverse map, symbol to constellation point (R247). -/
def symbolPoint (s : BitVec 4) : V :=
  ⟨levelOf (laneIndexOf (s.getLsbD 3) (s.getLsbD 0)), levelOf (laneIndexOf (s.getLsbD 2) (s.getLsbD 1))⟩

/-- The integer value of `floor(d)` as a window index: nothing for a NaN, an infinity or a negative floor (R250,
entry 11). -/
def windowIndex (d : F32) : Option Nat :=
  if d.isFinite && decide (0 ≤ d.floorInt) then some d.floorInt.toNat else none

/-- SampleSymbol, the fractional-delay sampler (R250): nothing when a window read would be out of range (R32, I21). -/
def sampleSymbol (p : Params) (d : F32) (vHist : List V) : Option V :=
  let dc := d.clamp F32.zero (dmax p.duration)
  let f := dc.sub dc.floor
  match windowIndex dc with
  | none => none
  | some k =>
    match historyRead vHist k, historyRead vHist (k + 1) with
    | some late, some early => some ⟨F32.lerp late.i early.i f, F32.lerp late.q early.q f⟩
    | _, _ => none

end Sys2Proof.Machine
end

