-- ==== Sys2Proof/Machine/Sequencer.lean ====
section
/-! DEFINITION. The demodulator state machine: the per-sample procedure of `PROCESS`, in the order the spec fixes
(R270-R298, R391). A result of `none` is a window read out of range (entry 11). -/

namespace Sys2Proof.Machine

/-- WAIT_TO_SETTLE (R281). -/
def waitToSettle (p : Params) (lvl : F32) (c : CoreState) : CoreState :=
  let n := satIncr c.seq.skippedSamples
  if settled p n.toNat && lvl.gt levelThreshold then
    c.withSeq { c.seq with state := .senseGain, skippedSamples := 0 }
  else c.withSeq { c.seq with skippedSamples := n }

/-- SENSE_GAIN (R282): a level drop is tested first. -/
def senseGain (p : Params) (lvl : F32) (c : CoreState) : CoreState :=
  if !lvl.gt levelThreshold then
    c.withSeq { c.seq with state := .waitToSettle, skippedSamples := 0 }
  else
    let n := satIncr c.seq.skippedSamples
    if settled p n.toNat then
      (c.withAgc (initialGain lvl c.agc)).withSeq
        { c.seq with state := .carrierSync, carrierSyncCount := 0, skippedSamples := 0 }
    else c.withSeq { c.seq with skippedSamples := n }

/-- LevelGate, dispatch (R280). -/
def levelGate (p : Params) (lvl : F32) (c : CoreState) : CoreState :=
  match c.seq.state with
  | .waitToSettle => waitToSettle p lvl c
  | _ => senseGain p lvl c

/-- CARRIER_SYNC (R291). -/
def carrierSync (p : Params) (v : V) (c : CoreState) : CoreState :=
  let c1 := c.withPll (processError p (syncError v) c.pll)
  match phaseTrigger F32.zero c1.pll with
  | none => c1
  | some _ =>
    let seq := c1.seq.setDecide
    if decideSymbol v = carrierSyncSymbol then
      let n := satIncr seq.carrierSyncCount
      let state := if syncLongEnough p n.toNat then .carrierLock else seq.state
      (c1.withAgc (agcProcess v carrierSyncVector agcFast c1.agc)).withSeq
        { seq with carrierSyncCount := n, state := state }
    else c1.withSeq { seq with carrierSyncCount := 0 }

/-- CARRIER_LOCK (R292): the correlator's result is discarded. -/
def carrierLock (p : Params) (v vq : V) (phi : F32) (c : CoreState) : CoreState :=
  let c1 := c.withPll (processError p (decisionError v vq) c.pll)
  match selectTrigger c1.pll with
  | none => c1
  | some _ =>
    let seq := c1.seq.setDecide
    let c2 := (c1.withAgc (agcProcess v carrierSyncVector agcFast c1.agc)).withCor (correlate p phi v c1.cor).2
    if decideSymbol v = carrierSyncSymbol then c2.withSeq seq
    else c2.withSeq { seq with state := .align, decisionPhase := F32.zero }

/-- ALIGN (R293): the correlator is fed the sampled symbol; there is no AGC update (R136). -/
def align (p : Params) (v vq : V) (phi : F32) (c : CoreState) : Option CoreState :=
  let c1 := c.withPll (processError p (decisionError v vq) c.pll)
  match selectTrigger c1.pll with
  | none => some c1
  | some d =>
    let seq := c1.seq.setDecide
    match sampleSymbol p d c1.hold.vHist with
    | none => none
    | some s =>
      let r := correlate p phi s c1.cor
      let c2 := c1.withCor r.2
      match r.1 with
      | none => some (c2.withSeq seq)
      | some dp => some (c2.withSeq { seq with decisionPhase := dp, state := .ok })

/-- OK: gated phase error, then emission on the trigger at `decision_phase` (R294, R295). -/
def data (p : Params) (v vq : V) (phi : F32) (c : CoreState) : CoreState :=
  let c1 := c.withPll (processError p (gatedError p v vq phi c.seq.decisionPhase) c.pll)
  match phaseTrigger c1.seq.decisionPhase c1.pll with
  | none => c1
  | some _ =>
    (c1.withAgc (agcProcess v vq agcSlow c1.agc)).withSeq
      { c1.seq.setDecide with outSymbol := decideSymbol v, emit := true }

/-- Dispatch on the state (R290); in the states that do not demodulate there is no action. -/
def dispatch (p : Params) (v vq : V) (phi : F32) (c : CoreState) : Option CoreState :=
  match c.seq.state with
  | .carrierSync => some (carrierSync p v c)
  | .carrierLock => some (carrierLock p v vq phi c)
  | .align => align p v vq phi c
  | .ok => some (data p v vq phi c)
  | .waitToSettle | .senseGain | .error => some c

/-- The baseband vector of a demodulated sample and the filter state after it (R285): oscillator, mixer, filter. -/
def baseband (p : Params) (g : F32) (c : CoreState) : V × CrfState :=
  crf p (mix g (localOsc p c.pll.phase)) c.crf

/-- The state in which the dispatch of a demodulated sample runs (R285): filter, history and `recovered` written. -/
def demodFront (p : Params) (g : F32) (c : CoreState) : CoreState :=
  let r := baseband p g c
  (c.withCrf r.2).withHold { vHist := historyWrite c.hold.vHist r.1, recovered := r.1 }

/-- Demodulate (R285, R296): the front, the dispatch, and the NCO step at the end. -/
def demodulate (p : Params) (g : F32) (c : CoreState) : Option CoreState :=
  let v := (baseband p g c).1
  match dispatch p v (quantizeV v) c.pll.phase (demodFront p g c) with
  | none => none
  | some c1 => some (c1.withPll (ncoStep c1.pll))

/-- The AGC front end of one sample (R276, steps 1 and 2): the gained sample, and the state with both filters
updated. -/
def frontEnd (p : Params) (x : F32) (a : AgcState) : F32 × AgcState :=
  let r := hpf p x a
  let a1 := follow p r.1.abs r.2
  (applyGain r.1 a1, a1)

/-- The state after the steps 0 to 2 of R276: flags cleared, filters updated. -/
def sampleFront (p : Params) (x : F32) (c : CoreState) : CoreState :=
  (c.withSeq c.seq.clearFlags).withAgc (frontEnd p x c.agc).2

/-- Process, the per-sample procedure (R276). In `ERROR` nothing changes (R297); a loss of signal in `OK` ends the sample
before it is demodulated (R283). -/
def processSample (p : Params) (x : F32) (c : CoreState) : Option CoreState :=
  if c.seq.state = .error then some c
  else
    let c1 := sampleFront p x c
    if c.seq.state.preAcquisition then some (levelGate p c1.agc.level c1)
    else if c.seq.state = .ok && c1.agc.level.lt levelThreshold then
      some (c1.withSeq { c1.seq with state := .error })
    else demodulate p (frontEnd p x c.agc).1 c1

end Sys2Proof.Machine
end

