-- ==== Sys2Proof/Machine/Commands.lean ====
section
/-! DEFINITION. The commands that can change state (R320-R324): one meaning per instruction, every one of them legal in
every state (R340). -/

namespace Sys2Proof.Machine

/-- `NOP` (R324). -/
def execNop (s : State) : Host.Outcome State Fault Refusal := .next (s.respondDone 0)

/-- `INIT` (R321). -/
def execInit (s : State) : Host.Outcome State Fault Refusal :=
  .next ((s.withCore (resetState Config.params s.core)).respondDone 0)

/-- `RESET`, the alias of `INIT` (R323). -/
def execReset (s : State) : Host.Outcome State Fault Refusal :=
  .next ((s.withCore (resetState Config.params s.core)).respondDone 0)

/-- The effect of `BEGIN_CARRIER_SYNC` on the core: two registers (R322, D32). -/
def beginCarrierSync (c : CoreState) : CoreState :=
  c.withSeq { c.seq with state := .carrierSync, carrierSyncCount := 0 }

/-- `BEGIN_CARRIER_SYNC` (R322). -/
def execBeginCarrierSync (s : State) : Host.Outcome State Fault Refusal :=
  .next ((s.withCore (beginCarrierSync s.core)).respondDone 0)

/-- `PROCESS` with given parameters (R320): one sample, answered with `out_symbol` and `emit`. -/
def processCommand (p : Params) (din : DataWord) (s : State) : Host.Outcome State Fault Refusal :=
  match processSample p (sampleOf din) s.core with
  | some c => .next ((s.withCore c).respondDone (processWord c.seq))
  | none => .refused .windowIndex

/-- `PROCESS` (R320). -/
def execProcess (din : DataWord) (s : State) : Host.Outcome State Fault Refusal :=
  processCommand Config.params din s

end Sys2Proof.Machine
end

