-- ==== Sys2Proof/Machine/Read.lean ====
section
/-! DEFINITION. `READ` of the twelve registers (R330-R333): no state element changes, and no flag is cleared. -/

namespace Sys2Proof.Machine

/-- ReadReg (R332, R70, R333). -/
def readReg (r : Reg) (c : CoreState) : DataWord :=
  match r with
  | .status => statusWord c.seq
  | .pllPhase => c.pll.phase.bits
  | .pllError => c.pll.error.bits
  | .pllStep => c.pll.step.bits
  | .decisionPhase => c.seq.decisionPhase.bits
  | .signalPower => (Config.signalPower c).bits
  | .recoveredI => c.hold.recovered.i.bits
  | .recoveredQ => c.hold.recovered.q.bits
  | .correlation => c.cor.hist[0].bits
  | .agc => c.agc.gain.bits
  | .outSymbol => c.seq.outSymbol.setWidth 32
  | .config => BitVec.ofNat 32 Config.params.n

/-- `READ` of a register (R330): `DOUT <- ReadReg(ADDR)`, `RESP <- DONE`. -/
def readCommand (r : Reg) (s : State) : Host.Outcome State Fault Refusal := .next (s.respondDone (readReg r s.core))

/-- `READ STATUS` (R330). -/
def execReadStatus (s : State) : Host.Outcome State Fault Refusal := readCommand .status s
/-- `READ PLL_PHASE` (R330). -/
def execReadPllPhase (s : State) : Host.Outcome State Fault Refusal := readCommand .pllPhase s
/-- `READ PLL_ERROR` (R330). -/
def execReadPllError (s : State) : Host.Outcome State Fault Refusal := readCommand .pllError s
/-- `READ PLL_STEP` (R330). -/
def execReadPllStep (s : State) : Host.Outcome State Fault Refusal := readCommand .pllStep s
/-- `READ DECISION_PHASE` (R330). -/
def execReadDecisionPhase (s : State) : Host.Outcome State Fault Refusal := readCommand .decisionPhase s
/-- `READ SIGNAL_POWER` (R330): the value is the OPEN parameter's (entry 6). -/
def execReadSignalPower (s : State) : Host.Outcome State Fault Refusal := readCommand .signalPower s
/-- `READ RECOVERED_I` (R330). -/
def execReadRecoveredI (s : State) : Host.Outcome State Fault Refusal := readCommand .recoveredI s
/-- `READ RECOVERED_Q` (R330). -/
def execReadRecoveredQ (s : State) : Host.Outcome State Fault Refusal := readCommand .recoveredQ s
/-- `READ CORRELATION` (R330). -/
def execReadCorrelation (s : State) : Host.Outcome State Fault Refusal := readCommand .correlation s
/-- `READ AGC` (R330). -/
def execReadAgc (s : State) : Host.Outcome State Fault Refusal := readCommand .agc s
/-- `READ OUT_SYMBOL` (R330). -/
def execReadOutSymbol (s : State) : Host.Outcome State Fault Refusal := readCommand .outSymbol s
/-- `READ CONFIG` (R330). -/
def execReadConfig (s : State) : Host.Outcome State Fault Refusal := readCommand .config s

end Sys2Proof.Machine
end

