-- ==== Sys2Proof/Machine/Dispatch.lean ====
section
/-! DEFINITION. One arm per instruction of the opcode table. -/

namespace Sys2Proof.Machine

def exec (i : Instr) (s : State) : Host.Outcome State Fault Refusal :=
  match i with
  | .nop => Sys2Proof.Machine.execNop s
  | .init => Sys2Proof.Machine.execInit s
  | .reset => Sys2Proof.Machine.execReset s
  | .beginCarrierSync => Sys2Proof.Machine.execBeginCarrierSync s
  | .process din => Sys2Proof.Machine.execProcess din s
  | .readStatus => Sys2Proof.Machine.execReadStatus s
  | .readPllPhase => Sys2Proof.Machine.execReadPllPhase s
  | .readPllError => Sys2Proof.Machine.execReadPllError s
  | .readPllStep => Sys2Proof.Machine.execReadPllStep s
  | .readDecisionPhase => Sys2Proof.Machine.execReadDecisionPhase s
  | .readSignalPower => Sys2Proof.Machine.execReadSignalPower s
  | .readRecoveredI => Sys2Proof.Machine.execReadRecoveredI s
  | .readRecoveredQ => Sys2Proof.Machine.execReadRecoveredQ s
  | .readCorrelation => Sys2Proof.Machine.execReadCorrelation s
  | .readAgc => Sys2Proof.Machine.execReadAgc s
  | .readOutSymbol => Sys2Proof.Machine.execReadOutSymbol s
  | .readConfig => Sys2Proof.Machine.execReadConfig s

end Sys2Proof.Machine
end

