-- ==== Sys2Proof/WellFormed.lean ====
section
/-! DEFINITION. Which terms of the syntax stand for something the core or its assembler accepts. -/

namespace Sys2Proof

/-- The command words that are legal, in the order of R106: five single words and the twelve words of `READ` (R108). -/
def legalWords : List CmdWord :=
  [0x0000, 0x0001, 0x0002, 0x0003, 0x0004,
   0x0005, 0x0105, 0x0205, 0x0305, 0x0405, 0x0505,
   0x0605, 0x0705, 0x0805, 0x0905, 0x0A05, 0x0B05]

/-- A command is well formed when its command word is legal (R108); `DIN` is never a reason (R107). -/
def Command.wellFormed (c : Command) : Bool := legalWords.contains c.cmd

/-- Every term of `Instr` is well formed: its one operand is the 32-bit data word of `PROCESS`, of which every pattern is
a legal sample (R103), and the addresses of `READ` are constructors. -/
def Instr.wellFormed : Instr → Bool
  | .nop | .init | .reset | .beginCarrierSync | .process _
  | .readStatus | .readPllPhase | .readPllError | .readPllStep | .readDecisionPhase | .readSignalPower
  | .readRecoveredI | .readRecoveredQ | .readCorrelation | .readAgc | .readOutSymbol | .readConfig => true

/-- A register operand is well formed when it is a name or an address 0x0 to 0xB: "`READ 0xC` does not assemble"
(R110, R112). -/
def RegOperand.wellFormed : RegOperand → Bool
  | .name _ => true
  | .address a => decide (a < 0xC)

/-- An assembler line is well formed when its register operand is (R110). -/
def AsmLine.wellFormed : AsmLine → Bool
  | .read r => r.wellFormed
  | .nop | .init | .reset | .beginCarrierSync | .process _ | .processRepeat _ _ | .reacquire | .errorQuery => true

end Sys2Proof
end

