-- ==== Sys2Proof/Decode.lean ====
section
/-! DEFINITION. The decoder of the command word (R101, R107), total, rejecting by name; and after it the encoder (R106). -/

namespace Sys2Proof

/-- The test of R107 that a word fails first. The core keeps no such sub-code (R351): the names are the model's
(entry 14). -/
inductive IllegalWord where
  /-- `RSV1` or `RSV0` is not zero. -/
  | reservedField
  /-- `OPC` is 0x6 to 0xF. -/
  | reservedOpcode
  /-- `ADDR` is not zero outside `READ`. -/
  | addressNotZero
  /-- `READ` of an address 0xC to 0xF. -/
  | reservedRegister
deriving DecidableEq, Repr

/-- `OPC = cmd[3:0]` (R101). -/
def opcOf (cmd : CmdWord) : BitVec 4 := cmd.extractLsb' 0 4
/-- `RSV0 = cmd[7:4]` (R101). -/
def rsv0Of (cmd : CmdWord) : BitVec 4 := cmd.extractLsb' 4 4
/-- `ADDR = cmd[11:8]` (R101, R102). -/
def addrOf (cmd : CmdWord) : BitVec 4 := cmd.extractLsb' 8 4
/-- `RSV1 = cmd[15:12]` (R101). -/
def rsv1Of (cmd : CmdWord) : BitVec 4 := cmd.extractLsb' 12 4

/-- The `READ` of a register (R106). -/
def readInstr : Reg → Instr
  | .status => .readStatus
  | .pllPhase => .readPllPhase
  | .pllError => .readPllError
  | .pllStep => .readPllStep
  | .decisionPhase => .readDecisionPhase
  | .signalPower => .readSignalPower
  | .recoveredI => .readRecoveredI
  | .recoveredQ => .readRecoveredQ
  | .correlation => .readCorrelation
  | .agc => .readAgc
  | .outSymbol => .readOutSymbol
  | .config => .readConfig

/-- The instruction of an operation code (R106), for a word whose reserved fields are zero. -/
def ofOpcode (opc addr : Nat) (din : DataWord) : Except IllegalWord Instr :=
  match opc with
  | 0x0 => .ok .nop
  | 0x1 => .ok .init
  | 0x2 => .ok .reset
  | 0x3 => .ok .beginCarrierSync
  | 0x4 => .ok (.process din)
  | 0x5 =>
    match Reg.ofNat? addr with
    | some r => .ok (readInstr r)
    | none => .error .reservedRegister
  | _ => .error .reservedOpcode

/-- `Decode(cmd)`: the tests of R107 in their order. Only `cmd` is tested; `DIN` becomes the operand of `PROCESS`. -/
def decode (c : Command) : Except IllegalWord Instr :=
  if rsv1Of c.cmd ≠ 0 ∨ rsv0Of c.cmd ≠ 0 then .error .reservedField
  else if 0x6 ≤ (opcOf c.cmd).toNat then .error .reservedOpcode
  else if opcOf c.cmd ≠ 0x5 ∧ addrOf c.cmd ≠ 0 then .error .addressNotZero
  else ofOpcode (opcOf c.cmd).toNat (addrOf c.cmd).toNat c.din

/-- The word `READ` of a register: `(ADDR << 8) | 0x0005` (R330). -/
def readWord (r : Reg) : CmdWord := r.addr.setWidth 16 <<< 8 ||| 0x0005

/-- The command of an instruction (R106). A command other than `PROCESS` ignores `DIN`; the encoder puts zero there
(entry 15). -/
def encode : Instr → Command
  | .nop => ⟨0x0000, 0⟩
  | .init => ⟨0x0001, 0⟩
  | .reset => ⟨0x0002, 0⟩
  | .beginCarrierSync => ⟨0x0003, 0⟩
  | .process din => ⟨0x0004, din⟩
  | .readStatus => ⟨readWord .status, 0⟩
  | .readPllPhase => ⟨readWord .pllPhase, 0⟩
  | .readPllError => ⟨readWord .pllError, 0⟩
  | .readPllStep => ⟨readWord .pllStep, 0⟩
  | .readDecisionPhase => ⟨readWord .decisionPhase, 0⟩
  | .readSignalPower => ⟨readWord .signalPower, 0⟩
  | .readRecoveredI => ⟨readWord .recoveredI, 0⟩
  | .readRecoveredQ => ⟨readWord .recoveredQ, 0⟩
  | .readCorrelation => ⟨readWord .correlation, 0⟩
  | .readAgc => ⟨readWord .agc, 0⟩
  | .readOutSymbol => ⟨readWord .outSymbol, 0⟩
  | .readConfig => ⟨readWord .config, 0⟩

/-- The command whose `nbits` low bits are those of `w` and whose other bits are zero: the command word in bits 15:0, the
data word `DIN` in bits 47:16. -/
def commandOfBits (nbits w : Nat) : Command :=
  let bits := w % 2 ^ nbits
  { cmd := BitVec.ofNat 16 bits, din := BitVec.ofNat 32 (bits / 2 ^ 16) }

/-- The instruction the decoder reads from those bits. -/
def decodeTableWord (nbits w : Nat) : Option Instr :=
  match decode (commandOfBits nbits w) with
  | .ok i => some i
  | .error _ => none

end Sys2Proof
end

