-- ==== Sys2Proof/Machine/Fetch.lean ====
section
/-! DEFINITION. What the port offers next, and what each kind of input makes of the state before a command executes
(R100, R381). -/

namespace Sys2Proof.Machine

/-- A step in which nothing arrives: the core holds its state (R370) and presents no response (entry 2). -/
def idle (s : State) : State := s.withInputs []

/-- Assertion of `rst_n`: ResetState, and no response (R381, entry 4). -/
def powerOnReset (p : Params) (s : State) (rest : List PortEvent) : State :=
  (s.withInputs rest).withCore (resetState p s.core)

/-- Put a command where the port offers its next one. -/
def offerNext (c : Command) (s : State) : State :=
  { s with port := { s.port with inputs := .command c :: s.port.inputs.tail } }

end Sys2Proof.Machine
end

