-- ==== Sys2Proof/Machine/Step.lean ====
section
/-! DEFINITION. One step: the next input of the port, a whole transaction at a time (R88, R100, R395). -/

namespace Sys2Proof.Machine

/-- One step of the machine. A command whose word is illegal raises Illegal, and the machine goes on (R352). -/
def step (s : State) : Host.Outcome State Fault Refusal :=
  match s.port.inputs with
  | [] => .next (idle s)
  | .powerOnReset :: rest => .next (powerOnReset Config.params s rest)
  | .command c :: rest =>
    match decode c with
    | .ok i => exec i (s.withInputs rest)
    | .error _ => .next (raiseIllegal (s.withInputs rest))

/-- `s` with the instruction of those bits offered next at the command port (entry 3). -/
def State.withFetchWord (s : State) (nbits w : Nat) : State := offerNext (commandOfBits nbits w) s

end Sys2Proof.Machine
end

