-- ==== Sys2Proof/Machine/Assembler.lean ====
section
/-! DEFINITION. The assembler of R110-R112: from a line of text to a line of syntax, and from that to the commands the host
presents. Lexical points the spec leaves open are entry 17. -/

namespace Sys2Proof

/-- The data word of a `<sample>` (R110): the nearest binary32 value of a decimal number (overflow rounds to infinity,
entry 17), or the pattern unchanged. -/
def Sample.word : Sample → DataWord
  | .decimal neg mantissa posExp negExp => (F32.nearest neg (mantissa * 10 ^ posExp) (10 ^ negExp)).bits
  | .pattern bits => bits

/-- The register a `<register>` names; nothing for a reserved address (R110, R112). -/
def RegOperand.reg? : RegOperand → Option Reg
  | .name r => some r
  | .address a => Reg.ofNat? a

/-- The commands of one line (R110, R111); nothing for a line that does not assemble (R112). -/
def assemble : AsmLine → Option (List Command)
  | .nop => some [encode .nop]
  | .init => some [encode .init]
  | .reset => some [encode .reset]
  | .beginCarrierSync => some [encode .beginCarrierSync]
  | .process x => some [encode (.process x.word)]
  | .read r =>
    match r.reg? with
    | some reg => some [encode (readInstr reg)]
    | none => none
  | .processRepeat n x => some (List.replicate n (encode (.process x.word)))
  | .reacquire => some [encode .reset, encode .beginCarrierSync]
  | .errorQuery => some [encode .readStatus]

/-- The value of a digit in base 16. -/
def hexDigit? (c : Char) : Option Nat :=
  if '0' ≤ c ∧ c ≤ '9' then some (c.toNat - 48)
  else if 'A' ≤ c ∧ c ≤ 'F' then some (c.toNat - 55)
  else if 'a' ≤ c ∧ c ≤ 'f' then some (c.toNat - 87)
  else none

/-- Is this a decimal digit? -/
def isDecDigit (c : Char) : Bool := decide ('0' ≤ c ∧ c ≤ '9')

/-- The number that a non-empty list of digits writes in a base. -/
def numberOf (base : Nat) : List Char → Option Nat
  | [] => none
  | cs =>
    cs.foldl
      (fun acc c =>
        match acc, hexDigit? c with
        | some n, some d => if d < base then some (n * base + d) else none
        | _, _ => none)
      (some 0)

/-- Split an optional sign off. -/
def splitSign : List Char → Bool × List Char
  | '-' :: cs => (true, cs)
  | '+' :: cs => (false, cs)
  | cs => (false, cs)

/-- A decimal number: sign, digits with an optional point, optional exponent (R110, entry 17). -/
def parseDecimal (cs : List Char) : Option Sample :=
  let (neg, body) := splitSign cs
  let whole := body.takeWhile isDecDigit
  let afterWhole := body.dropWhile isDecDigit
  let afterPoint := match afterWhole with
    | '.' :: t => t
    | _ => []
  let frac := afterPoint.takeWhile isDecDigit
  let expo := match afterWhole with
    | '.' :: t => t.dropWhile isDecDigit
    | t => t
  match numberOf 10 (whole ++ frac), expo with
  | some m, [] => some (.decimal neg m 0 frac.length)
  | some m, mark :: t =>
    let (eneg, digits) := splitSign t
    match numberOf 10 digits with
    | some e =>
      if mark = 'e' ∨ mark = 'E' then
        some (if eneg then .decimal neg m 0 (frac.length + e) else .decimal neg m e frac.length)
      else none
    | none => none
  | none, _ => none

/-- A `<sample>` (R110): `0x` and eight hexadecimal digits, or a decimal number. -/
def parseSample : List Char → Option Sample
  | '0' :: 'x' :: digits =>
    if digits.length = 8 then
      match numberOf 16 digits with
      | some n => some (.pattern (BitVec.ofNat 32 n))
      | none => none
    else none
  | cs => parseDecimal cs

/-- The names of the registers (R106). -/
def regNames : List (List Char × Reg) :=
  [("STATUS".toList, .status), ("PLL_PHASE".toList, .pllPhase), ("PLL_ERROR".toList, .pllError),
   ("PLL_STEP".toList, .pllStep), ("DECISION_PHASE".toList, .decisionPhase), ("SIGNAL_POWER".toList, .signalPower),
   ("RECOVERED_I".toList, .recoveredI), ("RECOVERED_Q".toList, .recoveredQ), ("CORRELATION".toList, .correlation),
   ("AGC".toList, .agc), ("OUT_SYMBOL".toList, .outSymbol), ("CONFIG".toList, .config)]

/-- A `<register>` (R110): a name, or `0x` and hexadecimal digits. -/
def parseReg (cs : List Char) : Option RegOperand :=
  match regNames.lookup cs with
  | some r => some (.name r)
  | none =>
    match cs with
    | '0' :: 'x' :: digits =>
      match numberOf 16 digits with
      | some a => some (.address a)
      | none => none
    | _ => none

/-- The words of a line, up to its comment: blanks separate them, and a comma is a word of its own. -/
def tokens : List Char → List (List Char)
  | [] => []
  | c :: cs =>
    if c = ';' then []
    else if c = ' ' ∨ c = '\t' then [] :: tokens cs
    else if c = ',' then [] :: [c] :: [] :: tokens cs
    else
      match tokens cs with
      | [] => [[c]]
      | w :: ws => (c :: w) :: ws

/-- One line of text (R110, R111): `some none` for a line with no command, `none` for a line that does not assemble. -/
def parseLine (line : List Char) : Option (Option AsmLine) :=
  match (tokens line).filter (fun w => !w.isEmpty) with
  | [] => some none
  | [w] =>
    if w = "NOP".toList then some (some .nop)
    else if w = "INIT".toList then some (some .init)
    else if w = "RESET".toList then some (some .reset)
    else if w = "BEGIN_CARRIER_SYNC".toList ∨ w = "BCS".toList then some (some .beginCarrierSync)
    else if w = "REACQUIRE".toList then some (some .reacquire)
    else if w = "ERROR?".toList then some (some .errorQuery)
    else none
  | [w, a] =>
    if w = "PROCESS".toList then
      match parseSample a with
      | some x => some (some (.process x))
      | none => none
    else if w = "READ".toList then
      match parseReg a with
      | some r => some (some (.read r))
      | none => none
    else none
  | [w, n, comma, a] =>
    if w = "PROCESS.REPEAT".toList ∧ comma = [','] then
      match numberOf 10 n, parseSample a with
      | some k, some x => some (some (.processRepeat k x))
      | _, _ => none
    else none
  | _ => none

/-- A program: its lines, one command or pseudo-instruction each, in order (R110). -/
def assembleProgram : List (List Char) → Option (List Command)
  | [] => some []
  | line :: rest =>
    match parseLine line, assembleProgram rest with
    | some none, some cs => some cs
    | some (some l), some cs =>
      match assemble l with
      | some c => some (c ++ cs)
      | none => none
    | _, _ => none

end Sys2Proof
end

