-- ==== Sys2Proof/Safety.lean ====
section
/-! DEFINITION. The invariant of the core, from the legal values the spec gives its state elements (R40-R45, R166, R167,
R213, R275), and what it means for an instruction to complete. -/

namespace Sys2Proof.Machine

/-- `a ∈ [0, 1)`, by the comparisons of R21 (false on a NaN). -/
def inUnit (a : F32) : Bool := a.ge F32.zero && a.lt one

/-- `a ∈ [0, 1]`. -/
def inUnitClosed (a : F32) : Bool := a.ge F32.zero && a.le one

/-- `a ∈ [-W, +W]`. -/
def inWindup (a : F32) : Bool := a.ge windupLimitNeg && a.le windupLimit

/-- What every reachable core state satisfies, for an instance with parameters `p`. The ranges of the PLL are those of
R41: a NaN is what an error of NaN leaves there (R161, I5). -/
structure CoreInv (p : Params) (c : CoreState) : Prop where
  /-- `v_hist` is a window of `N` values (R43). -/
  vHist_length : c.hold.vHist.length = p.n
  /-- `pll_phase` (R41, R166). -/
  phase_range : c.pll.phase.isNaN = true ∨ inUnit c.pll.phase = true
  /-- `pll_prev_phase` (R41, R166). -/
  prevPhase_range : c.pll.prevPhase.isNaN = true ∨ inUnit c.pll.prevPhase = true
  /-- `pll_step` (R41, R167). -/
  step_range : c.pll.step.isNaN = true ∨ inUnitClosed c.pll.step = true
  /-- `pll_acc` (R41, R167). -/
  acc_range : c.pll.acc.isNaN = true ∨ inWindup c.pll.acc = true
  /-- `cor_phase` holds values of `pll_phase` (R44). -/
  corPhase_range : ∀ x ∈ c.cor.phase.toList, x.isNaN = true ∨ inUnit x = true
  /-- `cor_max` is `+0.0` or positive: never `-0.0`, never NaN (R44, R213, R217). -/
  corMax_nonneg : c.cor.max.isNaN = false ∧ c.cor.max.sign = false
  /-- `cor_peaks` is 0 to 4 (R44). -/
  corPeaks_le : c.cor.peaks.toNat ≤ 4
  /-- `decision_phase` is exactly `+0.0` or `0.5` (R45). -/
  decisionPhase_two : c.seq.decisionPhase = F32.zero ∨ c.seq.decisionPhase = half
  /-- A sample that emits has handled a trigger (R275, R295). -/
  emit_decide : c.seq.emit = true → c.seq.decide = true
  /-- In `ERROR` both flags are 0 (R275). -/
  error_flags : c.seq.state = .error → c.seq.decide = false ∧ c.seq.emit = false

/-- The invariant of the machine: that of its core. -/
def State.Inv (s : State) : Prop := CoreInv Config.params s.core

/-- The instruction takes a next state here: no fault, no refusal. -/
def Completes (i : Instr) (s : State) : Prop := ∃ t, exec i s = .next t

/-- Only the port changed: the core state is the same, the inputs are the same, and the response is this one. -/
def AnswersOnly (s t : State) (code : RespCode) (dout : DataWord) : Prop :=
  t.core = s.core ∧ t.port.inputs = s.port.inputs ∧ t.port.response = some ⟨code, dout⟩

end Sys2Proof.Machine
end

