-- ==== Sys2Proof/Certificates/Slice0/Obligations.lean ====
section
/-! DEFINITION. The statements for the provers. `R<n>` are the numbered rules of spec/. -/

open Sys2Proof Sys2Proof.Machine

/-! ### Encoding -/

/-- Decoding and encoding agree in both directions: a command decodes to an instruction exactly when its command word is
that instruction's word, and, for `PROCESS`, its data word is the operand (R106, R107). -/
def Obligations.DecodeAgreesWithEncode : Prop :=
  ∀ (c : Command) (i : Instr),
    decode c = .ok i ↔ c.cmd = (encode i).cmd ∧ (∀ din, i = .process din → c.din = din)

/-- Decoding what the encoder writes gives the instruction back, with every operand. -/
def Obligations.DecodeOfEncodeIsIdentity : Prop :=
  ∀ i : Instr, i.wellFormed = true → decode (encode i) = .ok i

/-- R108: the illegal words are those with a reserved operation code, a reserved bit set, an address outside `READ`, or a
reserved register address; they raise Illegal; and exactly 17 of the 65 536 words are legal, whatever `DIN` is. -/
def Obligations.SeventeenWordsAreLegal : Prop :=
  (∀ c : Command,
    (∃ e, decode c = .error e) ↔
      (6 ≤ c.cmd.toNat % 16 ∨ c.cmd.toNat / 16 % 16 ≠ 0 ∨ c.cmd.toNat / 4096 ≠ 0 ∨
        (c.cmd.toNat / 256 % 16 ≠ 0 ∧ c.cmd.toNat % 16 ≠ 5) ∨
        (c.cmd.toNat % 16 = 5 ∧ 12 ≤ c.cmd.toNat / 256 % 16))) ∧
  (∀ (s : State) (c : Command) (rest : List PortEvent) (e : IllegalWord),
    s.port.inputs = .command c :: rest → decode c = .error e →
      step s = .next { core := s.core, port := { inputs := rest, response := some ⟨.illegal, 0⟩ } }) ∧
  (∀ din : DataWord,
    ((List.range 65536).filter fun w => (decode ⟨BitVec.ofNat 16 w, din⟩).toOption.isSome).length = 17)

/-- Words written out from the encoding (R101, R106, R112) decode to what they stand for, or to an error (R107, R108). Which
test the error names is the model's choice, entry 14: the core keeps no sub-code (R351). -/
def Obligations.SpecWordsDecode : Prop :=
  decode ⟨0x0004, 0xBE800000⟩ = .ok (.process 0xBE800000) ∧
  decode ⟨0x0905, 0⟩ = .ok .readAgc ∧
  decode ⟨0x0003, 0xFFFFFFFF⟩ = .ok .beginCarrierSync ∧
  decode ⟨0x0B05, 0⟩ = .ok .readConfig ∧
  decode ⟨0x0C05, 0⟩ = .error .reservedRegister ∧
  decode ⟨0x0104, 0⟩ = .error .addressNotZero ∧
  decode ⟨0x0006, 0⟩ = .error .reservedOpcode ∧
  decode ⟨0x1005, 0⟩ = .error .reservedField

/-- A line assembles exactly when it is well formed, and then to commands with legal words only (R110-R112). -/
def Obligations.AssemblerEmitsLegalCommandsOnly : Prop :=
  ∀ l : AsmLine,
    ((assemble l).isSome = l.wellFormed) ∧
    (∀ cs, assemble l = some cs → ∀ c ∈ cs, c.cmd ∈ legalWords)

/-- R111: the three pseudo-instructions expand to `n` copies of `PROCESS <sample>`, to `RESET` then `BEGIN_CARRIER_SYNC`,
and to `READ STATUS`, whose bit 3 is the answer. -/
def Obligations.PseudoInstructionsExpand : Prop :=
  (∀ (n : Nat) (x : Sample), ∃ c,
    assemble (.process x) = some [c] ∧ assemble (.processRepeat n x) = some (List.replicate n c)) ∧
  (∃ c1 c2, assemble .reset = some [c1] ∧ assemble .beginCarrierSync = some [c2] ∧
    assemble .reacquire = some [c1, c2]) ∧
  (∃ c, assemble (.read (.name .status)) = some [c] ∧ assemble .errorQuery = some [c]) ∧
  (∀ s : State, ∃ w,
    exec .readStatus s = .next { s with port := { s.port with response := some ⟨.done, w⟩ } } ∧
      w.getLsbD 3 = decide (s.core.seq.state = .error))

/-! ### The port -/

/-- A step runs the decoded instruction: it takes the command off the port, withdraws the response of the command before
it, and is `exec` of the instruction (R88, R100; that a step is one whole transaction, and that a response is withdrawn, is
the model's choice, entries 1 and 16). -/
def Obligations.StepRunsTheDecodedInstruction : Prop :=
  ∀ (s : State) (c : Command) (rest : List PortEvent) (i : Instr),
    s.port.inputs = .command c :: rest → decode c = .ok i →
      step s = exec i { core := s.core, port := { inputs := rest, response := none } }

/-- R352: an illegal word is answered `(ILLEGAL, 0)`, changes no state element, and the next command executes
normally. -/
def Obligations.IllegalWordChangesNothing : Prop :=
  ∀ (s : State) (c : Command) (rest : List PortEvent) (e : IllegalWord),
    s.port.inputs = .command c :: rest → decode c = .error e →
      ∃ t, step s = .next t ∧ t.core = s.core ∧ t.port.inputs = rest ∧ t.port.response = some ⟨.illegal, 0x00000000⟩ ∧
        ∀ c2 rest2 i, rest = .command c2 :: rest2 → decode c2 = .ok i →
          step t = exec i { core := s.core, port := { inputs := rest2, response := none } }

/-- Every command is answered exactly once, in order, with DONE or with ILLEGAL as its word is legal or not, and the
commands after it are left alone (R100, R104, R107). -/
def Obligations.EveryCommandIsAnsweredOnce : Prop :=
  ∀ (s t : State) (c : Command) (rest : List PortEvent),
    s.port.inputs = .command c :: rest → step s = .next t →
      t.port.inputs = rest ∧
      ∃ r, t.port.response = some r ∧
        (r.resp = .illegal ↔ c.cmd ∉ legalWords) ∧
        (r.resp = .illegal → r.dout = 0 ∧ t.core = s.core)

/-- Power-on reset performs ResetState and gives no response, from any state; it leaves the core exactly as `INIT` does
(R381). That it arrives as an input between commands is the model's choice: entry 4. -/
def Obligations.PowerOnResetIsInitWithoutResponse : Prop :=
  ∀ (s s' : State) (rest : List PortEvent), s.port.inputs = .powerOnReset :: rest →
    ∃ t, step s = .next t ∧ t.port = { inputs := rest, response := none } ∧ t.core = State.reset.core ∧
      ∀ t', exec .init s' = .next t' → t'.core = t.core

/-- With nothing offered the core holds its state (R370), and no response is presented (the model's choice: entry 2). -/
def Obligations.IdleStepHoldsTheCore : Prop :=
  ∀ s : State, s.port.inputs = [] →
    step s = .next { core := s.core, port := { inputs := [], response := none } }

/-! ### Commands -/

/-- R324: `NOP`, the word 0x0000 with any `DIN`, answers `(DONE, 0)` and no state element changes. -/
def Obligations.NopChangesNothing : Prop :=
  (∀ din : DataWord, decode ⟨0x0000, din⟩ = .ok .nop) ∧
  ∀ s : State, exec .nop s = .next { core := s.core, port := { s.port with response := some ⟨.done, 0⟩ } }

/-- R380, R321: `INIT`, the word 0x0001 with any `DIN`, completes in every state and leaves every element of R40-R45 zero,
in `WAIT_TO_SETTLE`. -/
def Obligations.InitZeroesEveryElement : Prop :=
  (∀ din : DataWord, decode ⟨0x0001, din⟩ = .ok .init) ∧
  ∀ s : State, ∃ t, exec .init s = .next t ∧
    t.port = { s.port with response := some ⟨.done, 0⟩ } ∧
    t.core.agc = { hpfLp := ⟨0⟩, level := ⟨0⟩, gain := ⟨0⟩ } ∧
    t.core.pll = { phase := ⟨0⟩, prevPhase := ⟨0⟩, step := ⟨0⟩, acc := ⟨0⟩, error := ⟨0⟩ } ∧
    (∀ b ∈ [t.core.crf.sec0, t.core.crf.sec1],
      (∀ v ∈ b.x.toList, v = ⟨⟨0⟩, ⟨0⟩⟩) ∧ (∀ v ∈ b.y.toList, v = ⟨⟨0⟩, ⟨0⟩⟩)) ∧
    t.core.hold.vHist.length = Config.params.n ∧ (∀ v ∈ t.core.hold.vHist, v = ⟨⟨0⟩, ⟨0⟩⟩) ∧
    t.core.hold.recovered = ⟨⟨0⟩, ⟨0⟩⟩ ∧
    (∀ v ∈ t.core.cor.v.toList, v = ⟨⟨0⟩, ⟨0⟩⟩) ∧ (∀ a ∈ t.core.cor.phase.toList, a = ⟨0⟩) ∧
    (∀ a ∈ t.core.cor.hist.toList, a = ⟨0⟩) ∧ t.core.cor.max = ⟨0⟩ ∧ (∀ a ∈ t.core.cor.dec.toList, a = ⟨0⟩) ∧
    t.core.cor.peaks = 0 ∧
    t.core.seq =
      { state := .waitToSettle, skippedSamples := 0, carrierSyncCount := 0, decisionPhase := ⟨0⟩
        decide := false, emit := false, outSymbol := 0 }

/-- R323: `RESET`, the word 0x0002 with any `DIN`, completes, with the effect and the response of `INIT`. -/
def Obligations.ResetIsAliasOfInit : Prop :=
  (∀ din : DataWord, decode ⟨0x0002, din⟩ = .ok .reset) ∧
  ∀ s : State, ∃ t, exec .reset s = .next t ∧ exec .init s = .next t ∧ t.core = State.reset.core ∧
    t.port = { s.port with response := some ⟨.done, 0⟩ }

/-- R322: `BEGIN_CARRIER_SYNC`, the word 0x0003 with any `DIN`, sets `state` and `carrier_sync_count`, in every state, and
changes nothing else. -/
def Obligations.BeginCarrierSyncSetsTwoRegisters : Prop :=
  (∀ din : DataWord, decode ⟨0x0003, din⟩ = .ok .beginCarrierSync) ∧
  ∀ s : State, exec .beginCarrierSync s = .next
    { core := { s.core with seq := { s.core.seq with state := .carrierSync, carrierSyncCount := 0 } }
      port := { s.port with response := some ⟨.done, 0⟩ } }

/-- R330, R332: `READ` of each register, the word `(ADDR << 8) | 0x0005` with any `DIN`, completes in every state, answers
the register's word, and changes no state element; of a reserved address it raises Illegal. -/
def Obligations.ReadAnswersTheRegister : Prop :=
  ∀ (s : State) (din : DataWord),
    let answers : Instr → DataWord → Prop := fun i w =>
      exec i s = .next { core := s.core, port := { s.port with response := some ⟨.done, w⟩ } }
    let r := s.core.seq
    (decode ⟨0x0005, din⟩ = .ok .readStatus ∧ answers .readStatus
      ((if r.emit then 1 else 0) <<< 5 ||| (if r.decide then 1 else 0) <<< 4
        ||| (if r.state = .error then 1 else 0) <<< 3 ||| r.state.code.setWidth 32)) ∧
    (decode ⟨0x0105, din⟩ = .ok .readPllPhase ∧ answers .readPllPhase s.core.pll.phase.bits) ∧
    (decode ⟨0x0205, din⟩ = .ok .readPllError ∧ answers .readPllError s.core.pll.error.bits) ∧
    (decode ⟨0x0305, din⟩ = .ok .readPllStep ∧ answers .readPllStep s.core.pll.step.bits) ∧
    (decode ⟨0x0405, din⟩ = .ok .readDecisionPhase ∧ answers .readDecisionPhase r.decisionPhase.bits) ∧
    (decode ⟨0x0505, din⟩ = .ok .readSignalPower ∧ answers .readSignalPower (Config.signalPower s.core).bits) ∧
    (decode ⟨0x0605, din⟩ = .ok .readRecoveredI ∧ answers .readRecoveredI s.core.hold.recovered.i.bits) ∧
    (decode ⟨0x0705, din⟩ = .ok .readRecoveredQ ∧ answers .readRecoveredQ s.core.hold.recovered.q.bits) ∧
    (decode ⟨0x0805, din⟩ = .ok .readCorrelation ∧ answers .readCorrelation s.core.cor.hist[0].bits) ∧
    (decode ⟨0x0905, din⟩ = .ok .readAgc ∧ answers .readAgc s.core.agc.gain.bits) ∧
    (decode ⟨0x0A05, din⟩ = .ok .readOutSymbol ∧ answers .readOutSymbol (r.outSymbol.setWidth 32)) ∧
    (decode ⟨0x0B05, din⟩ = .ok .readConfig ∧ answers .readConfig (BitVec.ofNat 32 Config.params.n)) ∧
    (∀ addr : BitVec 4, 0xC ≤ addr.toNat →
      (∃ e, decode ⟨addr.setWidth 16 <<< 8 ||| 0x0005, din⟩ = .error e) ∧
      ∀ rest, s.port.inputs = .command ⟨addr.setWidth 16 <<< 8 ||| 0x0005, din⟩ :: rest →
        step s = .next { core := s.core, port := { inputs := rest, response := some ⟨.illegal, 0⟩ } })

/-- The fields of `STATUS` (R70): STATE, ERR, DECIDE, EMIT, and reserved bits that read zero. -/
def Obligations.StatusFields : Prop :=
  ∀ s : State, ∃ w,
    exec .readStatus s = .next { s with port := { s.port with response := some ⟨.done, w⟩ } } ∧
    w.extractLsb' 0 3 = s.core.seq.state.code ∧
    w.getLsbD 3 = decide (s.core.seq.state = .error) ∧
    w.getLsbD 4 = s.core.seq.decide ∧
    w.getLsbD 5 = s.core.seq.emit ∧
    ∀ k, 6 ≤ k → w.getLsbD k = false

/-- `READ` has no side effect and is idempotent: an instruction whose command leaves the operation code of `READ` changes
no state element, and running it again answers the same (R84). -/
def Obligations.ReadHasNoSideEffect : Prop :=
  ∀ (i : Instr) (s t : State), (encode i).cmd.toNat % 16 = 5 → exec i s = .next t →
    t.core = s.core ∧ t.port.inputs = s.port.inputs ∧ exec i t = .next t

/-! ### PROCESS, state by state -/

/-- Outside `ERROR` every sample updates the two filters of the front end, whatever else it does: `hpf_lp` first, then
`level` from the magnitude of the result that uses the updated `hpf_lp` (R130, R131). -/
def Obligations.FiltersRunOnEverySampleOutsideError : Prop :=
  ∀ (din : DataWord) (s t : State), exec (.process din) s = .next t → s.core.seq.state ≠ .error →
    let p := Config.params
    let a := s.core.agc
    let x := F32.ofBits din
    let lp := a.hpfLp.add (p.alphaHpf.mul (x.sub a.hpfLp))
    t.core.agc.hpfLp = lp ∧
      t.core.agc.level = a.level.add (p.alphaLvl.mul ((x.sub lp).abs.abs.sub a.level))

/-- In `WAIT_TO_SETTLE` a sample updates the two filters of the front end and the count, and goes to `SENSE_GAIN` when the
count has reached `kSettlingTime` and the level is above the threshold (R276, R130, R131, R280, R281). -/
def Obligations.WaitToSettleSample : Prop :=
  ∀ (din : DataWord) (s : State), s.core.seq.state = .waitToSettle →
    let p := Config.params
    let a := s.core.agc
    let x := F32.ofBits din
    let lp := a.hpfLp.add (p.alphaHpf.mul (x.sub a.hpfLp))
    let y := x.sub lp
    let lvl := a.level.add (p.alphaLvl.mul (y.abs.abs.sub a.level))
    let n := min (s.core.seq.skippedSamples.toNat + 1) (2 ^ 32 - 1)
    let seq := { s.core.seq with decide := false, emit := false }
    exec (.process din) s = .next
      { core :=
          { s.core with
            agc := { hpfLp := lp, level := lvl, gain := a.gain }
            seq :=
              if p.sampleRate ≤ 4 * n ∧ levelThreshold.lt lvl = true then
                { seq with state := .senseGain, skippedSamples := 0 }
              else { seq with skippedSamples := BitVec.ofNat 32 n } }
        port := { s.port with response := some ⟨.done, s.core.seq.outSymbol.setWidth 32 <<< 4⟩ } }

/-- In `SENSE_GAIN` a sample whose level is not above the threshold goes back to `WAIT_TO_SETTLE`; otherwise the count
advances, and when it has reached `kSettlingTime` the initial gain is set and `CARRIER_SYNC` entered (R276, R282, R134). -/
def Obligations.SenseGainSample : Prop :=
  ∀ (din : DataWord) (s : State), s.core.seq.state = .senseGain →
    let p := Config.params
    let a := (frontEnd p (F32.ofBits din) s.core.agc).2
    let n := min (s.core.seq.skippedSamples.toNat + 1) (2 ^ 32 - 1)
    let seq := { s.core.seq with decide := false, emit := false }
    exec (.process din) s = .next
      { core :=
          if levelThreshold.lt a.level = false then
            { s.core with agc := a, seq := { seq with state := .waitToSettle, skippedSamples := 0 } }
          else if p.sampleRate ≤ 4 * n then
            { s.core with
              agc := { a with gain := kSense.div a.level }
              seq := { seq with state := .carrierSync, carrierSyncCount := 0, skippedSamples := 0 } }
          else { s.core with agc := a, seq := { seq with skippedSamples := BitVec.ofNat 32 n } }
        port := { s.port with response := some ⟨.done, s.core.seq.outSymbol.setWidth 32 <<< 4⟩ } }

/-- In `CARRIER_SYNC` a sample is demodulated: the filter, the history and `recovered` take the new baseband vector, the
PLL takes the carrier-sync error and steps, and on a `0`-trigger the decided symbol is counted (R285, R291, R296). -/
def Obligations.CarrierSyncSample : Prop :=
  ∀ (din : DataWord) (s : State), s.core.seq.state = .carrierSync →
    let p := Config.params
    let fe := frontEnd p (F32.ofBits din) s.core.agc
    let bb := crf p (mix fe.1 (localOsc p s.core.pll.phase)) s.core.crf
    let v := bb.1
    let n := min (s.core.seq.carrierSyncCount.toNat + 1) (2 ^ 32 - 1)
    let seq := { s.core.seq with decide := false, emit := false }
    let fired := phaseTrigger F32.zero s.core.pll ≠ none
    exec (.process din) s = .next
      { core :=
          { agc := if fired ∧ decideSymbol v = 0xF then agcProcess v carrierSyncVector agcFast fe.2 else fe.2
            pll := ncoStep (processError p (v.cross carrierSyncVector) s.core.pll)
            crf := bb.2
            hold := { vHist := historyWrite s.core.hold.vHist v, recovered := v }
            cor := s.core.cor
            seq :=
              if fired then
                if decideSymbol v = 0xF then
                  { seq with
                    decide := true, carrierSyncCount := BitVec.ofNat 32 n
                    state := if (p.symbolRate : Nat) ≤ 40 * n then .carrierLock else .carrierSync }
                else { seq with decide := true, carrierSyncCount := 0 }
              else seq }
        port := { s.port with response := some ⟨.done, s.core.seq.outSymbol.setWidth 32 <<< 4⟩ } }

/-- In `CARRIER_LOCK` a sample is demodulated; on a selected trigger the gain is updated, the correlator is fed `(φ, v)`
with its result discarded, and a symbol other than the sync symbol leads to `ALIGN` (R285, R286, R292, R296). -/
def Obligations.CarrierLockSample : Prop :=
  ∀ (din : DataWord) (s : State), s.core.seq.state = .carrierLock →
    let p := Config.params
    let fe := frontEnd p (F32.ofBits din) s.core.agc
    let bb := crf p (mix fe.1 (localOsc p s.core.pll.phase)) s.core.crf
    let v := bb.1
    let seq := { s.core.seq with decide := false, emit := false }
    let fired := phaseTrigger F32.zero s.core.pll ≠ none ∨ phaseTrigger half s.core.pll ≠ none
    exec (.process din) s = .next
      { core :=
          { agc := if fired then agcProcess v carrierSyncVector agcFast fe.2 else fe.2
            pll := ncoStep (processError p (v.cross (quantizeV v)) s.core.pll)
            crf := bb.2
            hold := { vHist := historyWrite s.core.hold.vHist v, recovered := v }
            cor := if fired then (correlate p s.core.pll.phase v s.core.cor).2 else s.core.cor
            seq :=
              if fired then
                if decideSymbol v = 0xF then { seq with decide := true }
                else { seq with decide := true, state := .align, decisionPhase := F32.zero }
              else seq }
        port := { s.port with response := some ⟨.done, s.core.seq.outSymbol.setWidth 32 <<< 4⟩ } }

/-- In `ALIGN` a sample is demodulated; on a selected trigger with delay `d` the correlator is fed
`(φ, SampleSymbol(d))`, the gain is not updated, and a result of the correlator becomes the decision phase and leads to
`OK` (R285, R286, R293, R296). `SampleSymbol` reads the history with this sample's vector in it; that the
history is full and the phases are in range is the premise's part. -/
def Obligations.AlignSample : Prop :=
  ∀ (din : DataWord) (s : State), s.core.seq.state = .align → s.Inv →
    let p := Config.params
    let fe := frontEnd p (F32.ofBits din) s.core.agc
    let bb := crf p (mix fe.1 (localOsc p s.core.pll.phase)) s.core.crf
    let v := bb.1
    let vHist := historyWrite s.core.hold.vHist v
    let seq := { s.core.seq with decide := false, emit := false }
    let pll := ncoStep (processError p (v.cross (quantizeV v)) s.core.pll)
    let hold : HoldState := { vHist := vHist, recovered := v }
    let response := some (⟨.done, s.core.seq.outSymbol.setWidth 32 <<< 4⟩ : Response)
    match selectTrigger s.core.pll with
    | none =>
      exec (.process din) s = .next
        { core := { agc := fe.2, pll := pll, crf := bb.2, hold := hold, cor := s.core.cor, seq := seq }
          port := { s.port with response := response } }
    | some d =>
      ∃ u, sampleSymbol p d vHist = some u ∧
        exec (.process din) s = .next
          { core :=
              { agc := fe.2, pll := pll, crf := bb.2, hold := hold
                cor := (correlate p s.core.pll.phase u s.core.cor).2
                seq :=
                  match (correlate p s.core.pll.phase u s.core.cor).1 with
                  | none => { seq with decide := true }
                  | some r => { seq with decide := true, decisionPhase := r, state := .ok } }
            port := { s.port with response := response } }

/-- In `OK` a level below the threshold ends the sample in `ERROR`; otherwise the sample is demodulated with the gated
error, and a trigger at the decision phase emits the decided symbol and updates the gain slowly (R276, R283, R285,
R294-R296). -/
def Obligations.OkSample : Prop :=
  ∀ (din : DataWord) (s : State), s.core.seq.state = .ok →
    let p := Config.params
    let fe := frontEnd p (F32.ofBits din) s.core.agc
    let bb := crf p (mix fe.1 (localOsc p s.core.pll.phase)) s.core.crf
    let v := bb.1
    let dp := s.core.seq.decisionPhase
    let phi := s.core.pll.phase
    let seq := { s.core.seq with decide := false, emit := false }
    let e := ((v.cross (quantizeV v)).mul half).mul (one.add (p.cosCyc (phi.sub dp).wrap))
    let demod := { s.core with
      pll := ncoStep (processError p e s.core.pll)
      crf := bb.2
      hold := { vHist := historyWrite s.core.hold.vHist v, recovered := v } }
    exec (.process din) s = .next
      (if fe.2.level.lt levelThreshold = true then
        { core := { s.core with agc := fe.2, seq := { seq with state := .error } }
          port := { s.port with response := some ⟨.done, s.core.seq.outSymbol.setWidth 32 <<< 4⟩ } }
      else if phaseTrigger dp s.core.pll = none then
        { core := { demod with agc := fe.2, seq := seq }
          port := { s.port with response := some ⟨.done, s.core.seq.outSymbol.setWidth 32 <<< 4⟩ } }
      else
        { core :=
            { demod with
              agc := agcProcess v (quantizeV v) agcSlow fe.2
              seq := { seq with decide := true, emit := true, outSymbol := decideSymbol v } }
          port :=
            { s.port with response := some ⟨.done, (decideSymbol v).setWidth 32 <<< 4 ||| 1⟩ } })

/-- R297: in `ERROR` a `PROCESS` completes, changes no state element and returns `emit = 0`; `READ STATUS` shows
`STATE = 6`, `ERR = 1`; and the state is left only by `INIT`, `RESET` and `BEGIN_CARRIER_SYNC`. The invariant gives
`emit = 0` (R275). -/
def Obligations.ErrorStateHoldsUntilReset : Prop :=
  ∀ s : State, s.Inv → s.core.seq.state = .error →
    (∀ din : DataWord, exec (.process din) s = .next
      { core := s.core, port := { s.port with response := some ⟨.done, s.core.seq.outSymbol.setWidth 32 <<< 4⟩ } }) ∧
    (exec .readStatus s = .next { core := s.core, port := { s.port with response := some ⟨.done, 0x0000000E⟩ } }) ∧
    (∀ i t, exec i s = .next t → (t.core.seq.state ≠ .error ↔ i = .init ∨ i = .reset ∨ i = .beginCarrierSync))

/-- `PROCESS` completes in every state that satisfies the invariant, for every data word, and answers DONE with
`out_symbol` and `emit` as it leaves them (R320, R340). -/
def Obligations.ProcessCompletes : Prop :=
  ∀ (din : DataWord) (s : State), s.Inv →
    ∃ t, exec (.process din) s = .next t ∧ t.port.inputs = s.port.inputs ∧
      t.port.response =
        some ⟨.done, t.core.seq.outSymbol.setWidth 32 <<< 4 ||| (if t.core.seq.emit then 1 else 0)⟩

/-- Every change of the demodulator state that a `PROCESS` makes is one of the seven rows of the table, under the
row's condition and with the row's side effects (R271). `level` is the level the sample has written. -/
def Obligations.TransitionTable : Prop :=
  ∀ (din : DataWord) (s t : State), exec (.process din) s = .next t →
    let p := Config.params
    let level := (frontEnd p (F32.ofBits din) s.core.agc).2.level
    let v := t.core.hold.recovered
    let skipped := (satIncr s.core.seq.skippedSamples).toNat
    let count := (satIncr s.core.seq.carrierSyncCount).toNat
    t.core.seq.state = s.core.seq.state ∨
    (s.core.seq.state = .waitToSettle ∧ t.core.seq.state = .senseGain ∧ p.sampleRate ≤ 4 * skipped ∧
      levelThreshold.lt level = true ∧ t.core.seq.skippedSamples = 0) ∨
    (s.core.seq.state = .senseGain ∧ t.core.seq.state = .waitToSettle ∧ levelThreshold.lt level = false ∧
      t.core.seq.skippedSamples = 0) ∨
    (s.core.seq.state = .senseGain ∧ t.core.seq.state = .carrierSync ∧ levelThreshold.lt level = true ∧
      p.sampleRate ≤ 4 * skipped ∧ t.core.agc.gain = kSense.div level ∧ t.core.seq.skippedSamples = 0 ∧
      t.core.seq.carrierSyncCount = 0) ∨
    (s.core.seq.state = .carrierSync ∧ t.core.seq.state = .carrierLock ∧
      (∃ d, phaseTrigger F32.zero s.core.pll = some d) ∧ decideSymbol v = 0xF ∧ (p.symbolRate : Nat) ≤ 40 * count ∧
      t.core.agc.gain = s.core.agc.gain.sub (agcFast.mul (v.norm2.sub carrierSyncVector.norm2))) ∨
    (s.core.seq.state = .carrierLock ∧ t.core.seq.state = .align ∧
      (∃ d, selectTrigger s.core.pll = some d) ∧ decideSymbol v ≠ 0xF ∧ t.core.seq.decisionPhase = F32.zero) ∨
    (s.core.seq.state = .align ∧ t.core.seq.state = .ok ∧ (∃ d, selectTrigger s.core.pll = some d) ∧
      (∃ u, (correlate p s.core.pll.phase u s.core.cor).1 = some t.core.seq.decisionPhase ∧
        (correlate p s.core.pll.phase u s.core.cor).2 = t.core.cor)) ∨
    (s.core.seq.state = .ok ∧ t.core.seq.state = .error ∧ level.lt levelThreshold = true)

/-- The whole machine's frame for the demodulator state: `PROCESS` moves along R271's table only, `INIT` and `RESET` lead
to `WAIT_TO_SETTLE`, `BEGIN_CARRIER_SYNC` to `CARRIER_SYNC`, and no other instruction changes the state (R270). -/
def Obligations.StateChangesOnlyByTableAndCommands : Prop :=
  ∀ (i : Instr) (s t : State), exec i s = .next t → t.core.seq.state ≠ s.core.seq.state →
    (∃ din, i = .process din ∧
      (s.core.seq.state, t.core.seq.state) ∈
        ([(.waitToSettle, .senseGain), (.senseGain, .waitToSettle), (.senseGain, .carrierSync),
          (.carrierSync, .carrierLock), (.carrierLock, .align), (.align, .ok), (.ok, .error)] :
          List (SeqState × SeqState))) ∨
    ((i = .init ∨ i = .reset) ∧ t.core.seq.state = .waitToSettle) ∨
    (i = .beginCarrierSync ∧ t.core.seq.state = .carrierSync)

/-- A symbol is emitted only in `OK`, on a trigger at the decision phase, and it is the decision on the sample's own
baseband vector; without an emission `out_symbol` holds its value (R275, R295). -/
def Obligations.EmissionOnlyInOkOnTrigger : Prop :=
  ∀ (din : DataWord) (s t : State), exec (.process din) s = .next t → s.core.seq.state ≠ .error →
    (t.core.seq.emit = true →
      s.core.seq.state = .ok ∧ t.core.seq.state = .ok ∧ t.core.seq.decide = true ∧
      (∃ d, phaseTrigger s.core.seq.decisionPhase s.core.pll = some d) ∧
      t.core.seq.outSymbol = decideSymbol t.core.hold.recovered) ∧
    (t.core.seq.emit = false → t.core.seq.outSymbol = s.core.seq.outSymbol)

/-- The `decide` flag after a `PROCESS` outside `ERROR` is 1 exactly when the sample was demodulated and handled a
trigger: the `0`-trigger in `CARRIER_SYNC`, the selected trigger in `CARRIER_LOCK` and `ALIGN`, the trigger at the
decision phase in `OK` (R275, R291-R295). -/
def Obligations.DecideMarksHandledTriggers : Prop :=
  ∀ (din : DataWord) (s t : State), exec (.process din) s = .next t → s.core.seq.state ≠ .error →
    (t.core.seq.decide = true ↔
      (s.core.seq.state = .carrierSync ∧ phaseTrigger F32.zero s.core.pll ≠ none) ∨
      ((s.core.seq.state = .carrierLock ∨ s.core.seq.state = .align) ∧ selectTrigger s.core.pll ≠ none) ∨
      (s.core.seq.state = .ok ∧ t.core.seq.state = .ok ∧
        phaseTrigger s.core.seq.decisionPhase s.core.pll ≠ none))

/-- Before acquisition a sample leaves the PLL, the filter, the history and the correlator alone, and emits nothing
(R280, R241, R192). -/
def Obligations.PreAcquisitionFrame : Prop :=
  ∀ (din : DataWord) (s : State),
    s.core.seq.state = .waitToSettle ∨ s.core.seq.state = .senseGain →
      ∃ t, exec (.process din) s = .next t ∧ t.core.pll = s.core.pll ∧ t.core.crf = s.core.crf ∧
        t.core.hold = s.core.hold ∧ t.core.cor = s.core.cor ∧ t.core.seq.decide = false ∧ t.core.seq.emit = false ∧
        t.core.seq.outSymbol = s.core.seq.outSymbol ∧ t.core.seq.decisionPhase = s.core.seq.decisionPhase

/-- R136: where the gain update runs: fast in `CARRIER_SYNC` on a sync symbol's trigger and in `CARRIER_LOCK` on every
handled trigger, slow in `OK` on every emission, and not at all in `WAIT_TO_SETTLE`, `ALIGN` or `ERROR`, nor in
`SENSE_GAIN`, where the gain changes only by the initial gain of R134. -/
def Obligations.AgcSpeedsByState : Prop :=
  ∀ (din : DataWord) (s t : State), exec (.process din) s = .next t →
    let v := t.core.hold.recovered
    let fast := s.core.agc.gain.sub (agcFast.mul (v.norm2.sub carrierSyncVector.norm2))
    let slow := s.core.agc.gain.sub (agcSlow.mul (v.norm2.sub (quantizeV v).norm2))
    match s.core.seq.state with
    | .waitToSettle | .align | .error => t.core.agc.gain = s.core.agc.gain
    | .senseGain =>
      t.core.agc.gain =
        if t.core.seq.state = .carrierSync then kSense.div t.core.agc.level else s.core.agc.gain
    | .carrierSync =>
      t.core.agc.gain =
        if phaseTrigger F32.zero s.core.pll ≠ none ∧ decideSymbol v = 0xF then fast else s.core.agc.gain
    | .carrierLock => t.core.agc.gain = if selectTrigger s.core.pll ≠ none then fast else s.core.agc.gain
    | .ok => t.core.agc.gain = if t.core.seq.emit = true then slow else s.core.agc.gain

/-- The NCO advances exactly once per `PROCESS` that is demodulated, and on nothing else: any other instruction
but `INIT` and `RESET` leaves the PLL alone, and so does a `PROCESS` that is not demodulated, the one that loses the signal
included (R160, R162, R283). -/
def Obligations.NcoAdvancesOncePerDemodulatedSample : Prop :=
  ∀ (i : Instr) (s t : State), exec i s = .next t → i ≠ .init → i ≠ .reset →
    ((∃ din, i = .process din) ∧ s.core.seq.state.demodulating = true ∧ t.core.seq.state ≠ .error →
      t.core.pll.prevPhase = s.core.pll.phase ∧
      t.core.pll.phase = (s.core.pll.phase.add t.core.pll.step).wrap) ∧
    (¬((∃ din, i = .process din) ∧ s.core.seq.state.demodulating = true ∧ t.core.seq.state ≠ .error) →
      t.core.pll = s.core.pll)

/-- A phase that is a NaN stays one through every sample: no trigger fires, so no symbol is emitted and a demodulating
state is left only by a loss of signal (the spec's own inference in R161, from R21 and R22). -/
def Obligations.NaNPhaseSticks : Prop :=
  ∀ (din : DataWord) (s : State), s.core.pll.phase.isNaN = true → s.core.seq.state ≠ .error →
    ∃ t, exec (.process din) s = .next t ∧ t.core.pll.phase.isNaN = true ∧ t.core.seq.emit = false ∧
      t.core.seq.decide = false ∧
      (s.core.seq.state.demodulating = true →
        t.core.seq.state = s.core.seq.state ∨ (s.core.seq.state = .ok ∧ t.core.seq.state = .error))

/-! ### Blocks -/

/-- The NCO keeps the phase in `[0, 1)`, for every phase in `[0, 1)` and every step in `[0, 1]`, and the previous phase is
the phase before (R162, R166). -/
def Obligations.PhaseStaysInUnitInterval : Prop :=
  ∀ l : PllState, inUnit l.phase = true → inUnitClosed l.step = true →
    inUnit (ncoStep l).phase = true ∧ (ncoStep l).prevPhase = l.phase

/-- `ProcessError` records the error, adds `Ki * e` to the accumulator within the windup limit, sets the step from the new
accumulator, and leaves the phase pair alone (R161). With an error that is not a NaN, an accumulator within the windup limit
stays there, and the step is in `[0, 1]` (R167). -/
def Obligations.AccumulatorAndStepStayInRange : Prop :=
  ∀ (p : Params) (e : F32) (l : PllState),
    let t := processError p e l
    t.error = e ∧
    t.acc = (l.acc.add (ki.mul e)).clamp windupLimit.neg windupLimit ∧
    t.step = ((nominalFreq p.duration).mul ((one.sub (kp.mul e)).sub t.acc)).clamp F32.zero one ∧
    t.phase = l.phase ∧ t.prevPhase = l.prevPhase ∧
    (e.isNaN = false → inWindup l.acc = true → inWindup t.acc = true ∧ inUnitClosed t.step = true)

/-- For every threshold a trigger fires exactly when the wrapped distance from the threshold has fallen and the phase has
moved, and its delay is the quotient of R163. For phases in `[0, 1)` and the thresholds `0` and `0.5`, the delay is in
`[0, 1]`, and there is no trigger when the phase has not moved (R164). -/
def Obligations.TriggerDelayInUnitInterval : Prop :=
  ∀ (l : PllState) (threshold : F32),
    let a := (l.phase.sub threshold).wrap
    let b := (l.prevPhase.sub threshold).wrap
    (a.lt b = true ∧ l.phase.ne l.prevPhase = true →
      phaseTrigger threshold l = some (a.div (l.phase.sub l.prevPhase).wrap)) ∧
    (¬(a.lt b = true ∧ l.phase.ne l.prevPhase = true) → phaseTrigger threshold l = none) ∧
    (threshold = F32.zero ∨ threshold = half → inUnit l.phase = true → inUnit l.prevPhase = true →
      (∀ d, phaseTrigger threshold l = some d → inUnitClosed d = true) ∧
      (l.phase.eq l.prevPhase = true → phaseTrigger threshold l = none))

/-- R250: for every delay that is not a NaN and a full history, `SampleSymbol` answers, interpolating between two adjacent
entries inside the window: the clamped delay's whole part chooses them and its fraction weighs the older one. -/
def Obligations.SampleSymbolStaysInWindow : Prop :=
  ∀ (p : Params) (d : F32) (h : List V), d.isNaN = false → h.length = p.n →
    let dc := d.clamp F32.zero (dmax p.duration)
    let k := dc.floorInt.toNat
    let f := dc.sub dc.floor
    0 ≤ dc.floorInt ∧ k + 2 ≤ p.n ∧
      ∃ late early, h[k]? = some late ∧ h[k + 1]? = some early ∧
        sampleSymbol p d h = some ⟨F32.lerp late.i early.i f, F32.lerp late.q early.q f⟩

/-- R243: `DecisionIndex` is the exact real formula `clamp(⌊2·(s + 1)⌋, 0, 3)` on every finite value (values are counted
in units of 2^-149), 3 on `+inf`, and 0 on `-inf` and on a NaN. -/
def Obligations.DecisionIndexIsExact : Prop :=
  (∀ s : F32, s.isFinite = true →
    ((decisionIndex s).val : Int) = max 0 (min 3 (2 * (s.value + 2 ^ 149) / 2 ^ 149))) ∧
  (∀ s : F32, s.isNaN = true → decisionIndex s = 0) ∧
  (∀ s : F32, s.isInf = true → decisionIndex s = if s.sign then 0 else 3)

/-- A quantized lane is the level of its index: `-0.75`, `-0.25`, `0.25` or `0.75` (R240, R244); and
`Quantize ∘ DecisionIndex` is a projection, for every pattern, NaN included (the spec's own inference in R245, from R243 and
R244). -/
def Obligations.QuantizeIsProjection : Prop :=
  ∀ s : F32,
    (decisionIndex s = 0 → quantize s = ⟨0xBF400000⟩) ∧ (decisionIndex s = 1 → quantize s = ⟨0xBE800000⟩) ∧
    (decisionIndex s = 2 → quantize s = ⟨0x3E800000⟩) ∧ (decisionIndex s = 3 → quantize s = ⟨0x3F400000⟩) ∧
    decisionIndex (quantize s) = decisionIndex s ∧ quantize (quantize s) = quantize s

/-- The symbol map is a bijection between symbols and constellation points, Gray-coded in each lane (the spec's own
inference in R247, from R246). -/
def Obligations.SymbolMapIsBijective : Prop :=
  (∀ a : BitVec 4, decideSymbol (symbolPoint a) = a) ∧
  (∀ u : V, symbolPoint (decideSymbol u) = quantizeV u) ∧
  (∀ u : V,
    (decideSymbol u).getLsbD 3 = decide ((decisionIndex u.i).val < 2) ∧
    (decideSymbol u).getLsbD 0 = decide (decisionIndex u.i = 0 ∨ decisionIndex u.i = 3) ∧
    (decideSymbol u).getLsbD 2 = decide ((decisionIndex u.q).val < 2) ∧
    (decideSymbol u).getLsbD 1 = decide (decisionIndex u.q = 0 ∨ decisionIndex u.q = 3))

/-- The running maximum of the correlator is never `-0.0` and never a NaN. It becomes the new correlation value exactly when
that is greater, is reset to `+0.0` when that is negative, and keeps its value otherwise, so it never falls unless the
correlation is negative (R44, R213, R217). That `hist[0]` is the correlation of the window is
CorrelatorAnswersAfterFourPeaks. -/
def Obligations.CorrelatorMaximumIsMonotoneBetweenValleys : Prop :=
  ∀ (p : Params) (ph : F32) (u : V) (c : CorState), c.max.isNaN = false → c.max.sign = false →
    let t := (correlate p ph u c).2
    t.max.isNaN = false ∧ t.max.sign = false ∧
      (t.hist[0].gt c.max = true → t.max = t.hist[0]) ∧
      (t.hist[0].gt c.max = false → t.hist[0].lt F32.zero = false → t.max = c.max) ∧
      (t.hist[0].lt F32.zero = false → t.max.lt c.max = false) ∧
      (t.hist[0].lt F32.zero = true → t.max = F32.zero)

/-- One whole invocation of the correlator, for at most four peaks so far. The windows `cor_v`, `cor_phase` and `cor_hist`
take one entry each: the value, the phase (R211), and the correlation of `cor_v` with the value in it (R212; that the zeros
of the pattern are `+0.0` is entry 18). The maximum takes the correlation when it is greater (R213), and is reset in a valley
(R217) after the peak test. Exactly when the three conditions of R214 hold, `cor_dec` takes the vote of R216, weighted by
the tilt of R215, and the count of peaks rises, saturating at 4; otherwise both are unchanged. The result is given exactly
when four peaks have been collected: `+0.0` for a positive sum of the votes and `0.5` otherwise (R218). -/
def Obligations.CorrelatorAnswersAfterFourPeaks : Prop :=
  ∀ (p : Params) (ph : F32) (u : V) (c : CorState), c.peaks.toNat ≤ 4 →
    let r := correlate p ph u c
    let t := r.2
    let term : F32 → F32 → V → F32 := fun patI patQ w => (patI.mul w.i).add (patQ.mul w.q)
    let x :=
      (((((((F32.zero.add (term oneNeg oneNeg t.v[0])).add (term oneNeg F32.zero t.v[1])).add
        (term oneNeg one t.v[2])).add (term F32.zero one t.v[3])).add (term one one t.v[4])).add
        (term one F32.zero t.v[5])).add (term one oneNeg t.v[6])).add (term F32.zero oneNeg t.v[7])
    let top := if x.gt c.max = true then x else c.max
    let peak := t.hist[1].eq top = true ∧ t.hist[0].lt top = true ∧ top.ge ⟨0x40800000⟩ = true
    let left := t.hist[1].sub t.hist[2]
    let right := t.hist[1].sub t.hist[0]
    let tilt := (half.mul (left.sub right)).div (left.add right)
    let b := if tilt.lt F32.zero = true then t.phase[2] else t.phase[0]
    (t.v[0] = u ∧ t.phase[0] = ph ∧ t.hist[0] = x) ∧
    ((∀ k : Fin 7, t.v[k.val + 1] = c.v[k.val]) ∧ t.phase[1] = c.phase[0] ∧ t.phase[2] = c.phase[1] ∧
      t.hist[1] = c.hist[0] ∧ t.hist[2] = c.hist[1]) ∧
    t.max = (if x.lt F32.zero = true then F32.zero else top) ∧
    (peak →
      t.dec[0] = F32.lerp (p.cosCyc t.phase[1].wrap) (p.cosCyc b.wrap) tilt.abs ∧
      t.dec[1] = c.dec[0] ∧ t.dec[2] = c.dec[1] ∧ t.dec[3] = c.dec[2] ∧
      t.peaks.toNat = min (c.peaks.toNat + 1) 4) ∧
    (¬peak → t.dec = c.dec ∧ t.peaks = c.peaks) ∧
    (r.1 =
      if 4 ≤ t.peaks.toNat then
        some (if (((t.dec[0].add t.dec[1]).add t.dec[2]).add t.dec[3]).gt F32.zero = true then F32.zero else half)
      else none) ∧
    c.peaks.toNat ≤ t.peaks.toNat ∧ t.peaks.toNat ≤ c.peaks.toNat + 1 ∧ t.peaks.toNat ≤ 4

/-- The lanes of the filter are independent: each lane of the output and of the state depends on that lane alone (the spec's
own inference in R193, from R191). -/
def Obligations.FilterLanesAreIndependent : Prop :=
  ∀ (p : Params) (m m' : V) (c c' : CrfState),
    let sameI : CrfState → CrfState → Prop := fun a b =>
      a.sec0.x.map V.i = b.sec0.x.map V.i ∧ a.sec0.y.map V.i = b.sec0.y.map V.i ∧
      a.sec1.x.map V.i = b.sec1.x.map V.i ∧ a.sec1.y.map V.i = b.sec1.y.map V.i
    let sameQ : CrfState → CrfState → Prop := fun a b =>
      a.sec0.x.map V.q = b.sec0.x.map V.q ∧ a.sec0.y.map V.q = b.sec0.y.map V.q ∧
      a.sec1.x.map V.q = b.sec1.x.map V.q ∧ a.sec1.y.map V.q = b.sec1.y.map V.q
    (m.i = m'.i → sameI c c' → (crf p m c).1.i = (crf p m' c').1.i ∧ sameI (crf p m c).2 (crf p m' c').2) ∧
    (m.q = m'.q → sameQ c c' → (crf p m c).1.q = (crf p m' c').1.q ∧ sameQ (crf p m c).2 (crf p m' c').2)

/-- R191: the biquad section is the difference equation over this input, the two before it and the two outputs before
it, in each lane, and it shifts both histories by one. R192: the filter is section 0, with `CRF_COEF(N, 0)`, on the mixer
output, then section 1, with `CRF_COEF(N, 1)`, on the output of section 0, and its result is that of section 1. -/
def Obligations.BiquadSectionStep : Prop :=
  (∀ (k : BiquadCoef) (u : V) (b : BiquadState),
    let y := (biquad k u b).1
    let t := (biquad k u b).2
    y.i = ((((k.b0.mul u.i).add (k.b1.mul b.x[0].i)).add (k.b2.mul b.x[1].i)).sub (k.a0.mul b.y[0].i)).sub
      (k.a1.mul b.y[1].i) ∧
    y.q = ((((k.b0.mul u.q).add (k.b1.mul b.x[0].q)).add (k.b2.mul b.x[1].q)).sub (k.a0.mul b.y[0].q)).sub
      (k.a1.mul b.y[1].q) ∧
    t.x[0] = u ∧ t.x[1] = b.x[0] ∧ t.x[2] = b.x[1] ∧ t.y[0] = y ∧ t.y[1] = b.y[0]) ∧
  ∀ (p : Params) (m : V) (c : CrfState),
    let y0 := (biquad (p.crfCoef p.duration 0) m c.sec0).1
    let v := (crf p m c).1
    let t := (crf p m c).2
    v = (biquad (p.crfCoef p.duration 1) y0 c.sec1).1 ∧
    t.sec0 = (biquad (p.crfCoef p.duration 0) m c.sec0).2 ∧
    t.sec1 = (biquad (p.crfCoef p.duration 1) y0 c.sec1).2 ∧
    t.sec0.x[0] = m ∧ t.sec0.y[0] = y0 ∧ t.sec1.x[0] = y0 ∧ t.sec1.y[0] = v

/-- With a coefficient in `[0, 1]`: after one sample with a finite magnitude a finite level that is at least 0 is at least 0
(the spec's own inference in R131); and after any number of samples whose magnitudes are at most a bound `B`, a level in
`[0, B]` is in `[0, B]`, hence finite, where `B` is zero or a power of two from 2^-126 to 2^127. Beyond the largest bound a
finite sample can round the level to infinity: the test test_level_can_overflow. -/
def Obligations.LevelStaysNonNegative : Prop :=
  ∀ (p : Params) (a : AgcState), p.alphaLvl.ge F32.zero = true → p.alphaLvl.le one = true →
    a.level.ge F32.zero = true →
    (∀ m : F32, a.level.isFinite = true → m.isFinite = true →
      (follow p m a).level.ge F32.zero = true ∧ (follow p m a).gain = a.gain ∧ (follow p m a).hpfLp = a.hpfLp) ∧
    ∀ (k : Nat) (ms : List F32), k < 255 →
      let bound := F32.ofSignMag false (k * 2 ^ 23)
      let t := ms.foldl (fun s m => follow p m s) a
      a.level.le bound = true → (∀ m ∈ ms, m.abs.le bound = true) →
        t.level.isFinite = true ∧ t.level.ge F32.zero = true ∧ t.level.le bound = true ∧
        t.gain = a.gain ∧ t.hpfLp = a.hpfLp

/-- A vector stronger than the reference never raises a finite gain, and a weaker one never lowers it (R135). -/
def Obligations.GainUpdateOpposesTheError : Prop :=
  ∀ (v r : V) (speed : F32) (a : AgcState), speed = agcFast ∨ speed = agcSlow → a.gain.isFinite = true →
    ((v.norm2.sub r.norm2).gt F32.zero = true → (agcProcess v r speed a).gain.le a.gain = true) ∧
    ((v.norm2.sub r.norm2).lt F32.zero = true → (agcProcess v r speed a).gain.ge a.gain = true)

/-! ### Arithmetic and configuration -/

/-- Sums, differences, products and quotients of finite values are correctly rounded. The result is finite exactly when the
exact magnitude is below the midpoint `limit` of the largest finite value and 2^128, and then no finite binary32 value is
nearer to the exact result; from `limit` on, and for a nonzero value divided by zero, it is an infinity with the sign of the
exact result. (Values are counted in units of 2^-149. R20 gives the operations by reference to IEEE 754: overflow and division
by zero are entry 8, PRESUMED.) -/
def Obligations.ArithmeticIsCorrectlyRounded : Prop :=
  ∀ a b : F32, a.isFinite = true → b.isFinite = true →
    let limit : Int := (2 ^ 25 - 1) * 2 ^ 252
    (∀ c : F32, c.isFinite = true →
      ((a.add b).isFinite = true →
        |(a.add b).value - (a.value + b.value)| ≤ |c.value - (a.value + b.value)|) ∧
      ((a.sub b).isFinite = true →
        |(a.sub b).value - (a.value - b.value)| ≤ |c.value - (a.value - b.value)|) ∧
      ((a.mul b).isFinite = true →
        |(a.mul b).value * 2 ^ 149 - a.value * b.value| ≤ |c.value * 2 ^ 149 - a.value * b.value|) ∧
      ((a.div b).isFinite = true →
        |(a.div b).value * b.value - a.value * 2 ^ 149| ≤ |c.value * b.value - a.value * 2 ^ 149|)) ∧
    ((a.add b).isFinite = true ↔ |a.value + b.value| < limit) ∧
    ((a.sub b).isFinite = true ↔ |a.value - b.value| < limit) ∧
    ((a.mul b).isFinite = true ↔ |a.value * b.value| < limit * 2 ^ 149) ∧
    ((a.div b).isFinite = true ↔ |a.value| * 2 ^ 149 < limit * |b.value|) ∧
    (limit ≤ |a.value + b.value| →
      (a.add b).isInf = true ∧ (a.add b).sign = decide (a.value + b.value < 0)) ∧
    (limit ≤ |a.value - b.value| →
      (a.sub b).isInf = true ∧ (a.sub b).sign = decide (a.value - b.value < 0)) ∧
    (limit * 2 ^ 149 ≤ |a.value * b.value| →
      (a.mul b).isInf = true ∧ (a.mul b).sign = (a.sign != b.sign)) ∧
    (a.value ≠ 0 → limit * |b.value| ≤ |a.value| * 2 ^ 149 →
      (a.div b).isInf = true ∧ (a.div b).sign = (a.sign != b.sign))

/-- Ties go to the even pattern: where another binary32 magnitude is as near, the result's significand is even (R20). -/
def Obligations.TiesRoundToEven : Prop :=
  ∀ num den m : Nat, 0 < den → m < infMag → roundMag num den < infMag → m ≠ roundMag num den →
    |(unitsOf m : Int) * den - num| = |(unitsOf (roundMag num den) : Int) * den - num| → roundMag num den % 2 = 0

/-- R13: `NOMINAL_FREQ` and `DMAX` are the binary32 values nearest to `1/N` and `N - 1.001`, and these patterns. -/
def Obligations.DerivedConstantsAreNearest : Prop :=
  (∀ n : SymbolDuration,
    nominalFreq n = F32.nearest false 1 n.toNat ∧ dmax n = F32.nearest false (1000 * n.toNat - 1001) 1000) ∧
  [SymbolDuration.n5, .n6, .n8, .n10, .n12, .n16].map (fun n => (n.toNat, (nominalFreq n).bits, (dmax n).bits)) =
    [(5, 0x3E4CCCCD, 0x407FEF9E), (6, 0x3E2AAAAB, 0x409FF7CF), (8, 0x3E000000, 0x40DFF7CF),
     (10, 0x3DCCCCCD, 0x410FFBE7), (12, 0x3DAAAAAB, 0x412FFBE7), (16, 0x3D800000, 0x416FFBE7)]

/-- R10: a pair of rates is admitted exactly when `SYMBOL_RATE` is positive and `SAMPLE_RATE` is one of the six supported
multiples of it; every other configuration is rejected. -/
def Obligations.AdmitsExactlyTheLegalConfigurations : Prop :=
  ∀ (sampleRate symbolRate : Nat) (n : SymbolDuration),
    checkConfig sampleRate symbolRate = some n ↔ 0 < symbolRate ∧ sampleRate = n.toNat * symbolRate

/-! ### Whole machine -/

/-- The state after reset satisfies the invariant. -/
def Obligations.InvariantHoldsAtReset : Prop := State.reset.Inv

/-- Every step keeps the invariant: the windows keep their lengths, the phases stay in `[0, 1)` (or a NaN), the
accumulator and the step in their ranges, the maximum of the correlator never negative, at most four peaks, a decision
phase of 0 or 0.5, and no flag set in `ERROR` (R41, R43-R45, R166, R167, R275). -/
def Obligations.EveryStepKeepsTheInvariant : Prop :=
  ∀ s t : State, s.Inv → step s = .next t → t.Inv

/-- From a state that satisfies the invariant the machine never stops: every step, whatever is offered, takes a next
state (R340, R350, R371). -/
def Obligations.InvariantStatesNeverStop : Prop :=
  ∀ s : State, s.Inv → ∃ t, step s = .next t

/-- After `INIT` or `RESET` the state and the responses are functions of the commands since: two machines with
whatever history, offered the same inputs beginning with the same one of those commands, run alike for ever (R383, partly
the spec's own inference). -/
def Obligations.RunsAfterInitForgetHistory : Prop :=
  ∀ (s s' : State) (c : Command) (rest : List PortEvent) (k : Nat),
    s.port.inputs = .command c :: rest → s'.port.inputs = .command c :: rest →
    c.cmd = 0x0001 ∨ c.cmd = 0x0002 →
      Sys2Proof.core.run (k + 1) s = Sys2Proof.core.run (k + 1) s'

/-! ### The shared operations of the datapath, written out -/

/-- A window write makes the value the newest entry and moves every other entry one place, the oldest dropping out, for a
window of fixed length and for the history `v_hist`; a history is read inside its length only (R32); and the sum of the four
votes is taken in age order (R33). -/
def Obligations.WindowsShiftByOne : Prop :=
  (∀ (n : Nat) (w : Vector F32 (n + 1)) (x : F32),
    (windowWrite w x)[0] = x ∧ ∀ (k : Nat) (h : k < n), (windowWrite w x)[k + 1] = w[k]) ∧
  (∀ (n : Nat) (w : Vector V (n + 1)) (x : V),
    (windowWrite w x)[0] = x ∧ ∀ (k : Nat) (h : k < n), (windowWrite w x)[k + 1] = w[k]) ∧
  (∀ (w : List V) (x : V), (historyWrite w x).length = w.length ∧
    (0 < w.length → historyRead (historyWrite w x) 0 = some x) ∧
    (∀ k, k + 1 < w.length → historyRead (historyWrite w x) (k + 1) = historyRead w k) ∧
    ∀ k, (historyRead w k).isSome = decide (k < w.length)) ∧
  ∀ w : Vector F32 4, windowSum w = ((w[0].add w[1]).add w[2]).add w[3]

/-- What the datapath before the filter computes: the gained sample from the updated `hpf_lp` and the gain (R130, R133), the
oscillator from the wrapped phase (R165), the mixer (R168), and the vector operations of R23 that the detectors and the gain
update use. -/
def Obligations.GainOscillatorAndMixer : Prop :=
  (∀ (p : Params) (x : F32) (a : AgcState),
    (frontEnd p x a).1 = (x.sub (frontEnd p x a).2.hpfLp).mul a.gain ∧ (frontEnd p x a).2.gain = a.gain) ∧
  (∀ (p : Params) (phi : F32), localOsc p phi = ⟨p.cosCyc phi.wrap, (p.sinCyc phi.wrap).neg⟩) ∧
  (∀ (g : F32) (osc : V), mix g osc = ⟨((⟨0x40000000⟩ : F32).mul g).mul osc.i, ((⟨0x40000000⟩ : F32).mul g).mul osc.q⟩) ∧
  ∀ (v w : V) (k : F32),
    V.add v w = ⟨v.i.add w.i, v.q.add w.q⟩ ∧ V.scale k v = ⟨k.mul v.i, k.mul v.q⟩ ∧
    v.cross w = (v.i.mul w.q).sub (w.i.mul v.q) ∧ v.norm2 = (v.i.mul v.i).add (v.q.mul v.q)

/-- R21: comparisons of finite values are those of their exact values, so `+0 == -0`; an infinity lies beyond every finite
value, on the side of its sign; and every comparison with a NaN is false but `!=`, which is true. -/
def Obligations.ComparisonsFollowValues : Prop :=
  ∀ a b : F32,
    (a.gt b = b.lt a ∧ a.ge b = b.le a ∧ a.ne b = !a.eq b) ∧
    (a.isNaN = true ∨ b.isNaN = true → a.lt b = false ∧ a.le b = false ∧ a.eq b = false) ∧
    (a.isFinite = true → b.isFinite = true →
      a.lt b = decide (a.value < b.value) ∧ a.le b = decide (a.value ≤ b.value) ∧
      a.eq b = decide (a.value = b.value)) ∧
    (a.isInf = true → b.isFinite = true →
      a.lt b = a.sign ∧ a.le b = a.sign ∧ a.eq b = false ∧ b.lt a = !a.sign ∧ b.le a = !a.sign ∧ b.eq a = false) ∧
    (a.isInf = true → b.isInf = true →
      a.lt b = (a.sign && !b.sign) ∧ a.le b = (a.sign || !b.sign) ∧ a.eq b = (a.sign == b.sign))

/-- `floor` gives the real floor of a finite value exactly, an infinity for itself and a NaN for a NaN (R20); `Wrap`,
`clamp` and `lerp` are their definitions, and a `clamp` of a NaN is that NaN (R22). -/
def Obligations.FloorIsExact : Prop :=
  ∀ a b t : F32,
    (a.isFinite = true → a.floor.isFinite = true ∧ a.floor.value = a.value / 2 ^ 149 * 2 ^ 149) ∧
    (a.isInf = true → a.floor = a) ∧ (a.isNaN = true → a.floor.isNaN = true) ∧
    a.wrap = a.sub a.floor ∧ F32.lerp a b t = a.add ((b.sub a).mul t) ∧
    (a.isNaN = true → a.clamp b t = a) ∧
    a.clamp b t = (if a.lt b = true then b else if a.gt t = true then t else a)
end

