-- ==== Sys2Proof/Laws/Float.lean ====
section
/-! SUPPORT. Lemmas about binary32 patterns, comparisons and the one rounding function: it is exact on binary32 values and
monotone, which is what range claims about the datapath rest on. -/

namespace Sys2Proof

/-! ### Patterns: sign and magnitude -/

theorem F32.mag_lt (a : F32) : a.mag < 2 ^ 31 := Nat.mod_lt _ (by decide)

theorem F32.isNaN_iff {a : F32} : a.isNaN = true ↔ infMag < a.mag := by simp [F32.isNaN]

theorem F32.isNaN_false_iff {a : F32} : a.isNaN = false ↔ a.mag ≤ infMag := by simp [F32.isNaN]

theorem F32.isFinite_iff {a : F32} : a.isFinite = true ↔ a.mag < infMag := by simp [F32.isFinite]

theorem F32.isInf_iff {a : F32} : a.isInf = true ↔ a.mag = infMag := by simp [F32.isInf]

/-- A pattern is its sign and its magnitude. -/
theorem F32.toNat_bits (a : F32) : a.bits.toNat = (if a.sign then 2 ^ 31 else 0) + a.mag := by
  have h := a.bits.isLt
  simp only [F32.sign, F32.mag, BitVec.msb_eq_decide, decide_eq_true_eq]
  split <;> omega

/-- Two values with the same sign and magnitude are the same pattern. -/
theorem F32.ext_sign_mag {a b : F32} (hs : a.sign = b.sign) (hm : a.mag = b.mag) : a = b := by
  have h : a.bits = b.bits := BitVec.eq_of_toNat_eq (by rw [F32.toNat_bits, F32.toNat_bits, hs, hm])
  cases a; cases b; simp_all

theorem F32.toNat_ofSignMag {neg : Bool} {m : Nat} (h : m < 2 ^ 31) :
    (F32.ofSignMag neg m).bits.toNat = (if neg then 2 ^ 31 else 0) + m := by
  cases neg <;> simp [F32.ofSignMag] <;> omega

theorem F32.mag_ofSignMag {neg : Bool} {m : Nat} (h : m < 2 ^ 31) : (F32.ofSignMag neg m).mag = m := by
  rw [F32.mag, F32.toNat_ofSignMag h]
  split <;> omega

theorem F32.sign_ofSignMag {neg : Bool} {m : Nat} (h : m < 2 ^ 31) : (F32.ofSignMag neg m).sign = neg := by
  simp only [F32.sign, BitVec.msb_eq_decide, F32.toNat_ofSignMag h]
  cases neg
  · simp; omega
  · simp

@[simp] theorem F32.ofSignMag_sign_mag (a : F32) : F32.ofSignMag a.sign a.mag = a :=
  F32.ext_sign_mag (F32.sign_ofSignMag a.mag_lt) (F32.mag_ofSignMag a.mag_lt)

@[simp] theorem F32.mag_neg (a : F32) : a.neg.mag = a.mag := F32.mag_ofSignMag a.mag_lt
@[simp] theorem F32.sign_neg (a : F32) : a.neg.sign = !a.sign := F32.sign_ofSignMag a.mag_lt
@[simp] theorem F32.mag_abs (a : F32) : a.abs.mag = a.mag := F32.mag_ofSignMag a.mag_lt
@[simp] theorem F32.sign_abs (a : F32) : a.abs.sign = false := F32.sign_ofSignMag a.mag_lt
@[simp] theorem F32.neg_neg (a : F32) : a.neg.neg = a := F32.ext_sign_mag (by simp) (by simp)
@[simp] theorem F32.isNaN_neg (a : F32) : a.neg.isNaN = a.isNaN := by simp [F32.isNaN]
@[simp] theorem F32.isNaN_abs (a : F32) : a.abs.isNaN = a.isNaN := by simp [F32.isNaN]

/-- Whatever the free value, the NaN an operation makes is a NaN (R21, entry 7). -/
@[simp] theorem isNaN_nanResult (op : FOp) (a b : F32) : (nanResult op a b).isNaN = true := by
  have h := (Config.nanBits op a b).2.isLt
  have hm : infMag + 1 + (Config.nanBits op a b).2.val < 2 ^ 31 := by simp only [infMag]; omega
  rw [F32.isNaN_iff, nanResult, F32.mag_ofSignMag hm]
  omega

/-! ### Rounding: bounds, monotonicity, exactness -/

theorem roundNearestEven_ge (n d : Nat) : n / d ≤ roundNearestEven n d := by
  simp only [roundNearestEven]; split <;> omega

theorem roundNearestEven_le (n d : Nat) : roundNearestEven n d ≤ n / d + 1 := by
  simp only [roundNearestEven]; split <;> omega

/-- A multiple of the divisor is not changed. -/
theorem roundNearestEven_mul (q d : Nat) (hd : 0 < d) : roundNearestEven (q * d) d = q := by
  simp [roundNearestEven, Nat.mul_div_cancel q hd, hd]

theorem roundNearestEven_mono {n n' d : Nat} (h : n ≤ n') : roundNearestEven n d ≤ roundNearestEven n' d := by
  have hq : n / d ≤ n' / d := Nat.div_le_div_right h
  rcases Nat.lt_or_eq_of_le hq with hlt | heq
  · exact (roundNearestEven_le n d).trans (Nat.succ_le_of_lt hlt |>.trans (roundNearestEven_ge n' d))
  · have hn := Nat.div_add_mod n d
    have hn' := Nat.div_add_mod n' d
    rw [← heq] at hn'
    have hr : n % d ≤ n' % d := by omega
    simp only [roundNearestEven, ← heq]
    split <;> split <;> omega

/-- The exponent shift that `roundMag` chooses: zero below 2^24, and from there on the significand has 24 bits. -/
theorem shift_spec (q : Nat) :
    q < 2 ^ (24 + (Nat.log2 q - 23)) ∧ (0 < Nat.log2 q - 23 → 2 ^ (23 + (Nat.log2 q - 23)) ≤ q) := by
  by_cases hq : q = 0
  · subst hq; simp
  · refine ⟨?_, fun h => ?_⟩
    · have h1 : q < 2 ^ (Nat.log2 q + 1) := Nat.lt_log2_self
      exact h1.trans_le (Nat.pow_le_pow_right (by decide) (by omega))
    · have h1 : 2 ^ Nat.log2 q ≤ q := Nat.log2_self_le hq
      have : 23 + (Nat.log2 q - 23) = Nat.log2 q := by omega
      rwa [this]

/-- The unbounded pattern of `roundMag`: the result before the overflow to infinity. -/
def roundPattern (num den : Nat) : Nat :=
  (Nat.log2 (num / den) - 23) * 2 ^ 23 + roundNearestEven num (den * 2 ^ (Nat.log2 (num / den) - 23))

theorem roundMag_eq (num den : Nat) : roundMag num den = min (roundPattern num den) infMag := rfl

theorem roundMag_le (num den : Nat) : roundMag num den ≤ infMag := Nat.min_le_right _ _

theorem roundMag_lt (num den : Nat) : roundMag num den < 2 ^ 31 := (roundMag_le num den).trans_lt (by decide)

theorem log2_mono {a b : Nat} (h : a ≤ b) : Nat.log2 a ≤ Nat.log2 b := by
  by_cases ha : a = 0
  · subst ha; simp
  · rw [Nat.le_log2 (by omega)]
    exact (Nat.log2_self_le ha).trans h

/-- Rounding is monotone. -/
theorem roundPattern_mono {n n' d : Nat} (h : n ≤ n') : roundPattern n d ≤ roundPattern n' d := by
  have hq : n / d ≤ n' / d := Nat.div_le_div_right h
  have hk : Nat.log2 (n / d) - 23 ≤ Nat.log2 (n' / d) - 23 := Nat.sub_le_sub_right (log2_mono hq) 23
  rcases Nat.lt_or_eq_of_le hk with hlt | heq
  · have h1 := (shift_spec (n / d)).1
    have h2 := (shift_spec (n' / d)).2 (by omega)
    generalize hk1 : Nat.log2 (n / d) - 23 = k at *
    generalize hk2 : Nat.log2 (n' / d) - 23 = k' at *
    have u1 : n / (d * 2 ^ k) < 2 ^ 24 := by
      rw [← Nat.div_div_eq_div_mul]
      apply Nat.div_lt_of_lt_mul
      rwa [← Nat.pow_add, Nat.add_comm]
    have u2 : 2 ^ 23 ≤ n' / (d * 2 ^ k') := by
      rw [← Nat.div_div_eq_div_mul, Nat.le_div_iff_mul_le (Nat.two_pow_pos _), ← Nat.pow_add]
      exact h2
    have b1 := roundNearestEven_le n (d * 2 ^ k)
    have b2 := roundNearestEven_ge n' (d * 2 ^ k')
    simp only [roundPattern, hk1, hk2]
    omega
  · simp only [roundPattern, ← heq]
    exact Nat.add_le_add_left (roundNearestEven_mono h) _

theorem roundMag_mono {n n' d : Nat} (h : n ≤ n') : roundMag n d ≤ roundMag n' d := by
  rw [roundMag_eq, roundMag_eq]
  have := roundPattern_mono (d := d) h
  omega

/-- The pattern of a value is what its exact number of units rounds to: rounding is exact on binary32 values. -/
theorem roundPattern_unitsOf (m d : Nat) (hd : 0 < d) : roundPattern (unitsOf m * d) d = m := by
  have hq : unitsOf m * d / d = unitsOf m := Nat.mul_div_cancel _ hd
  have key : ∀ s k, 0 < d → roundNearestEven (s * 2 ^ k * d) (d * 2 ^ k) = s := by
    intro s k hd
    have : s * 2 ^ k * d = s * (d * 2 ^ k) := by ring
    rw [this, roundNearestEven_mul _ _ (Nat.mul_pos hd (Nat.two_pow_pos k))]
  rcases Nat.eq_zero_or_pos (m / 2 ^ 23) with h0 | hpos
  · have hm : m < 2 ^ 23 := by omega
    have hu : unitsOf m = m := by simp only [unitsOf, h0]; simp
    have hl : Nat.log2 m - 23 = 0 := by
      have := log2_mono (Nat.le_of_lt hm)
      have h2 : Nat.log2 (2 ^ 23) = 23 := by decide
      omega
    rw [roundPattern, hq, hu, hl]
    have := key m 0 hd
    simpa using this
  · obtain ⟨k, hk⟩ : ∃ k, m / 2 ^ 23 = k + 1 := ⟨m / 2 ^ 23 - 1, by omega⟩
    have hs1 : 2 ^ 23 ≤ m - k * 2 ^ 23 := by omega
    have hs2 : m - k * 2 ^ 23 < 2 ^ 24 := by omega
    have hu : unitsOf m = (m - k * 2 ^ 23) * 2 ^ k := by simp only [unitsOf, hk, Nat.add_sub_cancel]
    have hl : Nat.log2 (unitsOf m) - 23 = k := by
      have hlo : 2 ^ (23 + k) ≤ unitsOf m := by
        rw [hu, Nat.pow_add]; exact Nat.mul_le_mul_right _ hs1
      have hhi : unitsOf m < 2 ^ (24 + k) := by
        rw [hu, Nat.pow_add]; exact Nat.mul_lt_mul_of_pos_right hs2 (Nat.two_pow_pos k)
      have hne : unitsOf m ≠ 0 := by have := Nat.two_pow_pos (23 + k); omega
      have a1 := (Nat.le_log2 hne).2 hlo
      have a2 := (Nat.log2_lt hne).2 hhi
      omega
    rw [roundPattern, hq, hl, hu, key _ _ hd]
    omega

theorem roundMag_unitsOf {m : Nat} (d : Nat) (hd : 0 < d) (hm : m ≤ infMag) : roundMag (unitsOf m * d) d = m := by
  rw [roundMag_eq, roundPattern_unitsOf m d hd]; omega

theorem roundMag_unitsOf_one {m : Nat} (hm : m ≤ infMag) : roundMag (unitsOf m) 1 = m := by
  simpa using roundMag_unitsOf 1 (by decide) hm

/-- Magnitude patterns are ordered as their values are. -/
theorem unitsOf_lt_iff {m m' : Nat} : unitsOf m < unitsOf m' ↔ m < m' := by
  have e : ∀ m, roundPattern (unitsOf m) 1 = m := fun m => by simpa using roundPattern_unitsOf m 1 (by decide)
  constructor
  · intro h
    by_contra hc
    have hle : m' ≤ m := by omega
    have h1 : roundPattern (unitsOf m) 1 ≤ roundPattern (unitsOf m') 1 := roundPattern_mono (Nat.le_of_lt h)
    rw [e, e] at h1
    have : m = m' := by omega
    subst this; omega
  · intro h
    by_contra hc
    have h1 : roundPattern (unitsOf m') 1 ≤ roundPattern (unitsOf m) 1 := roundPattern_mono (by omega)
    rw [e, e] at h1; omega

theorem unitsOf_le_iff {m m' : Nat} : unitsOf m ≤ unitsOf m' ↔ m ≤ m' := by
  rw [← Nat.not_lt, ← Nat.not_lt, unitsOf_lt_iff]

@[simp] theorem unitsOf_zero : unitsOf 0 = 0 := by decide

theorem unitsOf_eq_zero_iff {m : Nat} : unitsOf m = 0 ↔ m = 0 := by
  have h := unitsOf_le_iff (m := m) (m' := 0)
  simp only [unitsOf_zero] at h
  omega

/-! ### Values, keys and comparisons -/

theorem F32.value_of_pos {a : F32} (h : a.sign = false) : a.value = (unitsOf a.mag : Int) := by simp [F32.value, h]
theorem F32.value_of_neg {a : F32} (h : a.sign = true) : a.value = -(unitsOf a.mag : Int) := by simp [F32.value, h]
theorem F32.key_of_pos {a : F32} (h : a.sign = false) : a.key = (a.mag : Int) := by simp [F32.key, h]
theorem F32.key_of_neg {a : F32} (h : a.sign = true) : a.key = -(a.mag : Int) := by simp [F32.key, h]

/-- The comparisons order values: the key is ordered as the exact value is. -/
theorem F32.value_le_iff_key_le {a b : F32} : a.value ≤ b.value ↔ a.key ≤ b.key := by
  have h1 := unitsOf_le_iff (m := a.mag) (m' := b.mag)
  have h2 := unitsOf_le_iff (m := b.mag) (m' := a.mag)
  have za := unitsOf_eq_zero_iff (m := a.mag)
  have zb := unitsOf_eq_zero_iff (m := b.mag)
  simp only [F32.value, F32.key]
  split <;> split <;> omega

theorem F32.value_lt_iff_key_lt {a b : F32} : a.value < b.value ↔ a.key < b.key := by
  rw [← Int.not_le, ← Int.not_le, F32.value_le_iff_key_le]

@[simp] theorem F32.value_neg (a : F32) : a.neg.value = -a.value := by
  simp only [F32.value, F32.sign_neg, F32.mag_neg]
  cases a.sign <;> simp

@[simp] theorem F32.key_neg (a : F32) : a.neg.key = -a.key := by
  simp only [F32.key, F32.sign_neg, F32.mag_neg]
  cases a.sign <;> simp

theorem F32.lt_iff {a b : F32} : a.lt b = true ↔ a.isNaN = false ∧ b.isNaN = false ∧ a.key < b.key := by
  simp [F32.lt, ordered, and_assoc]

theorem F32.le_iff {a b : F32} : a.le b = true ↔ a.isNaN = false ∧ b.isNaN = false ∧ a.key ≤ b.key := by
  simp [F32.le, ordered, and_assoc]

theorem F32.gt_iff {a b : F32} : a.gt b = true ↔ b.isNaN = false ∧ a.isNaN = false ∧ b.key < a.key := F32.lt_iff

theorem F32.ge_iff {a b : F32} : a.ge b = true ↔ b.isNaN = false ∧ a.isNaN = false ∧ b.key ≤ a.key := F32.le_iff

/-- Every comparison but `!=` is false on a NaN (R21). -/
theorem F32.lt_of_nan {a b : F32} (h : a.isNaN = true ∨ b.isNaN = true) : a.lt b = false := by
  rcases h with h | h <;> simp [F32.lt, ordered, h]

/-- A clamp gives a NaN for a NaN, and otherwise a value between its bounds (R22). -/
theorem F32.clamp_range {x lo hi : F32} (hlo : lo.isNaN = false) (hhi : hi.isNaN = false) (hle : lo.key ≤ hi.key) :
    (x.isNaN = true ∧ x.clamp lo hi = x) ∨
      ((x.clamp lo hi).isNaN = false ∧ lo.key ≤ (x.clamp lo hi).key ∧ (x.clamp lo hi).key ≤ hi.key) := by
  rcases hx : x.isNaN with _ | _
  · right
    by_cases h1 : x.lt lo = true
    · rw [F32.clamp, if_pos h1]
      exact ⟨hlo, le_refl _, hle⟩
    · by_cases h2 : x.gt hi = true
      · rw [F32.clamp, if_neg h1, if_pos h2]
        exact ⟨hhi, hle, le_refl _⟩
      · rw [F32.clamp, if_neg h1, if_neg h2]
        simp [F32.gt, F32.lt, ordered, hx, hlo, hhi] at h1 h2
        exact ⟨hx, h1, h2⟩
  · left
    refine ⟨rfl, ?_⟩
    simp [F32.clamp, F32.gt, F32.lt_of_nan, hx]

/-- The sum of two finite values is the exact sum, rounded once; an exact zero has a sign of its own (R20). -/
theorem sumOr_finite {nan a b : F32} (ha : a.isFinite = true) (hb : b.isFinite = true) :
    sumOr nan a b =
      if a.value + b.value = 0 then F32.ofSignMag (a.sign && b.sign) 0
      else F32.ofSignMag (decide (a.value + b.value < 0)) (roundMag (a.value + b.value).natAbs 1) := by
  rw [F32.isFinite_iff] at ha hb
  have na : a.isNaN = false := F32.isNaN_false_iff.2 (by omega)
  have nb : b.isNaN = false := F32.isNaN_false_iff.2 (by omega)
  have ia : a.isInf = false := by simp [F32.isInf]; omega
  have ib : b.isInf = false := by simp [F32.isInf]; omega
  simp [sumOr, na, nb, ia, ib]

/-- A sum with a NaN operand is the NaN result. -/
theorem sumOr_nan {nan a b : F32} (h : a.isNaN = true ∨ b.isNaN = true) : sumOr nan a b = nan := by
  rcases h with h | h <;> simp [sumOr, h]

theorem F32.isNaN_add_of_nan {a b : F32} (h : a.isNaN = true ∨ b.isNaN = true) : (a.add b).isNaN = true := by
  rw [F32.add, sumOr_nan h]; simp

theorem F32.isNaN_sub_of_nan {a b : F32} (h : a.isNaN = true ∨ b.isNaN = true) : (a.sub b).isNaN = true := by
  rw [F32.sub, sumOr_nan (by simpa using h)]; simp

theorem F32.isNaN_mul_of_nan {a b : F32} (h : a.isNaN = true ∨ b.isNaN = true) : (a.mul b).isNaN = true := by
  rcases h with h | h <;> simp [F32.mul, h]

theorem F32.isNaN_div_of_nan {a b : F32} (h : a.isNaN = true ∨ b.isNaN = true) : (a.div b).isNaN = true := by
  rcases h with h | h <;> simp [F32.div, h]

theorem F32.isNaN_wrap_of_nan {a : F32} (h : a.isNaN = true) : a.wrap.isNaN = true := by
  rw [F32.wrap]; exact F32.isNaN_sub_of_nan (.inl h)

/-! ### Bounds of a rounded sum: rounding is monotone, so a bound that is a binary32 value survives it -/

theorem F32.key_ofSignMag {neg : Bool} {m : Nat} (h : m < 2 ^ 31) :
    (F32.ofSignMag neg m).key = if neg then -(m : Int) else (m : Int) := by
  simp [F32.key, F32.sign_ofSignMag h, F32.mag_ofSignMag h]

/-- The key of a rounded sum of finite values is the exact sum's magnitude pattern, signed. -/
theorem sumOr_key {nan a b : F32} (ha : a.isFinite = true) (hb : b.isFinite = true) :
    (sumOr nan a b).isNaN = false ∧
      (sumOr nan a b).key =
        if a.value + b.value < 0 then -(roundMag (a.value + b.value).natAbs 1 : Int)
        else (roundMag (a.value + b.value).natAbs 1 : Int) := by
  rw [sumOr_finite ha hb]
  generalize a.value + b.value = x
  have hr := roundMag_lt x.natAbs 1
  by_cases hx : x = 0
  · subst hx
    have h0 : roundMag (0 : Int).natAbs 1 = 0 := by decide
    rw [if_pos rfl, h0, F32.isNaN_false_iff, F32.mag_ofSignMag (by decide), F32.key_ofSignMag (by decide)]
    exact ⟨by decide, by cases (a.sign && b.sign) <;> simp⟩
  · rw [if_neg hx, F32.isNaN_false_iff, F32.mag_ofSignMag hr, F32.key_ofSignMag hr]
    exact ⟨roundMag_le _ _, by simp⟩

/-- Keys of patterns from values: the pattern of a non-negative number of units is its rounding. -/
theorem roundMag_natAbs_value {c : F32} (hc : c.isNaN = false) : roundMag c.value.natAbs 1 = c.mag := by
  have h : c.value.natAbs = unitsOf c.mag := by simp only [F32.value]; split <;> omega
  rw [h, roundMag_unitsOf_one (F32.isNaN_false_iff.1 hc)]

/-- A rounded sum is at most any binary32 value that the exact sum is at most. -/
theorem sumOr_le {nan a b c : F32} (ha : a.isFinite = true) (hb : b.isFinite = true) (hc : c.isNaN = false)
    (h : a.value + b.value ≤ c.value) : (sumOr nan a b).key ≤ c.key := by
  rw [(sumOr_key ha hb).2]
  generalize a.value + b.value = x at h
  have e := roundMag_natAbs_value hc
  have z := unitsOf_eq_zero_iff (m := c.mag)
  have hv : c.value = if c.sign then -(unitsOf c.mag : Int) else (unitsOf c.mag : Int) := rfl
  have hk : c.key = if c.sign then -(c.mag : Int) else (c.mag : Int) := rfl
  by_cases hx : x < 0
  · rw [if_pos hx]
    cases hs : c.sign
    · simp only [hs] at hk; simp at hk; omega
    · simp only [hs] at hv hk
      simp at hv hk
      have := roundMag_mono (d := 1) (show c.value.natAbs ≤ x.natAbs by omega)
      omega
  · rw [if_neg hx]
    cases hs : c.sign
    · simp only [hs] at hv hk
      have := roundMag_mono (d := 1) (show x.natAbs ≤ c.value.natAbs by simp at hv; omega)
      simp at hk; omega
    · simp only [hs] at hv hk
      simp at hv hk
      have hx0 : x = 0 := by omega
      have h0 : roundMag (0 : Int).natAbs 1 = 0 := by decide
      subst hx0; rw [h0]; omega

/-- A rounded sum is at least any binary32 value that the exact sum is at least. -/
theorem sumOr_ge {nan a b c : F32} (ha : a.isFinite = true) (hb : b.isFinite = true) (hc : c.isNaN = false)
    (h : c.value ≤ a.value + b.value) : c.key ≤ (sumOr nan a b).key := by
  have ha' : a.neg.isFinite = true := by simpa [F32.isFinite] using ha
  have hb' : b.neg.isFinite = true := by simpa [F32.isFinite] using hb
  have h1 := sumOr_le (nan := nan) (c := c.neg) ha' hb' (by simpa using hc) (by simp only [F32.value_neg]; omega)
  rw [(sumOr_key ha' hb').2, F32.key_neg, F32.value_neg, F32.value_neg] at h1
  rw [(sumOr_key ha hb).2]
  have hn : (-a.value + -b.value).natAbs = (a.value + b.value).natAbs := by omega
  have h0 : a.value + b.value = 0 → roundMag (a.value + b.value).natAbs 1 = 0 := by intro e; rw [e]; decide
  rw [hn] at h1
  split at h1 <;> split <;> omega

end Sys2Proof
end

