-- ==== Sys2Proof/Laws/State.lean ====
section
/-! SUPPORT. One lemma per field per update, true by definition, so that no later proof unfolds a record update. -/

namespace Sys2Proof.Machine

section CoreUpdates
variable (c : CoreState) (a : AgcState) (l : PllState) (f : CrfState) (h : HoldState) (k : CorState) (r : SeqRegs)

@[simp] theorem CoreState.withAgc_agc : (c.withAgc a).agc = a := rfl
@[simp] theorem CoreState.withAgc_pll : (c.withAgc a).pll = c.pll := rfl
@[simp] theorem CoreState.withAgc_crf : (c.withAgc a).crf = c.crf := rfl
@[simp] theorem CoreState.withAgc_hold : (c.withAgc a).hold = c.hold := rfl
@[simp] theorem CoreState.withAgc_cor : (c.withAgc a).cor = c.cor := rfl
@[simp] theorem CoreState.withAgc_seq : (c.withAgc a).seq = c.seq := rfl

@[simp] theorem CoreState.withPll_agc : (c.withPll l).agc = c.agc := rfl
@[simp] theorem CoreState.withPll_pll : (c.withPll l).pll = l := rfl
@[simp] theorem CoreState.withPll_crf : (c.withPll l).crf = c.crf := rfl
@[simp] theorem CoreState.withPll_hold : (c.withPll l).hold = c.hold := rfl
@[simp] theorem CoreState.withPll_cor : (c.withPll l).cor = c.cor := rfl
@[simp] theorem CoreState.withPll_seq : (c.withPll l).seq = c.seq := rfl

@[simp] theorem CoreState.withCrf_agc : (c.withCrf f).agc = c.agc := rfl
@[simp] theorem CoreState.withCrf_pll : (c.withCrf f).pll = c.pll := rfl
@[simp] theorem CoreState.withCrf_crf : (c.withCrf f).crf = f := rfl
@[simp] theorem CoreState.withCrf_hold : (c.withCrf f).hold = c.hold := rfl
@[simp] theorem CoreState.withCrf_cor : (c.withCrf f).cor = c.cor := rfl
@[simp] theorem CoreState.withCrf_seq : (c.withCrf f).seq = c.seq := rfl

@[simp] theorem CoreState.withHold_agc : (c.withHold h).agc = c.agc := rfl
@[simp] theorem CoreState.withHold_pll : (c.withHold h).pll = c.pll := rfl
@[simp] theorem CoreState.withHold_crf : (c.withHold h).crf = c.crf := rfl
@[simp] theorem CoreState.withHold_hold : (c.withHold h).hold = h := rfl
@[simp] theorem CoreState.withHold_cor : (c.withHold h).cor = c.cor := rfl
@[simp] theorem CoreState.withHold_seq : (c.withHold h).seq = c.seq := rfl

@[simp] theorem CoreState.withCor_agc : (c.withCor k).agc = c.agc := rfl
@[simp] theorem CoreState.withCor_pll : (c.withCor k).pll = c.pll := rfl
@[simp] theorem CoreState.withCor_crf : (c.withCor k).crf = c.crf := rfl
@[simp] theorem CoreState.withCor_hold : (c.withCor k).hold = c.hold := rfl
@[simp] theorem CoreState.withCor_cor : (c.withCor k).cor = k := rfl
@[simp] theorem CoreState.withCor_seq : (c.withCor k).seq = c.seq := rfl

@[simp] theorem CoreState.withSeq_agc : (c.withSeq r).agc = c.agc := rfl
@[simp] theorem CoreState.withSeq_pll : (c.withSeq r).pll = c.pll := rfl
@[simp] theorem CoreState.withSeq_crf : (c.withSeq r).crf = c.crf := rfl
@[simp] theorem CoreState.withSeq_hold : (c.withSeq r).hold = c.hold := rfl
@[simp] theorem CoreState.withSeq_cor : (c.withSeq r).cor = c.cor := rfl
@[simp] theorem CoreState.withSeq_seq : (c.withSeq r).seq = r := rfl

end CoreUpdates

section SeqUpdates
variable (r : SeqRegs)

@[simp] theorem SeqRegs.clearFlags_state : r.clearFlags.state = r.state := rfl
@[simp] theorem SeqRegs.clearFlags_skippedSamples : r.clearFlags.skippedSamples = r.skippedSamples := rfl
@[simp] theorem SeqRegs.clearFlags_carrierSyncCount : r.clearFlags.carrierSyncCount = r.carrierSyncCount := rfl
@[simp] theorem SeqRegs.clearFlags_decisionPhase : r.clearFlags.decisionPhase = r.decisionPhase := rfl
@[simp] theorem SeqRegs.clearFlags_decide : r.clearFlags.decide = false := rfl
@[simp] theorem SeqRegs.clearFlags_emit : r.clearFlags.emit = false := rfl
@[simp] theorem SeqRegs.clearFlags_outSymbol : r.clearFlags.outSymbol = r.outSymbol := rfl

@[simp] theorem SeqRegs.setDecide_state : r.setDecide.state = r.state := rfl
@[simp] theorem SeqRegs.setDecide_skippedSamples : r.setDecide.skippedSamples = r.skippedSamples := rfl
@[simp] theorem SeqRegs.setDecide_carrierSyncCount : r.setDecide.carrierSyncCount = r.carrierSyncCount := rfl
@[simp] theorem SeqRegs.setDecide_decisionPhase : r.setDecide.decisionPhase = r.decisionPhase := rfl
@[simp] theorem SeqRegs.setDecide_decide : r.setDecide.decide = true := rfl
@[simp] theorem SeqRegs.setDecide_emit : r.setDecide.emit = r.emit := rfl
@[simp] theorem SeqRegs.setDecide_outSymbol : r.setDecide.outSymbol = r.outSymbol := rfl

end SeqUpdates

section StateUpdates
variable (s : State) (c : CoreState) (rest : List PortEvent) (code : RespCode) (dout : DataWord)

@[simp] theorem State.withCore_core : (s.withCore c).core = c := rfl
@[simp] theorem State.withCore_port : (s.withCore c).port = s.port := rfl

@[simp] theorem State.withInputs_core : (s.withInputs rest).core = s.core := rfl
@[simp] theorem State.withInputs_inputs : (s.withInputs rest).port.inputs = rest := rfl
@[simp] theorem State.withInputs_response : (s.withInputs rest).port.response = none := rfl

@[simp] theorem State.respond_core : (s.respond code dout).core = s.core := rfl
@[simp] theorem State.respond_inputs : (s.respond code dout).port.inputs = s.port.inputs := rfl
@[simp] theorem State.respond_response : (s.respond code dout).port.response = some ⟨code, dout⟩ := rfl

@[simp] theorem State.respondDone_core : (s.respondDone dout).core = s.core := rfl
@[simp] theorem State.respondDone_inputs : (s.respondDone dout).port.inputs = s.port.inputs := rfl
@[simp] theorem State.respondDone_response : (s.respondDone dout).port.response = some ⟨.done, dout⟩ := rfl

@[simp] theorem raiseIllegal_core : (raiseIllegal s).core = s.core := rfl
@[simp] theorem raiseIllegal_inputs : (raiseIllegal s).port.inputs = s.port.inputs := rfl
@[simp] theorem raiseIllegal_response : (raiseIllegal s).port.response = some ⟨.illegal, 0⟩ := rfl

@[simp] theorem idle_core : (idle s).core = s.core := rfl
@[simp] theorem idle_inputs : (idle s).port.inputs = [] := rfl
@[simp] theorem idle_response : (idle s).port.response = none := rfl

@[simp] theorem powerOnReset_core (p : Params) : (powerOnReset p s rest).core = resetState p s.core := rfl
@[simp] theorem powerOnReset_inputs (p : Params) : (powerOnReset p s rest).port.inputs = rest := rfl
@[simp] theorem powerOnReset_response (p : Params) : (powerOnReset p s rest).port.response = none := rfl

end StateUpdates

end Sys2Proof.Machine
end

