-- ==== Sys2Proof/Laws/Ops.lean ====
section
/-! SUPPORT. One lemma for each shared operation of Machine/Ops.lean, saying once what it does. -/

namespace Sys2Proof.Machine

theorem windowWrite_toList {α : Type} {n : Nat} (w : Vector α (n + 1)) (x : α) :
    (windowWrite w x).toList = x :: w.toList.dropLast := by
  simp [windowWrite]

/-- The newest entry of a written window is the value written (R32). -/
@[simp] theorem windowWrite_zero {α : Type} {n : Nat} (w : Vector α (n + 1)) (x : α) : (windowWrite w x)[0] = x := by
  simp [windowWrite]

/-- Every other entry was one place younger before the write (R32). -/
theorem windowWrite_succ {α : Type} {n : Nat} (w : Vector α (n + 1)) (x : α) (k : Nat) (h : k < n) :
    (windowWrite w x)[k + 1] = w[k] := by
  simp [windowWrite]

/-- A member of a written window is the value written or an old member (R32). -/
theorem mem_windowWrite {α : Type} {n : Nat} {w : Vector α (n + 1)} {x y : α} (h : y ∈ (windowWrite w x).toList) :
    y = x ∨ y ∈ w.toList := by
  rw [windowWrite_toList] at h
  rcases List.mem_cons.1 h with h | h
  · exact .inl h
  · exact .inr (List.mem_of_mem_dropLast h)

/-- A write keeps the length of a history (R32). -/
@[simp] theorem historyWrite_length {α : Type} (w : List α) (x : α) : (historyWrite w x).length = w.length := by
  simp [historyWrite]

/-- What a history holds after a write (R32). -/
theorem historyRead_historyWrite {α : Type} (w : List α) (x : α) (k : Nat) :
    historyRead (historyWrite w x) k =
      if k < w.length then (match k with | 0 => some x | j + 1 => historyRead w j) else none := by
  simp only [historyRead, historyWrite, List.getElem?_take]
  split <;> cases k <;> simp_all

/-- A history read answers exactly inside the window (R32, I21). -/
theorem historyRead_isSome {α : Type} (w : List α) (k : Nat) : (historyRead w k).isSome = decide (k < w.length) := by
  rcases Nat.lt_or_ge k w.length with h | h <;> simp [historyRead, h]

/-- A saturating counter adds one until it is full, and then holds (R272). -/
theorem satIncr_toNat (c : BitVec 32) : (satIncr c).toNat = min (c.toNat + 1) (2 ^ 32 - 1) := by
  have := c.isLt
  simp only [satIncr, BitVec.toNat_ofNat]
  omega

/-- ResetState leaves the state of power-on reset, whatever was there before (R380, R381). -/
theorem resetState_eq (p : Params) (c : CoreState) : resetState p c = CoreState.zeroed p.n := rfl

/-- The first word put to the fetch is the first input of the port. -/
theorem offerNext_inputs (c : Command) (s : State) :
    (offerNext c s).port.inputs = .command c :: s.port.inputs.tail := rfl

theorem offerNext_core (c : Command) (s : State) : (offerNext c s).core = s.core := rfl

end Sys2Proof.Machine
end

