-- ==== Sys2Proof/Laws/PerInstr.lean ====
section
/-! SUPPORT. Claims about instructions as syntax, made per instruction. -/

namespace Sys2Proof.Laws

/-- The word of an instruction is one of the seventeen legal words (R106, R108). -/
def EncodesLegal.Statement (i : Instr) : Prop := (encode i).wellFormed = true

theorem EncodesLegal.nop : EncodesLegal.Statement .nop := rfl
theorem EncodesLegal.init : EncodesLegal.Statement .init := rfl
theorem EncodesLegal.reset : EncodesLegal.Statement .reset := rfl
theorem EncodesLegal.beginCarrierSync : EncodesLegal.Statement .beginCarrierSync := rfl
theorem EncodesLegal.process (din : DataWord) : EncodesLegal.Statement (.process din) := rfl
theorem EncodesLegal.readStatus : EncodesLegal.Statement .readStatus := rfl
theorem EncodesLegal.readPllPhase : EncodesLegal.Statement .readPllPhase := rfl
theorem EncodesLegal.readPllError : EncodesLegal.Statement .readPllError := rfl
theorem EncodesLegal.readPllStep : EncodesLegal.Statement .readPllStep := rfl
theorem EncodesLegal.readDecisionPhase : EncodesLegal.Statement .readDecisionPhase := rfl
theorem EncodesLegal.readSignalPower : EncodesLegal.Statement .readSignalPower := rfl
theorem EncodesLegal.readRecoveredI : EncodesLegal.Statement .readRecoveredI := rfl
theorem EncodesLegal.readRecoveredQ : EncodesLegal.Statement .readRecoveredQ := rfl
theorem EncodesLegal.readCorrelation : EncodesLegal.Statement .readCorrelation := rfl
theorem EncodesLegal.readAgc : EncodesLegal.Statement .readAgc := rfl
theorem EncodesLegal.readOutSymbol : EncodesLegal.Statement .readOutSymbol := rfl
theorem EncodesLegal.readConfig : EncodesLegal.Statement .readConfig := rfl

end Sys2Proof.Laws
end

