-- ==== Sys2Proof/Laws/Sequencer.lean ====
section
/-! SUPPORT. What each block operation leaves alone, and what one sample can do: one inversion lemma per state of the
sequencer, and one for the whole per-sample procedure. -/

namespace Sys2Proof.Machine

/-! ### Frames of the block operations -/

@[simp] theorem hpf_level (p : Params) (x : F32) (a : AgcState) : (hpf p x a).2.level = a.level := rfl
@[simp] theorem hpf_gain (p : Params) (x : F32) (a : AgcState) : (hpf p x a).2.gain = a.gain := rfl
@[simp] theorem follow_hpfLp (p : Params) (m : F32) (a : AgcState) : (follow p m a).hpfLp = a.hpfLp := rfl
@[simp] theorem follow_gain (p : Params) (m : F32) (a : AgcState) : (follow p m a).gain = a.gain := rfl
@[simp] theorem initialGain_hpfLp (l : F32) (a : AgcState) : (initialGain l a).hpfLp = a.hpfLp := rfl
@[simp] theorem initialGain_level (l : F32) (a : AgcState) : (initialGain l a).level = a.level := rfl
@[simp] theorem agcProcess_hpfLp (v r : V) (k : F32) (a : AgcState) : (agcProcess v r k a).hpfLp = a.hpfLp := rfl
@[simp] theorem agcProcess_level (v r : V) (k : F32) (a : AgcState) : (agcProcess v r k a).level = a.level := rfl

@[simp] theorem processError_phase (p : Params) (e : F32) (l : PllState) : (processError p e l).phase = l.phase := rfl
@[simp] theorem processError_prevPhase (p : Params) (e : F32) (l : PllState) :
    (processError p e l).prevPhase = l.prevPhase := rfl
@[simp] theorem processError_error (p : Params) (e : F32) (l : PllState) : (processError p e l).error = e := rfl

@[simp] theorem ncoStep_prevPhase (l : PllState) : (ncoStep l).prevPhase = l.phase := rfl
@[simp] theorem ncoStep_phase (l : PllState) : (ncoStep l).phase = (l.phase.add l.step).wrap := rfl
@[simp] theorem ncoStep_step (l : PllState) : (ncoStep l).step = l.step := rfl
@[simp] theorem ncoStep_acc (l : PllState) : (ncoStep l).acc = l.acc := rfl
@[simp] theorem ncoStep_error (l : PllState) : (ncoStep l).error = l.error := rfl

/-- A trigger reads the phase pair only, which `ProcessError` does not write (R163). -/
@[simp] theorem phaseTrigger_processError (p : Params) (e t : F32) (l : PllState) :
    phaseTrigger t (processError p e l) = phaseTrigger t l := rfl

@[simp] theorem selectTrigger_processError (p : Params) (e : F32) (l : PllState) :
    selectTrigger (processError p e l) = selectTrigger l := rfl

/-- A selected trigger is the `0`-trigger, or the `0.5`-trigger when there is no `0`-trigger (R286). -/
theorem selectTrigger_cases {l : PllState} {d : F32} (h : selectTrigger l = some d) :
    phaseTrigger F32.zero l = some d ∨ (phaseTrigger F32.zero l = none ∧ phaseTrigger half l = some d) := by
  cases h0 : phaseTrigger F32.zero l with
  | none => exact .inr ⟨rfl, by simpa [selectTrigger, h0] using h⟩
  | some d0 => exact .inl (by simpa [selectTrigger, h0] using h)

/-- When a trigger fires, and with which delay (R163). -/
theorem phaseTrigger_cases {t d : F32} {l : PllState} (h : phaseTrigger t l = some d) :
    ((l.phase.sub t).wrap.lt (l.prevPhase.sub t).wrap = true ∧ l.phase.ne l.prevPhase = true) ∧
      d = (l.phase.sub t).wrap.div (l.phase.sub l.prevPhase).wrap := by
  simp only [phaseTrigger] at h
  split at h
  · rename_i hc
    simp only [Bool.and_eq_true] at hc
    exact ⟨hc, by simpa using h.symm⟩
  · cases h

/-- There is no trigger exactly when the condition of R163 fails. -/
theorem phaseTrigger_eq_none_iff {t : F32} {l : PllState} :
    phaseTrigger t l = none ↔
      ¬((l.phase.sub t).wrap.lt (l.prevPhase.sub t).wrap = true ∧ l.phase.ne l.prevPhase = true) := by
  simp only [phaseTrigger]
  split <;> simp_all

/-! ### The filter -/

/-- A section shifts both histories by one: the input and the output become their newest entries (R191). -/
theorem biquad_windows (k : BiquadCoef) (u : V) (b : BiquadState) :
    (biquad k u b).2.x = windowWrite b.x u ∧ (biquad k u b).2.y = windowWrite b.y (biquad k u b).1 := ⟨rfl, rfl⟩

/-! ### The correlator -/

@[simp] theorem valleyReset_v (x : F32) (c : CorState) : (valleyReset x c).v = c.v := by
  unfold valleyReset; split <;> rfl
@[simp] theorem valleyReset_phase (x : F32) (c : CorState) : (valleyReset x c).phase = c.phase := by
  unfold valleyReset; split <;> rfl
@[simp] theorem valleyReset_hist (x : F32) (c : CorState) : (valleyReset x c).hist = c.hist := by
  unfold valleyReset; split <;> rfl
@[simp] theorem valleyReset_dec (x : F32) (c : CorState) : (valleyReset x c).dec = c.dec := by
  unfold valleyReset; split <;> rfl
@[simp] theorem valleyReset_peaks (x : F32) (c : CorState) : (valleyReset x c).peaks = c.peaks := by
  unfold valleyReset; split <;> rfl

/-- The maximum after the valley reset (R217). -/
theorem valleyReset_max (x : F32) (c : CorState) :
    (valleyReset x c).max = if x.lt F32.zero then F32.zero else c.max := by
  unfold valleyReset; split <;> rfl

/-- The correlation value of an invocation is that of the window with the new value in it (R219). -/
def correlationOf (u : V) (c : CorState) : F32 := correlationValue (windowWrite c.v u)

/-- The windows and the maximum after one invocation (R211, R213, R217, R219). -/
theorem correlate_windows (p : Params) (ph : F32) (u : V) (c : CorState) :
    (correlate p ph u c).2.v = windowWrite c.v u ∧
      (correlate p ph u c).2.phase = windowWrite c.phase ph ∧
      (correlate p ph u c).2.hist = windowWrite c.hist (correlationOf u c) ∧
      (correlate p ph u c).2.max =
        (if (correlationOf u c).lt F32.zero then F32.zero
          else if (correlationOf u c).gt c.max then correlationOf u c else c.max) := by
  have hx : correlationValue (corPush ph u c).v = correlationOf u c := rfl
  refine ⟨?_, ?_, ?_, ?_⟩ <;> simp only [correlate, hx] <;> split <;>
    simp [corVote, corUpdate, corPush, valleyReset_max] <;> rfl

/-- The correlation value, written out for both lanes of the pattern (R210, R212). -/
theorem correlationValue_eq (w : Vector V 8) :
    correlationValue w =
      (((((((F32.zero.add (corTerm oneNeg oneNeg w[0])).add (corTerm oneNeg F32.zero w[1])).add
        (corTerm oneNeg one w[2])).add (corTerm F32.zero one w[3])).add (corTerm one one w[4])).add
        (corTerm one F32.zero w[5])).add (corTerm one oneNeg w[6])).add (corTerm F32.zero oneNeg w[7]) := by
  obtain ⟨⟨l⟩, hl⟩ := w
  match l, hl with
  | [_, _, _, _, _, _, _, _], _ => rfl

/-- The correlator between the push and the vote: the history and the maximum that the peak test reads (R213, R219). -/
def correlateFront (ph : F32) (u : V) (c : CorState) : CorState := corUpdate (correlationOf u c) (corPush ph u c)

/-- What one invocation does with the votes: on a peak one more vote and a count that saturates at four, and nothing
without one (R214-R216, R219). -/
theorem correlate_votes (p : Params) (ph : F32) (u : V) (c : CorState) :
    let f := correlateFront ph u c
    let t := (correlate p ph u c).2
    (peakTest f = false ∧ t.dec = c.dec ∧ t.peaks = c.peaks) ∨
      (peakTest f = true ∧
        t.dec =
          windowWrite c.dec
            (F32.lerp (p.cosCyc f.phase[1].wrap)
              (p.cosCyc (if (corTilt f).lt F32.zero then f.phase[2] else f.phase[0]).wrap) (corTilt f).abs) ∧
        t.peaks = BitVec.ofNat 3 (min (c.peaks.toNat + 1) 4)) := by
  have ht : ∀ x c', corTilt (valleyReset x c') = corTilt c' := fun x c' => by simp only [corTilt, valleyReset_hist]
  have hf : corUpdate (correlationValue (corPush ph u c).v) (corPush ph u c) = correlateFront ph u c := rfl
  dsimp only
  cases hp : peakTest (correlateFront ph u c)
  · left
    simp only [correlate, hf, hp, Bool.false_eq_true, if_false, valleyReset_dec, valleyReset_peaks, true_and]
    exact ⟨rfl, rfl⟩
  · right
    simp only [correlate, hf, hp, if_true, corVote, ht, valleyReset_dec, valleyReset_peaks, valleyReset_phase, true_and]
    exact ⟨rfl, rfl⟩

/-- A result is given exactly when four peaks have been collected, and is `+0.0` or `0.5` (R218). -/
theorem correlate_result (p : Params) (ph : F32) (u : V) (c : CorState) :
    (correlate p ph u c).1 = corResult (correlate p ph u c).2 := rfl

theorem corResult_cases {c : CorState} {r : F32} (h : corResult c = some r) :
    4 ≤ c.peaks.toNat ∧ (r = F32.zero ∨ r = half) := by
  simp only [corResult] at h
  split at h
  · rename_i h4
    refine ⟨h4, ?_⟩
    simp only [Option.some.injEq] at h
    split at h
    · exact .inl h.symm
    · exact .inr h.symm
  · cases h

/-! ### The states of the sequencer -/

/-- What a sample in `WAIT_TO_SETTLE` does (R281). -/
theorem waitToSettle_cases (p : Params) (lvl : F32) (c : CoreState) :
    (settled p (satIncr c.seq.skippedSamples).toNat = true ∧ lvl.gt levelThreshold = true ∧
        waitToSettle p lvl c = c.withSeq { c.seq with state := .senseGain, skippedSamples := 0 }) ∨
      (¬(settled p (satIncr c.seq.skippedSamples).toNat = true ∧ lvl.gt levelThreshold = true) ∧
        waitToSettle p lvl c = c.withSeq { c.seq with skippedSamples := satIncr c.seq.skippedSamples }) := by
  simp only [waitToSettle]
  split
  · rename_i h
    simp only [Bool.and_eq_true] at h
    exact .inl ⟨h.1, h.2, rfl⟩
  · rename_i h
    simp only [Bool.and_eq_true] at h
    exact .inr ⟨h, rfl⟩

/-- What a sample in `SENSE_GAIN` does (R282). -/
theorem senseGain_cases (p : Params) (lvl : F32) (c : CoreState) :
    (lvl.gt levelThreshold = false ∧
        senseGain p lvl c = c.withSeq { c.seq with state := .waitToSettle, skippedSamples := 0 }) ∨
      (lvl.gt levelThreshold = true ∧ settled p (satIncr c.seq.skippedSamples).toNat = true ∧
        senseGain p lvl c =
          (c.withAgc (initialGain lvl c.agc)).withSeq
            { c.seq with state := .carrierSync, carrierSyncCount := 0, skippedSamples := 0 }) ∨
      (lvl.gt levelThreshold = true ∧ settled p (satIncr c.seq.skippedSamples).toNat = false ∧
        senseGain p lvl c = c.withSeq { c.seq with skippedSamples := satIncr c.seq.skippedSamples }) := by
  cases hl : lvl.gt levelThreshold <;> cases hs : settled p (satIncr c.seq.skippedSamples).toNat <;>
    simp [senseGain, hl, hs]

/-- What a demodulated sample in `CARRIER_SYNC` does (R291). -/
theorem carrierSync_cases (p : Params) (v : V) (c : CoreState) :
    (phaseTrigger F32.zero c.pll = none ∧
        carrierSync p v c = c.withPll (processError p (syncError v) c.pll)) ∨
      (∃ d, phaseTrigger F32.zero c.pll = some d ∧ decideSymbol v = carrierSyncSymbol ∧
        carrierSync p v c =
          ((c.withPll (processError p (syncError v) c.pll)).withAgc
              (agcProcess v carrierSyncVector agcFast c.agc)).withSeq
            { c.seq.setDecide with
              carrierSyncCount := satIncr c.seq.carrierSyncCount
              state := if syncLongEnough p (satIncr c.seq.carrierSyncCount).toNat then .carrierLock
                else c.seq.state }) ∨
      (∃ d, phaseTrigger F32.zero c.pll = some d ∧ decideSymbol v ≠ carrierSyncSymbol ∧
        carrierSync p v c =
          (c.withPll (processError p (syncError v) c.pll)).withSeq { c.seq.setDecide with carrierSyncCount := 0 }) := by
  cases ht : phaseTrigger F32.zero c.pll with
  | none => exact .inl ⟨rfl, by simp [carrierSync, ht]⟩
  | some d =>
    by_cases hd : decideSymbol v = carrierSyncSymbol
    · exact .inr (.inl ⟨d, rfl, hd, by simp [carrierSync, ht, hd]; rfl⟩)
    · exact .inr (.inr ⟨d, rfl, hd, by simp [carrierSync, ht, hd]⟩)

/-- What a demodulated sample in `CARRIER_LOCK` does (R292). -/
theorem carrierLock_cases (p : Params) (v vq : V) (phi : F32) (c : CoreState) :
    (selectTrigger c.pll = none ∧
        carrierLock p v vq phi c = c.withPll (processError p (decisionError v vq) c.pll)) ∨
      (∃ d seq, selectTrigger c.pll = some d ∧
        ((decideSymbol v = carrierSyncSymbol ∧ seq = c.seq.setDecide) ∨
          (decideSymbol v ≠ carrierSyncSymbol ∧
            seq = { c.seq.setDecide with state := .align, decisionPhase := F32.zero })) ∧
        carrierLock p v vq phi c =
          (((c.withPll (processError p (decisionError v vq) c.pll)).withAgc
              (agcProcess v carrierSyncVector agcFast c.agc)).withCor (correlate p phi v c.cor).2).withSeq seq) := by
  cases ht : selectTrigger c.pll with
  | none => exact .inl ⟨rfl, by simp [carrierLock, ht]⟩
  | some d =>
    right
    by_cases hd : decideSymbol v = carrierSyncSymbol
    · exact ⟨d, _, rfl, .inl ⟨hd, rfl⟩, by simp [carrierLock, ht, hd]⟩
    · exact ⟨d, _, rfl, .inr ⟨hd, rfl⟩, by simp [carrierLock, ht, hd]⟩

/-- What a demodulated sample in `ALIGN` does, when it answers (R293). -/
theorem align_cases {p : Params} {v vq : V} {phi : F32} {c c' : CoreState} (h : align p v vq phi c = some c') :
    (selectTrigger c.pll = none ∧ c' = c.withPll (processError p (decisionError v vq) c.pll)) ∨
      (∃ d u seq, selectTrigger c.pll = some d ∧ sampleSymbol p d c.hold.vHist = some u ∧
        (((correlate p phi u c.cor).1 = none ∧ seq = c.seq.setDecide) ∨
          (∃ r, (correlate p phi u c.cor).1 = some r ∧
            seq = { c.seq.setDecide with decisionPhase := r, state := .ok })) ∧
        c' = ((c.withPll (processError p (decisionError v vq) c.pll)).withCor
          (correlate p phi u c.cor).2).withSeq seq) := by
  cases ht : selectTrigger c.pll with
  | none => exact .inl ⟨rfl, by simpa [align, ht] using h.symm⟩
  | some d =>
    right
    cases hs : sampleSymbol p d c.hold.vHist with
    | none => simp [align, ht, hs] at h
    | some u =>
      cases hr : (correlate p phi u c.cor).1 with
      | none =>
        refine ⟨d, u, _, rfl, hs, .inl ⟨hr, rfl⟩, ?_⟩
        simpa [align, ht, hs, hr] using h.symm
      | some r =>
        refine ⟨d, u, _, rfl, hs, .inr ⟨r, hr, rfl⟩, ?_⟩
        simpa [align, ht, hs, hr] using h.symm

/-- What a demodulated sample in `OK` does (R294, R295). -/
theorem data_cases (p : Params) (v vq : V) (phi : F32) (c : CoreState) :
    (phaseTrigger c.seq.decisionPhase c.pll = none ∧
        data p v vq phi c = c.withPll (processError p (gatedError p v vq phi c.seq.decisionPhase) c.pll)) ∨
      (∃ d, phaseTrigger c.seq.decisionPhase c.pll = some d ∧
        data p v vq phi c =
          ((c.withPll (processError p (gatedError p v vq phi c.seq.decisionPhase) c.pll)).withAgc
              (agcProcess v vq agcSlow c.agc)).withSeq
            { c.seq.setDecide with outSymbol := decideSymbol v, emit := true }) := by
  cases ht : phaseTrigger c.seq.decisionPhase c.pll with
  | none => exact .inl ⟨rfl, by simp [data, ht]⟩
  | some d => exact .inr ⟨d, rfl, by simp [data, ht]⟩

/-! ### The whole sample -/

@[simp] theorem frontEnd_gain (p : Params) (x : F32) (a : AgcState) : (frontEnd p x a).2.gain = a.gain := rfl

@[simp] theorem sampleFront_agc (p : Params) (x : F32) (c : CoreState) :
    (sampleFront p x c).agc = (frontEnd p x c.agc).2 := rfl
@[simp] theorem sampleFront_pll (p : Params) (x : F32) (c : CoreState) : (sampleFront p x c).pll = c.pll := rfl
@[simp] theorem sampleFront_crf (p : Params) (x : F32) (c : CoreState) : (sampleFront p x c).crf = c.crf := rfl
@[simp] theorem sampleFront_hold (p : Params) (x : F32) (c : CoreState) : (sampleFront p x c).hold = c.hold := rfl
@[simp] theorem sampleFront_cor (p : Params) (x : F32) (c : CoreState) : (sampleFront p x c).cor = c.cor := rfl
@[simp] theorem sampleFront_seq (p : Params) (x : F32) (c : CoreState) :
    (sampleFront p x c).seq = c.seq.clearFlags := rfl

@[simp] theorem demodFront_agc (p : Params) (g : F32) (c : CoreState) : (demodFront p g c).agc = c.agc := rfl
@[simp] theorem demodFront_pll (p : Params) (g : F32) (c : CoreState) : (demodFront p g c).pll = c.pll := rfl
@[simp] theorem demodFront_crf (p : Params) (g : F32) (c : CoreState) :
    (demodFront p g c).crf = (baseband p g c).2 := rfl
@[simp] theorem demodFront_hold (p : Params) (g : F32) (c : CoreState) :
    (demodFront p g c).hold =
      { vHist := historyWrite c.hold.vHist (baseband p g c).1, recovered := (baseband p g c).1 } := rfl
@[simp] theorem demodFront_cor (p : Params) (g : F32) (c : CoreState) : (demodFront p g c).cor = c.cor := rfl
@[simp] theorem demodFront_seq (p : Params) (g : F32) (c : CoreState) : (demodFront p g c).seq = c.seq := rfl

/-- The dispatch does not write the filter or the sample-and-hold, and does not move the phase (R285, R290). -/
theorem dispatch_frame {p : Params} {v vq : V} {phi : F32} {c c' : CoreState} (h : dispatch p v vq phi c = some c') :
    c'.crf = c.crf ∧ c'.hold = c.hold ∧ c'.pll.phase = c.pll.phase ∧ c'.pll.prevPhase = c.pll.prevPhase ∧
      c'.agc.hpfLp = c.agc.hpfLp ∧ c'.agc.level = c.agc.level ∧ c'.seq.skippedSamples = c.seq.skippedSamples := by
  unfold dispatch at h
  split at h
  · cases h
    rcases carrierSync_cases p v c with ⟨-, e⟩ | ⟨d, -, -, e⟩ | ⟨d, -, -, e⟩ <;> rw [e] <;> simp
  · cases h
    rcases carrierLock_cases p v vq phi c with ⟨-, e⟩ | ⟨d, seq, -, ⟨-, hs⟩ | ⟨-, hs⟩, e⟩ <;> rw [e] <;>
      simp [*]
  · rcases align_cases h with ⟨-, e⟩ | ⟨d, u, seq, -, -, ⟨-, hs⟩ | ⟨r, -, hs⟩, e⟩ <;> rw [e] <;> simp [*]
  · cases h
    rcases data_cases p v vq phi c with ⟨-, e⟩ | ⟨d, -, e⟩ <;> rw [e] <;> simp
  · cases h; simp
  · cases h; simp
  · cases h; simp

/-- What a demodulated sample does, when it answers (R285, R296): the dispatch, then the NCO step. -/
theorem demodulate_cases {p : Params} {g : F32} {c c' : CoreState} (h : demodulate p g c = some c') :
    ∃ c1, dispatch p (baseband p g c).1 (quantizeV (baseband p g c).1) c.pll.phase (demodFront p g c) = some c1 ∧
      c' = c1.withPll (ncoStep c1.pll) := by
  simp only [demodulate] at h
  split at h
  · cases h
  · rename_i c1 hd
    exact ⟨c1, hd, by simpa using h.symm⟩

/-- What one sample does, when it answers (R276): nothing in `ERROR`, the level gate before acquisition, the loss of
signal in `OK`, and a demodulated sample otherwise. -/
theorem processSample_cases {p : Params} {x : F32} {c c' : CoreState} (h : processSample p x c = some c') :
    (c.seq.state = .error ∧ c' = c) ∨
      (c.seq.state.preAcquisition = true ∧
        c' = levelGate p (sampleFront p x c).agc.level (sampleFront p x c)) ∨
      (c.seq.state = .ok ∧ (sampleFront p x c).agc.level.lt levelThreshold = true ∧
        c' = (sampleFront p x c).withSeq { c.seq.clearFlags with state := .error }) ∨
      (c.seq.state.demodulating = true ∧
        (c.seq.state = .ok → (sampleFront p x c).agc.level.lt levelThreshold = false) ∧
        demodulate p (frontEnd p x c.agc).1 (sampleFront p x c) = some c') := by
  unfold processSample at h
  cases hs : c.seq.state <;> simp [hs, SeqState.preAcquisition, SeqState.demodulating] at h ⊢
  case error => exact h.symm
  case waitToSettle => exact h.symm
  case senseGain => exact h.symm
  case carrierSync => exact h
  case carrierLock => exact h
  case align => exact h
  case ok =>
    cases hl : (frontEnd p x c.agc).2.level.lt levelThreshold
    · simp [hl] at h; exact .inr ⟨rfl, h⟩
    · simp [hl] at h; exact .inl ⟨rfl, h.symm⟩

/-- The core in which the dispatch of a demodulated sample runs, written out (R276, R285). -/
theorem demodFront_sampleFront (p : Params) (x : F32) (c : CoreState) :
    demodFront p (frontEnd p x c.agc).1 (sampleFront p x c) =
      let bb := crf p (mix (frontEnd p x c.agc).1 (localOsc p c.pll.phase)) c.crf
      { agc := (frontEnd p x c.agc).2, pll := c.pll, crf := bb.2
        hold := { vHist := historyWrite c.hold.vHist bb.1, recovered := bb.1 }
        cor := c.cor, seq := c.seq.clearFlags } := rfl

/-- A demodulated sample is the dispatch from that core, then the NCO step (R276, R285, R296). -/
theorem processSample_demodulating (p : Params) (x : F32) (c : CoreState) (h : c.seq.state.demodulating = true)
    (hl : c.seq.state = .ok → (frontEnd p x c.agc).2.level.lt levelThreshold = false) :
    processSample p x c =
      let bb := crf p (mix (frontEnd p x c.agc).1 (localOsc p c.pll.phase)) c.crf
      (dispatch p bb.1 (quantizeV bb.1) c.pll.phase
        { agc := (frontEnd p x c.agc).2, pll := c.pll, crf := bb.2
          hold := { vHist := historyWrite c.hold.vHist bb.1, recovered := bb.1 }
          cor := c.cor, seq := c.seq.clearFlags }).map fun c1 => c1.withPll (ncoStep c1.pll) := by
  have e : processSample p x c = demodulate p (frontEnd p x c.agc).1 (sampleFront p x c) := by
    cases hs : c.seq.state <;> simp_all [processSample, SeqState.preAcquisition, SeqState.demodulating]
  have hb : baseband p (frontEnd p x c.agc).1 (sampleFront p x c) =
      crf p (mix (frontEnd p x c.agc).1 (localOsc p c.pll.phase)) c.crf := rfl
  rw [e, demodulate, demodFront_sampleFront]
  dsimp only
  rw [hb, sampleFront_pll]
  generalize dispatch _ _ _ _ _ = o
  cases o <;> rfl

end Sys2Proof.Machine
end

