-- ==== Sys2Proof/Laws/Step.lean ====
section
/-! SUPPORT. What one instruction and one step can do. -/

namespace Sys2Proof.Machine

/-- `PROCESS` takes a next state exactly when its sample answers, and then answers DONE with the word of R320. -/
theorem execProcess_next_iff {din : DataWord} {s t : State} :
    exec (.process din) s = .next t ↔
      ∃ c, processSample Config.params (sampleOf din) s.core = some c ∧
        t = (s.withCore c).respondDone (processWord c.seq) := by
  simp only [exec, execProcess, processCommand]
  cases processSample Config.params (sampleOf din) s.core <;> simp [eq_comm]

/-- The only stop of `PROCESS` is a window read out of range (entry 11). -/
theorem execProcess_stop {din : DataWord} {s : State} (h : ¬Completes (.process din) s) :
    exec (.process din) s = .refused .windowIndex := by
  cases hc : processSample Config.params (sampleOf din) s.core with
  | none => simp [exec, execProcess, processCommand, hc]
  | some c => exact absurd ⟨_, execProcess_next_iff.2 ⟨c, hc, rfl⟩⟩ h

/-- What a step does, when it takes a next state: one transaction with the next input of the port (R88, R100). -/
theorem step_cases {s t : State} (h : step s = .next t) :
    (s.port.inputs = [] ∧ t = idle s) ∨
      (∃ rest, s.port.inputs = .powerOnReset :: rest ∧ t = powerOnReset Config.params s rest) ∨
      (∃ c rest i, s.port.inputs = .command c :: rest ∧ decode c = .ok i ∧ exec i (s.withInputs rest) = .next t) ∨
      (∃ c rest e, s.port.inputs = .command c :: rest ∧ decode c = .error e ∧
        t = raiseIllegal (s.withInputs rest)) := by
  unfold step at h
  split at h
  · rename_i hi
    exact .inl ⟨hi, by simpa using h.symm⟩
  · rename_i rest hi
    exact .inr (.inl ⟨rest, hi, by simpa using h.symm⟩)
  · rename_i c rest hi
    split at h
    · rename_i i hd
      exact .inr (.inr (.inl ⟨c, rest, i, hi, hd, h⟩))
    · rename_i e hd
      exact .inr (.inr (.inr ⟨c, rest, e, hi, hd, by simpa using h.symm⟩))

/-- Every instruction but `PROCESS` completes in every state (R340). -/
theorem completes_of_not_process {i : Instr} (h : ∀ din, i ≠ .process din) (s : State) : Completes i s := by
  cases i <;> first | exact ⟨_, rfl⟩ | exact absurd rfl (h _)

/-- An instruction that completes answers DONE and leaves the inputs alone (R104). -/
theorem exec_port {i : Instr} {s t : State} (h : exec i s = .next t) :
    t.port.inputs = s.port.inputs ∧ ∃ dout, t.port.response = some ⟨.done, dout⟩ := by
  cases i
  case process din =>
    obtain ⟨c, -, rfl⟩ := execProcess_next_iff.1 h
    exact ⟨rfl, _, rfl⟩
  all_goals
    simp only [exec] at h
    cases h
    exact ⟨rfl, _, rfl⟩

end Sys2Proof.Machine
end

