-- ==== Sys2Proof/Tests/Slice0.lean ====
section
/-! SUPPORT. Tests on fixed values, taken from 95_test_vectors.md and the worked examples of the rules or computed by hand
from a rule, and one witness for the hypotheses of each statement. `T1` is the spec's test configuration: its choices, not
the hardware's. -/

namespace Sys2Proof.Tests

open Sys2Proof Sys2Proof.Machine

-- One theorem after another: each `decide +kernel` waits for the kernel, and a hundred waiting threads are too many.
set_option Elab.async false

/-! ### The test configuration and small states -/

/-- `COS_CYC` of the spec's table TT, and of the phase of P2's sample 22 (95_test_vectors.md sections 0 and 2.2). -/
def ttCos (x : F32) : F32 :=
  if x = ⟨0⟩ then one
  else if x = ⟨0x3E000000⟩ then ⟨0x3F3504F3⟩
  else if x = ⟨0x3F000000⟩ then oneNeg
  else if x = ⟨0x3DCCCCCD⟩ then ⟨0x3F4F1BBD⟩
  else if x = ⟨0x3E50FD7A⟩ then ⟨0x3E91A577⟩
  else ⟨0⟩

/-- `SIN_CYC` at the same arguments. -/
def ttSin (x : F32) : F32 := if x = ⟨0x3E50FD7A⟩ then ⟨0x3F756C77⟩ else ⟨0⟩

/-- The identity section. -/
def idSection : BiquadCoef := { b0 := one, b1 := ⟨0⟩, b2 := ⟨0⟩, a0 := ⟨0⟩, a1 := ⟨0⟩ }

/-- Configuration 1 of the test vectors: rates 40 and 8, so `N = 5`. -/
def T1 : Params where
  duration := .n5
  symbolRate := 8
  crfCoef := fun _ _ => idSection
  alphaHpf := ⟨0⟩
  alphaLvl := half
  cosCyc := ttCos
  sinCyc := ttSin

/-- A state of an instance with `n` samples per symbol: zero but for the demodulator state and an `out_symbol` of 5. -/
def coreAt (n : Nat) (st : SeqState) : CoreState :=
  let c := CoreState.zeroed n
  { c with seq := { c.seq with state := st, outSymbol := 5 } }

/-- The same with a phase pair. -/
def corePhases (n : Nat) (st : SeqState) (prev phase : F32) : CoreState :=
  let c := coreAt n st
  { c with pll := { c.pll with prevPhase := prev, phase := phase } }

/-- The same with a level and a gain. -/
def coreGain (n : Nat) (st : SeqState) (prev phase level gain : F32) : CoreState :=
  let c := corePhases n st prev phase
  { c with agc := { c.agc with level := level, gain := gain } }

/-- A machine with this core state, nothing offered. -/
def machine (c : CoreState) : State := { core := c, port := { inputs := [], response := none } }

/-- A machine with these commands offered. -/
def offered (c : CoreState) (l : List PortEvent) : State := { core := c, port := { inputs := l, response := none } }

/-- The state after one step or instruction, if there is one. -/
def nextOf (o : Host.Outcome State Fault Refusal) : Option State :=
  match o with
  | .next t => some t
  | .fault _ => none
  | .refused _ => none

/-- The response after it. -/
def answerOf (o : Host.Outcome State Fault Refusal) : Option Response :=
  match o with
  | .next t => t.port.response
  | .fault _ => none
  | .refused _ => none

/-- One sample under `T1`, and what a function of the core state is after it. -/
def after {α : Type} (f : CoreState → α) (din : DataWord) (c : CoreState) : Option α :=
  (processSample T1 (sampleOf din) c).map f

/-- A state in which every register of the read space has a value of its own. -/
def readable : State :=
  let c := coreGain 5 .ok ⟨0⟩ ⟨0x11⟩ ⟨0x12⟩ ⟨0x13⟩
  machine
    { c with
      pll := { c.pll with step := ⟨0x14⟩, error := ⟨0x15⟩ }
      hold := { c.hold with recovered := ⟨⟨0x16⟩, ⟨0x17⟩⟩ }
      cor := { c.cor with hist := #v[⟨0x18⟩, ⟨0x19⟩, ⟨0x1A⟩] }
      seq := { c.seq with decisionPhase := half, decide := true, emit := true } }

/-! ### Well-formedness -/

theorem test_wellFormed_refuses_command :
    Command.wellFormed ⟨0x0006, 0⟩ = false ∧ Command.wellFormed ⟨0x0C05, 0⟩ = false ∧
      Command.wellFormed ⟨0x0104, 0⟩ = false ∧ Command.wellFormed ⟨0x1005, 0⟩ = false ∧
      Command.wellFormed ⟨0x0015, 0⟩ = false := by decide
theorem test_wellFormed_accepts_command :
    Command.wellFormed ⟨0x0B05, 0xFFFFFFFF⟩ = true ∧ Command.wellFormed ⟨0x0000, 0⟩ = true := by decide
theorem test_wellFormed_register :
    RegOperand.wellFormed (.address 0xC) = false ∧ RegOperand.wellFormed (.address 0xB) = true := by decide
theorem test_wellFormed_line :
    AsmLine.wellFormed (.read (.address 0xF)) = false ∧ AsmLine.wellFormed (.read (.name .agc)) = true := by decide
/-- Every term of `Instr` stands for a legal command, so the check on instructions has nothing to refuse; the words it
would refuse are refused as commands, above. -/
theorem test_wellFormed_instr : Instr.wellFormed (.process 0x7FC00000) = true := by decide

/-! ### Decoding: the words of R106, written out field by field (RSV1, ADDR, RSV0, OPC) -/

theorem test_decode_nop : decode ⟨0b0000000000000000, 0xFFFFFFFF⟩ = .ok .nop := by decide
theorem test_decode_init : decode ⟨0b0000000000000001, 0⟩ = .ok .init := by decide
theorem test_decode_reset : decode ⟨0b0000000000000010, 0⟩ = .ok .reset := by decide
theorem test_decode_beginCarrierSync : decode ⟨0b0000000000000011, 0⟩ = .ok .beginCarrierSync := by decide
theorem test_decode_process : decode ⟨0b0000000000000100, 0xBE800000⟩ = .ok (.process 0xBE800000) := by decide
theorem test_decode_readStatus : decode ⟨0b0000000000000101, 0⟩ = .ok .readStatus := by decide
theorem test_decode_readPllPhase : decode ⟨0b0000000100000101, 0⟩ = .ok .readPllPhase := by decide
theorem test_decode_readPllError : decode ⟨0b0000001000000101, 0⟩ = .ok .readPllError := by decide
theorem test_decode_readPllStep : decode ⟨0b0000001100000101, 0⟩ = .ok .readPllStep := by decide
theorem test_decode_readDecisionPhase : decode ⟨0b0000010000000101, 0⟩ = .ok .readDecisionPhase := by decide
theorem test_decode_readSignalPower : decode ⟨0b0000010100000101, 0⟩ = .ok .readSignalPower := by decide
theorem test_decode_readRecoveredI : decode ⟨0b0000011000000101, 0⟩ = .ok .readRecoveredI := by decide
theorem test_decode_readRecoveredQ : decode ⟨0b0000011100000101, 0⟩ = .ok .readRecoveredQ := by decide
theorem test_decode_readCorrelation : decode ⟨0b0000100000000101, 0⟩ = .ok .readCorrelation := by decide
theorem test_decode_readAgc : decode ⟨0b0000100100000101, 0⟩ = .ok .readAgc := by decide
theorem test_decode_readOutSymbol : decode ⟨0b0000101000000101, 0⟩ = .ok .readOutSymbol := by decide
theorem test_decode_readConfig : decode ⟨0b0000101100000101, 0⟩ = .ok .readConfig := by decide

/-- The six illegal words of P4 (95_test_vectors.md section 2.7). -/
theorem test_decode_illegal :
    decode ⟨0x0006, 0x12345678⟩ = .error .reservedOpcode ∧ decode ⟨0x0104, 0x12345678⟩ = .error .addressNotZero ∧
      decode ⟨0x0C05, 0x12345678⟩ = .error .reservedRegister ∧ decode ⟨0x1005, 0x12345678⟩ = .error .reservedField ∧
      decode ⟨0x0015, 0x12345678⟩ = .error .reservedField ∧ decode ⟨0x000F, 0x12345678⟩ = .error .reservedOpcode := by
  decide

theorem test_decodeTableWord :
    decodeTableWord 16 0x0905 = some .readAgc ∧ decodeTableWord 16 0xFFFF0004 = some (.process 0) ∧
      decodeTableWord 48 0x3F0000000004 = some (.process 0x3F000000) ∧ decodeTableWord 16 0x0105 = some .readPllPhase ∧
      decodeTableWord 16 0x0103 = none := by decide

theorem test_withFetchWord : step (State.reset.withFetchWord 16 0x0003) = exec .beginCarrierSync State.reset := rfl

/-! ### The commands -/

/-- 95_test_vectors.md section 2.7: the first row. -/
theorem test_step_nop :
    answerOf (step (offered (coreAt 5 .align) [.command ⟨0x0000, 0xFFFFFFFF⟩])) = some ⟨.done, 0⟩ ∧
      (nextOf (step (offered (coreAt 5 .align) [.command ⟨0x0000, 0xFFFFFFFF⟩]))).map (·.core) =
        some (coreAt 5 .align) := by decide

theorem test_step_illegal :
    answerOf (step (offered (coreAt 5 .ok) [.command ⟨0x0015, 0x12345678⟩])) = some ⟨.illegal, 0⟩ ∧
      (nextOf (step (offered (coreAt 5 .ok) [.command ⟨0x0015, 0x12345678⟩]))).map (·.core) =
        some (coreAt 5 .ok) := by decide

/-- R380, R383: ResetState gives one state, whatever was there before. -/
theorem test_resetState : resetState T1 (coreGain 7 .error ⟨1⟩ ⟨2⟩ ⟨3⟩ ⟨4⟩) = CoreState.zeroed 5 := by decide

/-- After `INIT` `READ STATUS` shows `WAIT_TO_SETTLE` (95_test_vectors.md section 2.8). -/
theorem test_exec_init :
    (nextOf (exec .init readable)).map (fun t => readReg .status t.core) = some 0 ∧
      answerOf (exec .init readable) = some ⟨.done, 0⟩ := by decide
theorem test_exec_reset :
    (nextOf (exec .reset readable)).map (fun t => readReg .agc t.core) = some 0 ∧
      answerOf (exec .reset readable) = some ⟨.done, 0⟩ := by decide

/-- The continuation of P5: `BEGIN_CARRIER_SYNC` in `ERROR` reads `0x02` after. -/
theorem test_exec_beginCarrierSync :
    (nextOf (exec .beginCarrierSync (machine (coreAt 5 .error)))).map (fun t => readReg .status t.core) = some 0x02 ∧
      answerOf (exec .beginCarrierSync (machine (coreAt 5 .error))) = some ⟨.done, 0⟩ := by decide

/-- P5: a `PROCESS` in `ERROR` changes nothing (R297); here `out_symbol` is 5. -/
theorem test_exec_process_error :
    answerOf (exec (.process 0x3F000000) (machine (coreAt 5 .error))) = some ⟨.done, 0x00000050⟩ ∧
      (nextOf (exec (.process 0x3F000000) (machine (coreAt 5 .error)))).map (·.core) = some (coreAt 5 .error) := by decide

/-- `OK` with `decide` and `emit` reads `0x35` (section 2.7). -/
theorem test_read_status : answerOf (exec .readStatus readable) = some ⟨.done, 0x35⟩ := by decide
theorem test_read_pllPhase : answerOf (exec .readPllPhase readable) = some ⟨.done, 0x11⟩ := by decide
theorem test_read_pllError : answerOf (exec .readPllError readable) = some ⟨.done, 0x15⟩ := by decide
theorem test_read_pllStep : answerOf (exec .readPllStep readable) = some ⟨.done, 0x14⟩ := by decide
theorem test_read_decisionPhase : answerOf (exec .readDecisionPhase readable) = some ⟨.done, 0x3F000000⟩ := by decide
theorem test_read_signalPower :
    answerOf (exec .readSignalPower readable) = some ⟨.done, (Config.signalPower readable.core).bits⟩ := rfl
theorem test_read_recoveredI : answerOf (exec .readRecoveredI readable) = some ⟨.done, 0x16⟩ := by decide
theorem test_read_recoveredQ : answerOf (exec .readRecoveredQ readable) = some ⟨.done, 0x17⟩ := by decide
theorem test_read_correlation : answerOf (exec .readCorrelation readable) = some ⟨.done, 0x18⟩ := by decide
theorem test_read_agc : answerOf (exec .readAgc readable) = some ⟨.done, 0x13⟩ := by decide
theorem test_read_outSymbol : answerOf (exec .readOutSymbol readable) = some ⟨.done, 0x5⟩ := by decide
theorem test_read_config :
    answerOf (exec .readConfig readable) = some ⟨.done, BitVec.ofNat 32 Config.params.n⟩ := rfl

/-! ### Arithmetic (R20, R22) -/

/-- `Wrap` corner cases (section 2.2). -/
theorem test_wrap :
    F32.wrap ⟨0xB3000000⟩ = one ∧ F32.wrap ⟨0x80000000⟩ = ⟨0⟩ ∧ F32.wrap ⟨0xBE800000⟩ = ⟨0x3F400000⟩ ∧
      F32.wrap one = ⟨0⟩ := by decide +kernel

/-- Ties to even, a subnormal sum, overflow to infinity, by hand from IEEE 754. -/
theorem test_round :
    F32.add one ⟨0x33800000⟩ = one ∧ F32.add ⟨0x3F800001⟩ ⟨0x33800000⟩ = ⟨0x3F800002⟩ ∧
      F32.add ⟨0x007FFFFF⟩ ⟨0x00000001⟩ = ⟨0x00800000⟩ ∧ F32.mul ⟨0x7F7FFFFF⟩ two = ⟨0x7F800000⟩ ∧
      F32.div one ⟨0x40400000⟩ = ⟨0x3EAAAAAB⟩ := by decide +kernel

theorem test_compare_zeros : F32.eq ⟨0⟩ ⟨0x80000000⟩ = true ∧ F32.lt ⟨0x80000000⟩ ⟨0⟩ = false := by decide +kernel

theorem test_compare_nan :
    F32.eq ⟨0x7FC00000⟩ ⟨0x7FC00000⟩ = false ∧ F32.ne ⟨0x7FC00000⟩ ⟨0x7FC00000⟩ = true ∧
      F32.lt ⟨0x7FC00000⟩ one = false ∧ F32.ge ⟨0x7FC00000⟩ one = false ∧
      F32.clamp ⟨0x7FC00000⟩ ⟨0⟩ one = ⟨0x7FC00000⟩ := by decide +kernel

/-! ### The blocks (section 2) -/

/-- HPF and follower with both coefficients 0.5: the last row of the table of section 2.1. -/
theorem test_agc_filters :
    (frontEnd { T1 with alphaHpf := half } oneNeg ⟨⟨0x3F600000⟩, ⟨0x3E400000⟩, one⟩) =
      (⟨0xBF700000⟩, ⟨⟨0xBD800000⟩, ⟨0x3F100000⟩, one⟩) := by decide +kernel

/-- By hand: with a coefficient of 1, a level of 1.5·2^104 and the largest finite magnitude, the difference rounds to the
latter and the sum is the tie that rounds to infinity. -/
theorem test_level_can_overflow :
    (follow { T1 with alphaLvl := one } ⟨0x7F7FFFFF⟩ ⟨⟨0⟩, ⟨0x73C00000⟩, ⟨0⟩⟩).level = ⟨0x7F800000⟩ := by decide +kernel

theorem test_initialGain :
    (initialGain ⟨0x3DCCCCCD⟩ ⟨⟨0⟩, ⟨0⟩, ⟨0⟩⟩).gain = ⟨0x40D8136F⟩ ∧
      (initialGain ⟨0x3D4CCCCE⟩ ⟨⟨0⟩, ⟨0⟩, ⟨0⟩⟩).gain = ⟨0x4158136E⟩ := by decide +kernel

theorem test_agcProcess :
    (agcProcess ⟨one, one⟩ carrierSyncVector agcFast ⟨⟨0⟩, ⟨0⟩, one⟩).gain = ⟨0x3F7FC6A8⟩ ∧
      (agcProcess V.zero carrierSyncVector agcFast ⟨⟨0⟩, ⟨0⟩, one⟩).gain = ⟨0x3F8024DD⟩ ∧
      (agcProcess ⟨⟨0x3E99999A⟩, ⟨0x3E4CCCCD⟩⟩ ⟨⟨0x3E800000⟩, ⟨0x3E800000⟩⟩ agcSlow ⟨⟨0⟩, ⟨0⟩, one⟩).gain =
        ⟨0x3F7FFFFC⟩ := by decide +kernel

theorem test_processError :
    (processError T1 oneNeg ⟨⟨0⟩, ⟨0⟩, ⟨0⟩, ⟨0⟩, ⟨0⟩⟩) = ⟨⟨0⟩, ⟨0⟩, ⟨0x3E50EFDD⟩, ⟨0xB951B717⟩, oneNeg⟩ ∧
      (processError T1 ⟨0xC2C80000⟩ ⟨⟨0⟩, ⟨0⟩, ⟨0⟩, ⟨0xBDCCCCCD⟩, ⟨0⟩⟩) =
        ⟨⟨0⟩, ⟨0⟩, ⟨0x3F1EB852⟩, ⟨0xBDCCCCCD⟩, ⟨0xC2C80000⟩⟩ := by decide +kernel

theorem test_ncoStep :
    (ncoStep ⟨⟨0x3F7FFFFF⟩, ⟨0⟩, one, ⟨0⟩, ⟨0⟩⟩) = ⟨⟨0⟩, ⟨0x3F7FFFFF⟩, one, ⟨0⟩, ⟨0⟩⟩ ∧
      (ncoStep ⟨⟨0x3F666666⟩, ⟨0⟩, ⟨0x3E4CCCCD⟩, ⟨0⟩, ⟨0⟩⟩).phase = ⟨0x3DCCCCD0⟩ := by decide +kernel

/-- A phase pair, previous first, with nothing else set. -/
def pair (prev phase : F32) : PllState := { phase := phase, prevPhase := prev, step := ⟨0⟩, acc := ⟨0⟩, error := ⟨0⟩ }

/-- The rows `0.9 → 0.6`, `0.4 → 0.5` and `0.95 → 0.0` of the table of section 2.2. -/
theorem test_phaseTrigger :
    phaseTrigger ⟨0⟩ (pair ⟨0x3F666666⟩ ⟨0x3F19999A⟩) = some ⟨0x3F5B6DB6⟩ ∧
      phaseTrigger half (pair ⟨0x3F666666⟩ ⟨0x3F19999A⟩) = some ⟨0x3E124926⟩ ∧
      phaseTrigger half (pair ⟨0x3ECCCCCD⟩ half) = some ⟨0⟩ ∧ phaseTrigger ⟨0⟩ (pair ⟨0x3ECCCCCD⟩ half) = none ∧
      phaseTrigger ⟨0⟩ (pair ⟨0x3F733333⟩ ⟨0⟩) = some ⟨0⟩ := by decide +kernel

/-- No trigger: an unmoved phase, and a phase just below the threshold, where `a` rounds to 1. -/
theorem test_phaseTrigger_none :
    phaseTrigger ⟨0⟩ (pair ⟨0x3ECCCCCD⟩ ⟨0x3ECCCCCD⟩) = none ∧
      phaseTrigger half (pair ⟨0x3ECCCCCD⟩ ⟨0x3EFFFFFF⟩) = none ∧
      selectTrigger (pair ⟨0x3F666666⟩ ⟨0x3F19999A⟩) = some ⟨0x3F5B6DB6⟩ := by decide +kernel

theorem test_mixer :
    localOsc T1 ⟨0x3E50FD7A⟩ = ⟨⟨0x3E91A577⟩, ⟨0xBF756C77⟩⟩ ∧
      mix ⟨0x3FACDC64⟩ (localOsc T1 ⟨0x3E50FD7A⟩) = ⟨⟨0x3F44B11E⟩, ⟨0xC025B829⟩⟩ := by decide +kernel

/-- Phase detectors (section 2.2): `v = (-0.75, -0.5)`; then `(0.3, 0.2)` against `(0.25, 0.25)`, gated at a quarter
cycle. -/
theorem test_detectors :
    syncError ⟨⟨0xBF400000⟩, ⟨0xBF000000⟩⟩ = ⟨0x3E400000⟩ ∧
      decisionError ⟨⟨0x3E99999A⟩, ⟨0x3E4CCCCD⟩⟩ ⟨⟨0x3E800000⟩, ⟨0x3E800000⟩⟩ = ⟨0x3CCCCCCE⟩ ∧
      gatedError T1 ⟨⟨0x3E99999A⟩, ⟨0x3E4CCCCD⟩⟩ ⟨⟨0x3E800000⟩, ⟨0x3E800000⟩⟩ ⟨0x3E800000⟩ ⟨0⟩ = ⟨0x3C4CCCCE⟩ ∧
      gatedError T1 ⟨⟨0x3E99999A⟩, ⟨0x3E4CCCCD⟩⟩ ⟨⟨0x3E800000⟩, ⟨0x3E800000⟩⟩ half half = ⟨0x3CCCCCCE⟩ := by
  decide +kernel

/-- The notch section of T2 over the first two samples of a DC input (section 2.3). -/
theorem test_biquad_notch :
    let k : BiquadCoef := ⟨⟨0x3E8D8369⟩, ⟨0x3EE4F92E⟩, ⟨0x3E8D8369⟩, ⟨0⟩, ⟨0⟩⟩
    let r := biquad k ⟨one, ⟨0⟩⟩ (CoreState.zeroed 5).crf.sec0
    r.1 = ⟨⟨0x3E8D8369⟩, ⟨0⟩⟩ ∧ (biquad k ⟨one, ⟨0⟩⟩ r.2).1.i = ⟨0x3F393E4C⟩ := by decide +kernel

/-- The feedback section of section 2.3: its second output, in both lanes. -/
theorem test_biquad_feedback :
    let k : BiquadCoef := ⟨one, ⟨0⟩, ⟨0⟩, ⟨0xBF000000⟩, ⟨0x3E800000⟩⟩
    let r := biquad k ⟨one, oneNeg⟩ (CoreState.zeroed 5).crf.sec0
    r.1 = ⟨one, oneNeg⟩ ∧ (biquad k V.zero r.2).1 = ⟨half, halfNeg⟩ := by decide +kernel

/-- A window that holds `0.75 · (I[k], Q[k])`, its last correlation 9.0 (section 2.4). -/
def aligned : CorState :=
  let h : F32 := ⟨0x3F400000⟩
  let g : F32 := ⟨0xBF400000⟩
  let z : F32 := ⟨0⟩
  { v := #v[⟨g, g⟩, ⟨g, z⟩, ⟨g, h⟩, ⟨z, h⟩, ⟨h, h⟩, ⟨h, z⟩, ⟨h, g⟩, ⟨z, g⟩]
    phase := #v[⟨0x3DCCCCCD⟩, ⟨0x3DCCCCCD⟩, ⟨0x3DCCCCCD⟩]
    hist := #v[⟨0x41100000⟩, ⟨0x40A80000⟩, ⟨0⟩]
    max := ⟨0x41100000⟩
    dec := #v[⟨0⟩, ⟨0⟩, ⟨0⟩, ⟨0⟩]
    peaks := 0 }

theorem test_correlation_value : correlationValue aligned.v = ⟨0x41100000⟩ := by decide +kernel

/-- Section 2.4, pushes 1 and 2: a peak with tilt 0 and its vote, then none. -/
theorem test_correlate_peak :
    let r := correlate T1 ⟨0x3E99999A⟩ V.zero aligned
    r.1 = none ∧ r.2.hist = #v[⟨0x40A80000⟩, ⟨0x41100000⟩, ⟨0x40A80000⟩] ∧ r.2.dec[0] = ⟨0x3F4F1BBD⟩ ∧ r.2.peaks = 1 ∧
      (correlate T1 half V.zero r.2).2.hist = #v[⟨0⟩, ⟨0x40A80000⟩, ⟨0x41100000⟩] ∧
      (correlate T1 half V.zero r.2).2.peaks = 1 := by decide +kernel

theorem test_decisionIndex :
    decisionIndex ⟨0x80000001⟩ = 1 ∧ decisionIndex ⟨0x3EFFFFFF⟩ = 2 ∧ decisionIndex half = 3 ∧
      decisionIndex halfNeg = 1 ∧ decisionIndex ⟨0xBF000001⟩ = 0 ∧ decisionIndex ⟨0x80000000⟩ = 2 ∧
      decisionIndex ⟨0x7FC00000⟩ = 0 ∧ decisionIndex ⟨0xFF800000⟩ = 0 ∧ decisionIndex ⟨0x7F800000⟩ = 3 := by
  decide +kernel

theorem test_decideSymbol :
    decideSymbol ⟨⟨0x3F4CCCCD⟩, ⟨0x3E4CCCCD⟩⟩ = 0x1 ∧ decideSymbol ⟨⟨0x3F333333⟩, ⟨0xBE99999A⟩⟩ = 0x5 ∧
      decideSymbol V.zero = 0x0 ∧ decideSymbol carrierSyncVector = 0xF := by decide +kernel

/-- The history of section 2.5. -/
def ramp : List V := [V.zero, ⟨one, ⟨0⟩⟩, ⟨two, ⟨0⟩⟩, ⟨⟨0x40400000⟩, ⟨0⟩⟩, ⟨⟨0x40800000⟩, oneNeg⟩]

theorem test_sampleSymbol :
    sampleSymbol T1 half ramp = some ⟨half, ⟨0⟩⟩ ∧
      sampleSymbol T1 ⟨0x40600000⟩ ramp = some ⟨⟨0x40600000⟩, halfNeg⟩ ∧
      sampleSymbol T1 ⟨0x40900000⟩ ramp = some ⟨⟨0x407FEF9E⟩, ⟨0xBF7FBE78⟩⟩ ∧
      sampleSymbol T1 oneNeg ramp = some V.zero := by decide +kernel

/-- R32, I21: a read beyond the window is refused, and so is a delay with no index. -/
theorem test_sampleSymbol_refuses :
    sampleSymbol T1 ⟨0x40600000⟩ (ramp.take 4) = none ∧ sampleSymbol T1 ⟨0x7FC00000⟩ ramp = none := by decide +kernel

theorem test_settled :
    settled T1 10 = true ∧ settled T1 9 = false ∧ syncLongEnough T1 1 = true ∧ syncLongEnough T1 0 = false := by
  decide

theorem test_satIncr : satIncr 0xFFFFFFFF = 0xFFFFFFFF ∧ satIncr 0xFFFFFFFE = 0xFFFFFFFF := by decide

theorem test_checkConfig :
    checkConfig 40000 8000 = some .n5 ∧ checkConfig 48000 6000 = some .n8 ∧ checkConfig 28000 4000 = none ∧
      checkConfig 40001 8000 = none ∧ checkConfig 0 0 = none := by decide

/-! ### PROCESS, one sample at a time (programs P2, P3, P5 of section 3, and hand calculation under T1) -/

/-- P2, sample 10. -/
theorem test_process_waitToSettle :
    let c := coreGain 5 .waitToSettle ⟨0⟩ ⟨0⟩ ⟨0x3EFF8000⟩ ⟨0⟩
    after (fun t => (t.seq.state, t.seq.skippedSamples, t.agc.level)) 0x3F000000
      { c with seq := { c.seq with skippedSamples := 9 } } = some (.senseGain, 0, ⟨0x3EFFC000⟩) := by decide +kernel

/-- P2, sample 20. -/
theorem test_process_senseGain :
    let c := coreGain 5 .senseGain ⟨0⟩ ⟨0⟩ ⟨0x3EFFFFE0⟩ ⟨0⟩
    after (fun t => (t.seq.state, t.agc.gain, t.pll.phase)) 0x3F000000
      { c with seq := { c.seq with skippedSamples := 9 } } = some (.carrierSync, ⟨0x3FACDC64⟩, ⟨0⟩) := by decide +kernel

/-- R282: a level drop leads back. -/
theorem test_process_senseGain_drop :
    after (fun t => (t.seq.state, t.seq.skippedSamples)) 0 (coreGain 5 .senseGain ⟨0⟩ ⟨0⟩ ⟨0x3D800000⟩ ⟨0⟩) =
      some (.waitToSettle, 0) := by decide +kernel

/-- P2, sample 21, which continues sample 20. -/
theorem test_process_carrierSync :
    after (fun t => (t.pll.phase, t.pll.step, t.pll.error, t.hold.recovered)) 0x3F000000
      (coreGain 5 .carrierSync ⟨0⟩ ⟨0⟩ ⟨0x3EFFFFF0⟩ ⟨0x3FACDC64⟩) =
      some (⟨0x3E50FD7A⟩, ⟨0x3E50FD7A⟩, ⟨0xBF81A54B⟩, ⟨⟨0x3FACDC64⟩, ⟨0⟩⟩) := by decide +kernel

/-- P2, sample 22: the baseband vector and the error, which do not depend on the accumulator. -/
theorem test_process_carrierSync_next :
    after (fun t => (t.hold.recovered, t.pll.error, t.pll.prevPhase)) 0x3F000000
      (coreGain 5 .carrierSync ⟨0⟩ ⟨0x3E50FD7A⟩ ⟨0x3EFFFFF8⟩ ⟨0x3FACDC64⟩) =
      some (⟨⟨0x3EC4B11E⟩, ⟨0xBFA5B829⟩⟩, ⟨0xBFA12B54⟩, ⟨0x3E50FD7A⟩) := by decide +kernel

/-- P3, sample 6: a trigger without a sync symbol; STATUS reads `0x12`. -/
theorem test_process_carrierSync_trigger :
    after (fun t => (statusWord t.seq, t.seq.carrierSyncCount, t.pll.phase)) 0x3E800000
      (corePhases 5 .carrierSync ⟨0x3F4CCCCD⟩ ⟨0⟩) = some (0x12, 0, ⟨0x3E4CCCCD⟩) := by decide +kernel

/-- R292: on a trigger a symbol other than the sync symbol leads to `ALIGN`; here `v = (0.75, 0)`, symbol 1. -/
theorem test_process_carrierLock :
    after (fun t => (t.seq.state, statusWord t.seq, t.cor.v[0])) 0x3E800000
      (coreGain 5 .carrierLock ⟨0x3F733333⟩ ⟨0⟩ ⟨0x3E800000⟩ ⟨0x3FC00000⟩) =
      some (.align, 0x14, ⟨⟨0x3F400000⟩, ⟨0⟩⟩) := by decide +kernel

/-- R293, R218: with four peaks collected and votes that sum to zero, a trigger in `ALIGN` leads to `OK` with 0.5. -/
theorem test_process_align :
    let c := coreGain 5 .align ⟨0x3F733333⟩ ⟨0⟩ ⟨0x3E800000⟩ ⟨0x3FC00000⟩
    after (fun t => (t.seq.state, t.seq.decisionPhase, t.agc.gain)) 0x3E800000
      { c with cor := { c.cor with peaks := 4 } } = some (.ok, half, ⟨0x3FC00000⟩) := by decide +kernel

/-- R295, R320: an emission in `OK`, symbol 1; the response data word is `0x11`. -/
theorem test_process_ok_emits :
    after (fun t => (processWord t.seq, statusWord t.seq)) 0x3E800000
      (coreGain 5 .ok ⟨0x3F733333⟩ ⟨0⟩ ⟨0x3E800000⟩ ⟨0x3FC00000⟩) = some (0x11, 0x35) := by decide +kernel

/-- R283: a level of 0.03125 ends in `ERROR` before demodulation; STATUS reads `0x0E`. -/
theorem test_process_ok_lost :
    after (fun t => (statusWord t.seq, t.pll.prevPhase)) 0 (coreGain 5 .ok ⟨0x3F733333⟩ ⟨0⟩ ⟨0x3D800000⟩ one) =
      some (0x0E, ⟨0x3F733333⟩) := by decide +kernel

/-! ### The assembler (R110-R112) -/

theorem test_assemble_process :
    (parseLine "PROCESS -0.25 ; a sample".toList).map (Option.bind · assemble) =
      some (some [⟨0x0004, 0xBE800000⟩]) := by decide +kernel
theorem test_assemble_pattern :
    (parseLine "PROCESS 0x7fc00000".toList).map (Option.bind · assemble) = some (some [⟨0x0004, 0x7FC00000⟩]) := by
  decide +kernel
theorem test_assemble_read :
    (parseLine "READ AGC".toList).map (Option.bind · assemble) = some (some [⟨0x0905, 0⟩]) ∧
      (parseLine "READ 0xC".toList).map (Option.bind · assemble) = some none := by decide +kernel
theorem test_assemble_repeat :
    assembleProgram ["; P2".toList, "BCS".toList, "PROCESS.REPEAT 2, 5e-1".toList] =
      some [⟨0x0003, 0⟩, ⟨0x0004, 0x3F000000⟩, ⟨0x0004, 0x3F000000⟩] := by decide +kernel

/-! ### Witnesses: for each statement with hypotheses, a state and operands that meet all of them together -/

/-- The states of `corePhases` with phases in `[0, 1)` satisfy the invariant (none of them is the reset state). -/
theorem coreInv_corePhases (p : Params) (st : SeqState) {prev phase : F32} (h1 : inUnit prev = true)
    (h2 : inUnit phase = true) : CoreInv p (corePhases p.n st prev phase) where
  vHist_length := by simp [corePhases, coreAt, CoreState.zeroed]
  phase_range := .inr h2
  prevPhase_range := .inr h1
  step_range := .inr (by show inUnitClosed F32.zero = true; decide +kernel)
  acc_range := .inr (by show inWindup F32.zero = true; decide +kernel)
  corPhase_range := by
    intro x hx
    have h0 : inUnit F32.zero = true := by decide +kernel
    simp [corePhases, coreAt, CoreState.zeroed] at hx
    exact .inr (hx ▸ h0)
  corMax_nonneg := by
    show F32.isNaN ⟨0⟩ = false ∧ F32.sign ⟨0⟩ = false
    decide
  corPeaks_le := by
    show (0 : BitVec 3).toNat ≤ 4
    decide
  decisionPhase_two := .inl rfl
  emit_decide := by simp [corePhases, coreAt, CoreState.zeroed]
  error_flags := fun _ => ⟨rfl, rfl⟩

/-- A machine of the modelled instance in a demodulator state, with a phase pair that fires the `0`-trigger. -/
def firing (st : SeqState) : State := machine (corePhases Config.params.n st ⟨0x3F733333⟩ ⟨0⟩)

/-- The same, its phase at rest. -/
def resting (st : SeqState) : State := machine (corePhases Config.params.n st ⟨0⟩ ⟨0⟩)

theorem firing_inv (st : SeqState) : (firing st).Inv :=
  coreInv_corePhases Config.params st (by decide +kernel) (by decide +kernel)
theorem resting_inv (st : SeqState) : (resting st).Inv :=
  coreInv_corePhases Config.params st (by decide +kernel) (by decide +kernel)

theorem firing_trigger : phaseTrigger F32.zero (pair ⟨0x3F733333⟩ ⟨0⟩) = some ⟨0⟩ := by decide +kernel
theorem firing_select : selectTrigger (pair ⟨0x3F733333⟩ ⟨0⟩) = some ⟨0⟩ := by decide +kernel
theorem resting_select : selectTrigger (pair ⟨0⟩ ⟨0⟩) = none := by decide +kernel

theorem witness_DecodeOfEncodeIsIdentity : Instr.wellFormed (.process 0x3F000000) = true := by decide

theorem witness_SeventeenWordsAreLegal :
    (offered (coreAt 5 .ok) [.command ⟨0x0C05, 0⟩]).port.inputs = .command ⟨0x0C05, 0⟩ :: [] ∧
      decode ⟨0x0C05, 0⟩ = .error .reservedRegister := by decide

theorem witness_AssemblerEmitsLegalCommandsOnly :
    assemble .reacquire = some [⟨0x0002, 0⟩, ⟨0x0003, 0⟩] ∧ assemble (.read (.address 0xB)) = some [⟨0x0B05, 0⟩] := by
  decide

theorem witness_StepRunsTheDecodedInstruction :
    (offered (coreAt 5 .ok) [.command ⟨0x0B05, 0⟩, .powerOnReset]).port.inputs =
        .command ⟨0x0B05, 0⟩ :: [.powerOnReset] ∧ decode ⟨0x0B05, 0⟩ = .ok .readConfig := by decide

theorem witness_IllegalWordChangesNothing :
    (offered (coreAt 5 .ok) [.command ⟨0x0006, 0⟩, .command ⟨0x0000, 0⟩]).port.inputs =
        .command ⟨0x0006, 0⟩ :: [.command ⟨0x0000, 0⟩] ∧
      decode ⟨0x0006, 0⟩ = .error .reservedOpcode ∧ decode ⟨0x0000, 0⟩ = .ok .nop := by decide

/-- A legal and an illegal command, at the last legal and the first reserved register address. -/
theorem witness_EveryCommandIsAnsweredOnce :
    (∃ t, step (offered (coreAt 5 .ok) [.command ⟨0x0B05, 0⟩]) = .next t ∧
      t.port.response = some ⟨.done, BitVec.ofNat 32 Config.params.n⟩) ∧
    (∃ t, step (offered (coreAt 5 .ok) [.command ⟨0x0C05, 0⟩]) = .next t ∧ t.port.response = some ⟨.illegal, 0⟩) :=
  ⟨⟨_, rfl, rfl⟩, ⟨_, rfl, rfl⟩⟩

theorem witness_PowerOnResetIsInitWithoutResponse :
    (offered (coreAt 5 .ok) [.powerOnReset]).port.inputs = .powerOnReset :: [] ∧
      ∃ t', exec .init (machine (coreAt 5 .error)) = .next t' := ⟨rfl, _, rfl⟩

theorem witness_IdleStepHoldsTheCore : (machine (coreAt 5 .ok)).port.inputs = [] := rfl

theorem witness_ReadHasNoSideEffect :
    (encode .readConfig).cmd.toNat % 16 = 5 ∧ (encode .readStatus).cmd.toNat % 16 = 5 ∧
      (∃ t, exec .readConfig readable = .next t) ∧ ∃ t, exec .readStatus readable = .next t :=
  ⟨by decide, by decide, ⟨_, rfl⟩, ⟨_, rfl⟩⟩

/-- The lowest reserved address. -/
theorem witness_ReadAnswersTheRegister :
    0xC ≤ (0xC : BitVec 4).toNat ∧
      (offered (coreAt 5 .ok) [.command ⟨BitVec.setWidth 16 (0xC : BitVec 4) <<< 8 ||| 0x0005, 0⟩]).port.inputs =
        .command ⟨0x0C05, 0⟩ :: [] := by decide

theorem witness_FiltersRunOnEverySampleOutsideError :
    (∃ t, exec (.process 0) (resting .waitToSettle) = .next t ∧ (resting .waitToSettle).core.seq.state ≠ .error) ∧
    (∃ t, exec (.process 0) (firing .carrierLock) = .next t ∧ (firing .carrierLock).core.seq.state ≠ .error) :=
  ⟨⟨_, rfl, by decide⟩, ⟨_, rfl, by decide⟩⟩

theorem witness_WaitToSettleSample : (resting .waitToSettle).core.seq.state = .waitToSettle := rfl
theorem witness_SenseGainSample : (resting .senseGain).core.seq.state = .senseGain := rfl
theorem witness_CarrierSyncSample : (firing .carrierSync).core.seq.state = .carrierSync := rfl
theorem witness_CarrierLockSample : (firing .carrierLock).core.seq.state = .carrierLock := rfl
theorem witness_OkSample : (firing .ok).core.seq.state = .ok := rfl

/-- Both cases: a trigger, and none. -/
theorem witness_AlignSample :
    ((firing .align).core.seq.state = .align ∧ (firing .align).Inv ∧
      selectTrigger (firing .align).core.pll = some ⟨0⟩) ∧
    ((resting .align).core.seq.state = .align ∧ (resting .align).Inv ∧ selectTrigger (resting .align).core.pll = none) :=
  ⟨⟨rfl, firing_inv _, firing_select⟩, ⟨rfl, resting_inv _, resting_select⟩⟩

theorem witness_ErrorStateHoldsUntilReset :
    (firing .error).Inv ∧ (firing .error).core.seq.state = .error ∧
      (∃ t, exec .init (firing .error) = .next t ∧ t.core.seq.state = .waitToSettle) ∧
      ∃ t, exec .nop (firing .error) = .next t ∧ t.core.seq.state = .error :=
  ⟨firing_inv _, rfl, ⟨_, rfl, rfl⟩, ⟨_, rfl, rfl⟩⟩

theorem witness_ProcessCompletes : (firing .align).Inv := firing_inv _

/-- `ALIGN` with four peaks collected and a trigger. -/
def voted : State :=
  let c := corePhases Config.params.n .align ⟨0x3F733333⟩ ⟨0⟩
  machine { c with cor := { c.cor with peaks := 4 } }

/-- A delay of 0 reads the two newest entries, whatever the configuration. -/
theorem sampleSymbol_zero (p : Params) (v : V) (h : List V) (hh : h.length = p.n) :
    ∃ u, sampleSymbol p ⟨0#32⟩ (historyWrite h v) = some u := by
  have hd : windowIndex (F32.clamp ⟨0#32⟩ F32.zero (dmax p.duration)) = some 0 := by
    cases p.duration <;> decide +kernel
  have hn : 4 < h.length := by
    rw [hh]
    show 4 < p.duration.toNat
    cases p.duration <;> decide
  match h, hn with
  | a :: b :: t, _ => simp [sampleSymbol, hd, historyRead, historyWrite]

/-- With four peaks collected the correlator always answers. -/
theorem correlate_four (p : Params) (ph : F32) (u : V) (c : CorState) (h : c.peaks = 4) :
    ∃ r, (correlate p ph u c).1 = some r := by
  have h4 : 4 ≤ (correlate p ph u c).2.peaks.toNat := by
    simp only [correlate]
    split <;> simp [corVote, corUpdate, corPush, h]
  rw [correlate_result, corResult, if_pos h4]
  exact ⟨_, rfl⟩

/-- `PROCESS` completes in that state and leads to `OK`. -/
theorem voted_process (din : DataWord) :
    ∃ t, exec (.process din) voted = .next t ∧ t.core.seq.state = .ok ∧ t.core.seq.decide = true := by
  generalize hb : (baseband Config.params (frontEnd Config.params (sampleOf din) voted.core.agc).1
    (sampleFront Config.params (sampleOf din) voted.core)).1 = v
  obtain ⟨u, hu⟩ := sampleSymbol_zero Config.params v voted.core.hold.vHist
    (by simp [voted, machine, corePhases, coreAt, CoreState.zeroed])
  obtain ⟨r, hr⟩ := correlate_four Config.params voted.core.pll.phase u voted.core.cor rfl
  have ht : selectTrigger voted.core.pll = some ⟨0#32⟩ := firing_select
  have hs : voted.core.seq.state = .align := rfl
  have hp : ∃ c, processSample Config.params (sampleOf din) voted.core = some c ∧ c.seq.state = .ok ∧
      c.seq.decide = true := by
    simp [processSample, hs, SeqState.preAcquisition, demodulate, dispatch, align, hb, ht, hu, hr]
  obtain ⟨c, hc, h1, h2⟩ := hp
  exact ⟨_, execProcess_next_iff.2 ⟨c, hc, rfl⟩, h1, h2⟩

/-- The machine in `OK` at a trigger, its level a NaN: no comparison with it holds, so the signal is not lost, whatever
the OPEN parameters. -/
def emitting : State := machine (coreGain Config.params.n .ok ⟨0x3F733333⟩ ⟨0⟩ ⟨0x7FC00000⟩ one)

theorem emitting_process (din : DataWord) :
    ∃ t, exec (.process din) emitting = .next t ∧ t.core.seq.state = .ok ∧ t.core.seq.emit = true ∧
      t.core.seq.decide = true := by
  have hl : (frontEnd Config.params (sampleOf din) emitting.core.agc).2.level.lt levelThreshold = false :=
    F32.lt_of_nan (.inl (F32.isNaN_add_of_nan (.inl (show F32.isNaN ⟨0x7FC00000⟩ = true by decide))))
  have ht : phaseTrigger emitting.core.seq.decisionPhase emitting.core.pll = some ⟨0⟩ := firing_trigger
  have hs : emitting.core.seq.state = .ok := rfl
  have hp : ∃ c, processSample Config.params (sampleOf din) emitting.core = some c ∧ c.seq.state = .ok ∧
      c.seq.emit = true ∧ c.seq.decide = true := by
    simp [processSample, hs, SeqState.preAcquisition, demodulate, dispatch, data, hl, ht]
  obtain ⟨c, hc, h⟩ := hp
  exact ⟨_, execProcess_next_iff.2 ⟨c, hc, rfl⟩, h⟩

theorem witness_TransitionTable :
    (∃ t, exec (.process 0) voted = .next t ∧ t.core.seq.state ≠ voted.core.seq.state) ∧
    (∃ t, exec (.process 0) (firing .error) = .next t ∧ t.core.seq.state = .error) :=
  ⟨(voted_process 0).imp fun _ h => ⟨h.1, by rw [h.2.1]; decide⟩, ⟨_, rfl, rfl⟩⟩

/-- One witness for each of the three disjuncts. -/
theorem witness_StateChangesOnlyByTableAndCommands :
    (∃ t, exec (.process 0) voted = .next t ∧ t.core.seq.state ≠ voted.core.seq.state) ∧
    (∃ t, exec .reset (firing .error) = .next t ∧ t.core.seq.state ≠ .error) ∧
    (∃ t, exec .beginCarrierSync (firing .error) = .next t ∧ t.core.seq.state ≠ .error) :=
  ⟨witness_TransitionTable.1, ⟨_, rfl, by decide⟩, ⟨_, rfl, by decide⟩⟩

/-- A sample that emits, and one that does not. -/
theorem witness_EmissionOnlyInOkOnTrigger :
    (∃ t, exec (.process 0) emitting = .next t ∧ emitting.core.seq.state ≠ .error ∧ t.core.seq.emit = true) ∧
    (∃ t, exec (.process 0) (resting .waitToSettle) = .next t ∧ (resting .waitToSettle).core.seq.state ≠ .error) :=
  ⟨(emitting_process 0).imp fun _ h => ⟨h.1, by decide, h.2.2.1⟩, ⟨_, rfl, by decide⟩⟩

theorem witness_DecideMarksHandledTriggers :
    (∃ t, exec (.process 0) emitting = .next t ∧ emitting.core.seq.state ≠ .error ∧ t.core.seq.decide = true) ∧
    (∃ t, exec (.process 0) voted = .next t ∧ voted.core.seq.state ≠ .error ∧ t.core.seq.decide = true) :=
  ⟨(emitting_process 0).imp fun _ h => ⟨h.1, by decide, h.2.2.2⟩,
    (voted_process 0).imp fun _ h => ⟨h.1, by decide, h.2.2⟩⟩

theorem witness_PreAcquisitionFrame :
    (resting .waitToSettle).core.seq.state = .waitToSettle ∧ (resting .senseGain).core.seq.state = .senseGain :=
  ⟨rfl, rfl⟩

/-- One state of every arm. -/
theorem witness_AgcSpeedsByState :
    (∃ t, exec (.process 0) (resting .waitToSettle) = .next t) ∧ (∃ t, exec (.process 0) (resting .senseGain) = .next t) ∧
    (∃ t, exec (.process 0) (firing .carrierSync) = .next t) ∧ (∃ t, exec (.process 0) (firing .carrierLock) = .next t) ∧
    (∃ t, exec (.process 0) voted = .next t) ∧ (∃ t, exec (.process 0) emitting = .next t) ∧
    (∃ t, exec (.process 0) (firing .error) = .next t) :=
  ⟨⟨_, rfl⟩, ⟨_, rfl⟩, ⟨_, rfl⟩, ⟨_, rfl⟩, (voted_process 0).imp fun _ h => h.1, (emitting_process 0).imp fun _ h => h.1,
    ⟨_, rfl⟩⟩

/-- A sample that is demodulated, one that is not, and another command. -/
theorem witness_NcoAdvancesOncePerDemodulatedSample :
    (∃ t, exec (.process 0) emitting = .next t ∧ emitting.core.seq.state.demodulating = true ∧
      t.core.seq.state ≠ .error) ∧
    (∃ t, exec (.process 0) (firing .error) = .next t ∧ (firing .error).core.seq.state.demodulating = false) ∧
    (∃ t, exec .beginCarrierSync (firing .ok) = .next t) :=
  ⟨(emitting_process 0).imp fun _ h => ⟨h.1, rfl, by rw [h.2.1]; decide⟩, ⟨_, rfl, rfl⟩, ⟨_, rfl⟩⟩

theorem witness_NaNPhaseSticks :
    let s := machine (corePhases 5 .carrierSync ⟨0x7FC00000⟩ ⟨0xFF800001⟩)
    s.core.pll.phase.isNaN = true ∧ s.core.seq.state ≠ .error ∧ s.core.seq.state.demodulating = true := by decide

/-- The largest phase and the largest step. -/
theorem witness_PhaseStaysInUnitInterval : inUnit ⟨0x3F7FFFFF⟩ = true ∧ inUnitClosed one = true := by decide +kernel

/-- The accumulator at each limit, an infinite error. -/
theorem witness_AccumulatorAndStepStayInRange :
    F32.isNaN ⟨0xFF800000⟩ = false ∧ inWindup windupLimit = true ∧ inWindup windupLimitNeg = true := by decide +kernel

/-- A trigger at each threshold, no trigger, and a phase that has not moved; phases at both ends of `[0, 1)`. -/
theorem witness_TriggerDelayInUnitInterval :
    inUnit ⟨0x3F7FFFFF⟩ = true ∧ inUnit ⟨0⟩ = true ∧ phaseTrigger F32.zero (pair ⟨0x3F7FFFFF⟩ ⟨0⟩) = some ⟨0⟩ ∧
      inUnit ⟨0x3ECCCCCD⟩ = true ∧ inUnit half = true ∧ phaseTrigger half (pair ⟨0x3ECCCCCD⟩ half) = some ⟨0⟩ ∧
      F32.eq ⟨0⟩ ⟨0x80000000⟩ = true ∧ phaseTrigger half (pair ⟨0x3F7FFFFF⟩ ⟨0⟩) = none := by decide +kernel

/-- A lane of every index. -/
theorem witness_QuantizeIsProjection :
    decisionIndex oneNeg = 0 ∧ decisionIndex halfNeg = 1 ∧ decisionIndex ⟨0⟩ = 2 ∧ decisionIndex half = 3 := by
  decide +kernel

/-- A delay at each end, and an infinite one. -/
theorem witness_SampleSymbolStaysInWindow :
    F32.isNaN ⟨0⟩ = false ∧ F32.isNaN (dmax .n5) = false ∧ F32.isNaN ⟨0x7F800000⟩ = false ∧ ramp.length = T1.n := by decide

/-- One value for each clause: finite (a band edge), NaN, both infinities. -/
theorem witness_DecisionIndexIsExact :
    F32.isFinite half = true ∧ F32.isFinite ⟨0x80000001⟩ = true ∧ F32.isNaN ⟨0x7FC00000⟩ = true ∧
      F32.isInf ⟨0x7F800000⟩ = true ∧ F32.isInf ⟨0xFF800000⟩ = true := by decide

/-- A correlation of 5.25, below the maximum and above a maximum of 0, and one that is negative. -/
theorem witness_CorrelatorMaximumIsMonotoneBetweenValleys :
    aligned.max.isNaN = false ∧ aligned.max.sign = false ∧ F32.isNaN ⟨0⟩ = false ∧ F32.sign ⟨0⟩ = false ∧
      (correlate T1 ⟨0⟩ V.zero aligned).2.hist[0].gt aligned.max = false ∧
      (correlate T1 ⟨0⟩ V.zero aligned).2.hist[0].lt F32.zero = false ∧
      (correlate T1 ⟨0⟩ V.zero { aligned with max := ⟨0⟩ }).2.hist[0].gt ⟨0⟩ = true ∧
      (correlate T1 ⟨0⟩ ⟨⟨0x41200000⟩, ⟨0⟩⟩ aligned).2.hist[0].lt F32.zero = true := by decide +kernel

/-- A peak with no peak before it and with four, and no peak (the maximum is not in the history). -/
theorem witness_CorrelatorAnswersAfterFourPeaks :
    aligned.peaks.toNat ≤ 4 ∧ (correlate T1 half V.zero aligned).2.peaks = 1 ∧
      ({ aligned with peaks := 4 } : CorState).peaks.toNat ≤ 4 ∧
      (correlate T1 half V.zero { aligned with peaks := 4 }).2.peaks = 4 ∧
      (correlate T1 half V.zero { aligned with peaks := 4 }).2.dec ≠ aligned.dec ∧
      (correlate T1 half V.zero { aligned with max := ⟨0x41200000⟩ }).2.peaks = 0 := by decide +kernel

/-- Two inputs that agree in one lane only, for each lane; the filter states are the same one. -/
theorem witness_FilterLanesAreIndependent :
    (V.i ⟨one, one⟩ = V.i ⟨one, oneNeg⟩ ∧ V.q ⟨one, one⟩ ≠ V.q ⟨one, oneNeg⟩) ∧
      (V.q ⟨one, one⟩ = V.q ⟨oneNeg, one⟩ ∧ V.i ⟨one, one⟩ ≠ V.i ⟨oneNeg, one⟩) := by decide

/-- The level and the coefficient at both ends of their ranges; samples at the smallest and at the largest bound. -/
theorem witness_LevelStaysNonNegative :
    F32.isFinite ⟨0⟩ = true ∧ F32.ge ⟨0⟩ F32.zero = true ∧ F32.isFinite ⟨0x7F7FFFFF⟩ = true ∧
      F32.ge ⟨0x7F7FFFFF⟩ F32.zero = true ∧ T1.alphaLvl.ge F32.zero = true ∧ T1.alphaLvl.le one = true ∧
      one.ge F32.zero = true ∧ one.le one = true ∧
      F32.le ⟨0⟩ (F32.ofSignMag false (0 * 2 ^ 23)) = true ∧
      (∀ m ∈ [(⟨0⟩ : F32), ⟨0x80000000⟩], m.abs.le (F32.ofSignMag false (0 * 2 ^ 23)) = true) ∧
      F32.le ⟨0x7F000000⟩ (F32.ofSignMag false (254 * 2 ^ 23)) = true ∧
      (∀ m ∈ [(⟨0xFF000000⟩ : F32), one], m.abs.le (F32.ofSignMag false (254 * 2 ^ 23)) = true) := by decide +kernel

/-- A vector stronger than the reference and one weaker, a gain of 1. -/
theorem witness_GainUpdateOpposesTheError :
    one.isFinite = true ∧ ((V.norm2 ⟨one, one⟩).sub carrierSyncVector.norm2).gt F32.zero = true ∧
      ((V.norm2 V.zero).sub carrierSyncVector.norm2).lt F32.zero = true := by decide +kernel

/-- One third is finite and not exact, and so is the sum of 1 and 2^-24; at the largest finite value, the sum with 2^103 is
the midpoint and overflows, and the sum with the value below does not; a product and two quotients that overflow. -/
theorem witness_ArithmeticIsCorrectlyRounded :
    one.isFinite = true ∧ F32.isFinite ⟨0x33800000⟩ = true ∧ (one.add ⟨0x33800000⟩).isFinite = true ∧
      (one.sub ⟨0x33800000⟩).isFinite = true ∧ (one.mul ⟨0x33800000⟩).isFinite = true ∧
      (one.div ⟨0x40400000⟩).isFinite = true ∧ F32.isFinite ⟨0x40400000⟩ = true ∧
      F32.isFinite ⟨0x7F7FFFFF⟩ = true ∧ F32.isFinite ⟨0x73000000⟩ = true ∧
      (F32.add ⟨0x7F7FFFFF⟩ ⟨0x73000000⟩).isInf = true ∧ (F32.add ⟨0x7F7FFFFF⟩ ⟨0x72FFFFFF⟩).isFinite = true ∧
      (F32.sub ⟨0xFF7FFFFF⟩ ⟨0x73000000⟩).isInf = true ∧ (F32.mul ⟨0x7F7FFFFF⟩ two).isInf = true ∧
      (F32.div ⟨0x7F7FFFFF⟩ half).isInf = true ∧ (one.div ⟨0⟩).isInf = true ∧ one.value ≠ 0 := by decide +kernel

/-- Half a unit lies between the patterns 0 and 1. -/
theorem witness_TiesRoundToEven :
    (0 : Nat) < 2 ∧ 1 < infMag ∧ roundMag 1 2 < infMag ∧ 1 ≠ roundMag 1 2 ∧
      |(unitsOf 1 : Int) * (2 : Nat) - (1 : Nat)| = |(unitsOf (roundMag 1 2) : Int) * (2 : Nat) - (1 : Nat)| := by decide +kernel

theorem witness_EveryStepKeepsTheInvariant :
    let s : State := { firing .carrierLock with port := ⟨[.command ⟨0x0004, 0x3E800000⟩], none⟩ }
    s.Inv ∧ ∃ t, step s = .next t := ⟨firing_inv .carrierLock, _, rfl⟩

theorem witness_InvariantStatesNeverStop : (firing .align).Inv ∧ (firing .ok).Inv := ⟨firing_inv _, firing_inv _⟩

theorem witness_RunsAfterInitForgetHistory :
    let s := offered (coreAt 5 .ok) [.command ⟨0x0001, 0⟩, .command ⟨0x0004, 0⟩]
    let s' := offered (coreAt 5 .error) [.command ⟨0x0001, 0⟩, .command ⟨0x0004, 0⟩]
    s.port.inputs = .command ⟨0x0001, 0⟩ :: [.command ⟨0x0004, 0⟩] ∧ s'.port.inputs = s.port.inputs ∧ s ≠ s' := by
  decide

/-- A history of five entries: its newest and its oldest index, and the first one outside. -/
theorem witness_WindowsShiftByOne :
    0 < ramp.length ∧ 3 + 1 < ramp.length ∧ historyRead (historyWrite ramp V.zero) 4 = historyRead ramp 3 ∧
      historyRead ramp 5 = none := by decide

/-- Finite values, both infinities, and a NaN. -/
theorem witness_ComparisonsFollowValues :
    F32.isFinite ⟨0x80000000⟩ = true ∧ F32.isFinite ⟨0x7F7FFFFF⟩ = true ∧ F32.isInf ⟨0x7F800000⟩ = true ∧
      F32.isInf ⟨0xFF800000⟩ = true ∧ F32.isNaN ⟨0x7F800001⟩ = true := by decide

/-- A value of each kind; the floor of the smallest negative value is -1. -/
theorem witness_FloorIsExact :
    F32.isFinite ⟨0x80000001⟩ = true ∧ F32.floor ⟨0x80000001⟩ = oneNeg ∧ F32.isInf ⟨0xFF800000⟩ = true ∧
      F32.isNaN ⟨0x7FC00000⟩ = true := by decide +kernel

end Sys2Proof.Tests
end

section
/-! Rounding (R20): `roundMag` picks the nearest binary32 magnitude, ties to even, and overflows from the midpoint of the
largest finite magnitude and 2^128 on. -/

namespace Sys2Proof

/-! ### The nearest multiple -/

/-- The rounded quotient is less than half a divisor away, or exactly half and then even. -/
theorem roundNearestEven_error (n d : Nat) (hd : 0 < d) :
    2 * |(roundNearestEven n d : Int) * d - n| < d ∨
      2 * |(roundNearestEven n d : Int) * d - n| = d ∧ roundNearestEven n d % 2 = 0 := by
  have hn := Nat.div_add_mod' n d
  have hr := Nat.mod_lt n hd
  simp only [roundNearestEven, Int.abs_eq_natAbs]
  generalize n / d = q, n % d = r at *
  have hsucc : (q + 1) * d = q * d + d := Nat.succ_mul q d
  split <;> omega

/-- The rounded quotient gives the nearest multiple of the divisor; one as near makes it even. -/
theorem roundNearestEven_nearest {n d z : Nat} (hd : 0 < d) (hz : z ≠ roundNearestEven n d) :
    |(roundNearestEven n d : Int) * d - n| < |(z : Int) * d - n| ∨
      |(roundNearestEven n d : Int) * d - n| = |(z : Int) * d - n| ∧ roundNearestEven n d % 2 = 0 := by
  have herr := roundNearestEven_error n d hd
  generalize roundNearestEven n d = r at *
  have hsep : (d : Int) ≤ |(z : Int) * d - n| + |(r : Int) * d - n| := by
    have h1 : (1 : Int) ≤ |(z : Int) - r| := Int.one_le_abs (by omega)
    calc (d : Int) ≤ |(z : Int) - r| * d := by nlinarith
      _ = |((z : Int) * d - n) - (r * d - n)| := by
        rw [← Nat.abs_cast d, ← abs_mul, Nat.abs_cast]; congr 1; ring
      _ ≤ _ := abs_sub _ _
  omega

/-! ### The nearest pattern -/

/-- The value of a pattern that is a significand above a block of `k` exponent steps: the significand, shifted. A
significand of 2^24 is the carry into the next exponent. -/
theorem unitsOf_block {k r : Nat} (hlo : k = 0 ∨ 2 ^ 23 ≤ r) (hhi : r ≤ 2 ^ 24) :
    unitsOf (k * 2 ^ 23 + r) = r * 2 ^ k := by
  rcases Nat.lt_or_ge r (2 ^ 23) with hr | hr
  · obtain rfl : k = 0 := by omega
    simp only [unitsOf, Nat.zero_mul, Nat.zero_add, Nat.div_eq_of_lt hr]
    simp
  rcases Nat.lt_or_eq_of_le hhi with hr' | rfl
  · have : (k * 2 ^ 23 + r) / 2 ^ 23 - 1 = k := by omega
    simp only [unitsOf, this, Nat.add_sub_cancel_left]
  · have h1 : (k * 2 ^ 23 + 2 ^ 24) / 2 ^ 23 - 1 = k + 1 := by omega
    have h2 : k * 2 ^ 23 + 2 ^ 24 - (k + 1) * 2 ^ 23 = 2 ^ 23 := by omega
    simp only [unitsOf, h1, h2]
    ring

/-- The significand that `roundPattern` computes has at most 24 bits or is the carry 2^24, and has at least 24 bits
once the exponent has moved. -/
theorem roundNearestEven_shift_bounds (num den : Nat) :
    let k := Nat.log2 (num / den) - 23
    (k = 0 ∨ 2 ^ 23 ≤ roundNearestEven num (den * 2 ^ k)) ∧ roundNearestEven num (den * 2 ^ k) ≤ 2 ^ 24 := by
  intro k
  obtain ⟨hhi, hlo⟩ := shift_spec (num / den)
  have hq : num / (den * 2 ^ k) = num / den / 2 ^ k := (Nat.div_div_eq_div_mul ..).symm
  have hge := roundNearestEven_ge num (den * 2 ^ k)
  have hle := roundNearestEven_le num (den * 2 ^ k)
  constructor
  · rcases Nat.eq_zero_or_pos k with h0 | hk
    · exact .inl h0
    · have : 2 ^ 23 ≤ num / den / 2 ^ k := by
        rw [Nat.le_div_iff_mul_le (Nat.two_pow_pos _), ← Nat.pow_add]
        exact hlo hk
      omega
  · have : num / den / 2 ^ k < 2 ^ 24 := by
      apply Nat.div_lt_of_lt_mul
      rw [← Nat.pow_add, Nat.add_comm]
      exact hhi
    omega

/-- The value of the rounded pattern: the rounded significand, shifted by the exponent. -/
theorem unitsOf_roundPattern (num den : Nat) :
    unitsOf (roundPattern num den) =
      roundNearestEven num (den * 2 ^ (Nat.log2 (num / den) - 23)) * 2 ^ (Nat.log2 (num / den) - 23) := by
  obtain ⟨hlo, hhi⟩ := roundNearestEven_shift_bounds num den
  exact unitsOf_block hlo hhi

/-- A magnitude is a multiple of `2 ^ k` when its exponent is at least `k`, and less than `2 ^ (23 + k)` otherwise. -/
theorem unitsOf_multiple_or_lt (m k : Nat) :
    (∃ z, unitsOf m = z * 2 ^ k) ∨ 0 < k ∧ unitsOf m < 2 ^ 23 * 2 ^ k := by
  rcases Nat.eq_zero_or_pos k with rfl | hk
  · exact .inl ⟨unitsOf m, by simp⟩
  rcases Nat.lt_or_ge m ((k + 1) * 2 ^ 23) with hm | hm
  · have hfoot : unitsOf (k * 2 ^ 23 + 2 ^ 23) = 2 ^ 23 * 2 ^ k := unitsOf_block (.inr le_rfl) (by decide)
    rw [← hfoot]
    exact .inr ⟨hk, unitsOf_lt_iff.2 (by omega)⟩
  · have hle : k ≤ m / 2 ^ 23 - 1 := by omega
    refine .inl ⟨(m - (m / 2 ^ 23 - 1) * 2 ^ 23) * 2 ^ (m / 2 ^ 23 - 1 - k), ?_⟩
    rw [mul_assoc, ← pow_add, Nat.sub_add_cancel hle, unitsOf]

/-- No magnitude is nearer to `num / den` than the rounded one, even with no bound on the exponent; and when another one is
as near, the rounded pattern is even. A magnitude below the exponent of the result is farther away than the power of two at
its foot, which is one of the multiples that the rounding chose from. -/
theorem roundPattern_nearest {num den m : Nat} (hd : 0 < den) (hm : m ≠ roundPattern num den) :
    |(unitsOf (roundPattern num den) : Int) * den - num| < |(unitsOf m : Int) * den - num| ∨
      |(unitsOf (roundPattern num den) : Int) * den - num| = |(unitsOf m : Int) * den - num| ∧
        roundPattern num den % 2 = 0 := by
  have hu := unitsOf_roundPattern num den
  have hp : roundPattern num den = (Nat.log2 (num / den) - 23) * 2 ^ 23 +
      roundNearestEven num (den * 2 ^ (Nat.log2 (num / den) - 23)) := rfl
  have hfoot := (shift_spec (num / den)).2
  have hgrid := unitsOf_multiple_or_lt m (Nat.log2 (num / den) - 23)
  generalize Nat.log2 (num / den) - 23 = k at *
  have near := fun z => roundNearestEven_nearest (n := num) (z := z) (Nat.mul_pos hd (Nat.two_pow_pos k))
  generalize roundNearestEven num (den * 2 ^ k) = r at *
  have scaled (z : Nat) : ((z * 2 ^ k : Nat) : Int) * den - num = (z : Int) * (den * 2 ^ k : Nat) - num := by
    push_cast; ring
  rw [hu, scaled]
  rcases hgrid with ⟨z, hz⟩ | ⟨hk, hlt⟩
  · have hzr : z ≠ r := by
      rintro rfl
      have hle := fun {a b} => (unitsOf_le_iff (m := a) (m' := b)).1
      exact hm (Nat.le_antisymm (hle (by omega)) (hle (by omega)))
    rw [hz, scaled]
    exact (near z hzr).imp_right fun ⟨heq, heven⟩ => ⟨heq, by omega⟩
  · left
    have hbelow : 2 ^ 23 * 2 ^ k * den ≤ num := by
      rw [← Nat.pow_add, ← Nat.le_div_iff_mul_le hd]
      exact hfoot hk
    have hfar : unitsOf m * den < 2 ^ 23 * 2 ^ k * den := Nat.mul_lt_mul_of_pos_right hlt hd
    have hr : |(r : Int) * (den * 2 ^ k : Nat) - num| ≤ |((2 ^ 23 : Nat) : Int) * (den * 2 ^ k : Nat) - num| := by
      by_cases h : 2 ^ 23 = r
      · rw [h]
      · rcases near _ h with h | h <;> omega
    rw [← scaled, ← scaled] at hr
    rw [← scaled]
    generalize 2 ^ 23 * 2 ^ k = f at *
    zify at hbelow hfar
    simp only [Int.abs_eq_natAbs] at *
    omega

/-- The overflow boundary, in units of 2^-149: the midpoint of the largest finite magnitude and 2^128. -/
def overflowLimit : Nat := (2 ^ 25 - 1) * 2 ^ 252

/-- The boundary is as far from the largest finite magnitude as from the power of two above. -/
theorem overflowLimit_midpoint : unitsOf (infMag - 1) + unitsOf infMag = 2 * overflowLimit := by decide +kernel

/-- The rounding stays finite exactly below the overflow boundary: at the boundary both neighbours are as near, and the
largest finite pattern is odd. -/
theorem roundMag_lt_infMag_iff {num den : Nat} (hd : 0 < den) :
    roundMag num den < infMag ↔ num < overflowLimit * den := by
  have hmid : unitsOf (infMag - 1) * den + unitsOf infMag * den = 2 * (overflowLimit * den) := by
    rw [← Nat.add_mul, overflowLimit_midpoint, Nat.mul_assoc]
  have hlt {m m' : Nat} (h : m < m') : unitsOf m * den < unitsOf m' * den :=
    Nat.mul_lt_mul_of_pos_right (unitsOf_lt_iff.2 h) hd
  have hgap := hlt (show infMag - 1 < infMag by decide)
  have hodd : (infMag - 1) % 2 = 1 := by decide
  have near := fun m => roundPattern_nearest (num := num) (m := m) hd
  rw [roundMag_eq, min_lt_iff, or_iff_left (lt_irrefl _)]
  generalize roundPattern num den = p at *
  constructor
  · intro hp
    have hinf := near infMag (by omega)
    rcases Nat.lt_or_eq_of_le (Nat.le_sub_one_of_lt hp) with h | rfl
    · have := hlt h
      simp only [Int.abs_eq_natAbs] at *
      omega
    · simp only [Int.abs_eq_natAbs] at *
      omega
  · intro hnum
    by_contra hp
    have hmax := near (infMag - 1) (by omega)
    have hover : unitsOf infMag * den ≤ unitsOf p * den := Nat.mul_le_mul_right _ (unitsOf_le_iff.2 (not_lt.1 hp))
    simp only [Int.abs_eq_natAbs] at *
    omega

/-- Short of the overflow, `roundMag` is the unbounded pattern. -/
theorem roundMag_eq_roundPattern {num den : Nat} (h : roundMag num den < infMag) :
    roundMag num den = roundPattern num den := by
  rw [roundMag_eq] at h ⊢
  omega

/-- Rounding to a finite magnitude gives a nearest one. -/
theorem roundMag_nearest {num den : Nat} (hd : 0 < den) (hfin : roundMag num den < infMag) (m : Nat) :
    |(unitsOf (roundMag num den) : Int) * den - num| ≤ |(unitsOf m : Int) * den - num| := by
  rw [roundMag_eq_roundPattern hfin]
  by_cases hm : m = roundPattern num den
  · rw [hm]
  · exact (roundPattern_nearest hd hm).elim le_of_lt fun h => h.1.le

/-- Settles O50: a pattern other than the result is farther away, or the result is even. -/
theorem tiesRoundToEven : Obligations.TiesRoundToEven := by
  intro num den m hd _ hfin hm htie
  rw [roundMag_eq_roundPattern hfin] at hm htie ⊢
  rcases roundPattern_nearest hd hm with hcloser | ⟨-, heven⟩
  · exact absurd htie hcloser.ne'
  · exact heven

end Sys2Proof
end

section
/-! Values of results (R20): a sign and a magnitude, and when the rounded value of one is finite, infinite and nearest. -/

namespace Sys2Proof

/-! ### Signed magnitudes -/

/-- The integer with this sign and magnitude. -/
def withSign (neg : Bool) (n : Nat) : Int := if neg then -(n : Int) else (n : Int)

theorem F32.value_eq_withSign (a : F32) : a.value = withSign a.sign (unitsOf a.mag) := rfl

@[simp] theorem withSign_zero (neg : Bool) : withSign neg 0 = 0 := by cases neg <;> rfl

@[simp] theorem abs_withSign (neg : Bool) (n : Nat) : |withSign neg n| = n := by
  cases neg <;> simp [withSign]

theorem withSign_natAbs (x : Int) : withSign (decide (x < 0)) x.natAbs = x := by
  simp only [withSign, decide_eq_true_eq]
  split <;> omega

theorem withSign_mul (s t : Bool) (m n : Nat) : withSign s m * withSign t n = withSign (s != t) (m * n) := by
  cases s <;> cases t <;> simp [withSign]

theorem withSign_mul_natCast (s : Bool) (m n : Nat) : withSign s m * n = withSign s (m * n) :=
  (withSign_mul s false m n).trans (by rw [Bool.bne_false])

theorem decide_withSign_lt_zero {neg : Bool} {n : Nat} (h : n ≠ 0) : decide (withSign neg n < 0) = neg := by
  cases neg
  case false => simp [withSign]
  case true => simp [withSign]; omega

/-- The sign of a factor can be moved to the number compared with. -/
theorem abs_mul_withSign_sub (y : Int) (s t : Bool) (m n : Nat) :
    |y * withSign s m - withSign t n| = |y * m - withSign (t != s) n| := by
  cases s
  · simp [withSign]
  · rw [← abs_neg]
    congr 1
    cases t
    all_goals
      simp only [withSign, bne_self_eq_false, Bool.false_bne, if_true, if_false, Bool.false_eq_true]
      ring

theorem F32.value_ofSignMag {neg : Bool} {m : Nat} (h : m < 2 ^ 31) :
    (F32.ofSignMag neg m).value = withSign neg (unitsOf m) := by
  rw [F32.value_eq_withSign, F32.sign_ofSignMag h, F32.mag_ofSignMag h]

theorem F32.natAbs_value (a : F32) : a.value.natAbs = unitsOf a.mag := by
  simp only [F32.value]
  split <;> omega

theorem F32.abs_value (a : F32) : |a.value| = unitsOf a.mag := by rw [Int.abs_eq_natAbs, F32.natAbs_value]

theorem F32.value_eq_zero_iff {a : F32} : a.value = 0 ↔ a.mag = 0 := by
  rw [← abs_eq_zero, F32.abs_value, Nat.cast_eq_zero, unitsOf_eq_zero_iff]

/-! ### Kinds of values -/

theorem F32.not_nan_inf_of_finite {a : F32} (h : a.isFinite = true) : a.isNaN = false ∧ a.isInf = false := by
  rw [F32.isFinite_iff] at h
  exact ⟨F32.isNaN_false_iff.2 h.le, by simp [F32.isInf, h.ne]⟩

theorem F32.isNaN_of_isInf {a : F32} (h : a.isInf = true) : a.isNaN = false :=
  F32.isNaN_false_iff.2 (F32.isInf_iff.1 h).le

/-! ### The rounded value -/

/-- `± num / den` units of 2^-149, rounded once: what every operation answers with on finite operands. -/
def F32.rounded (neg : Bool) (num den : Nat) : F32 := F32.ofSignMag neg (roundMag num den)

theorem F32.value_rounded (neg : Bool) (num den : Nat) :
    (F32.rounded neg num den).value = withSign neg (unitsOf (roundMag num den)) :=
  F32.value_ofSignMag (roundMag_lt num den)

theorem F32.sign_rounded (neg : Bool) (num den : Nat) : (F32.rounded neg num den).sign = neg :=
  F32.sign_ofSignMag (roundMag_lt num den)

theorem F32.mag_rounded (neg : Bool) (num den : Nat) : (F32.rounded neg num den).mag = roundMag num den :=
  F32.mag_ofSignMag (roundMag_lt num den)

theorem F32.isFinite_rounded_iff {neg : Bool} {num den : Nat} (hd : 0 < den) :
    (F32.rounded neg num den).isFinite = true ↔ num < overflowLimit * den := by
  rw [F32.isFinite_iff, F32.mag_rounded, roundMag_lt_infMag_iff hd]

theorem F32.isInf_rounded {neg : Bool} {num den : Nat} (hd : 0 < den) (h : overflowLimit * den ≤ num) :
    (F32.rounded neg num den).isInf = true := by
  have hle := roundMag_le num den
  have hge := (roundMag_lt_infMag_iff hd).not.2 h.not_gt
  rw [F32.isInf_iff, F32.mag_rounded]
  omega

/-- `r` is `x / den` units of 2^-149, correctly rounded (R20): no finite value is nearer, it is finite exactly below the
overflow boundary, and from there on it is the infinity with sign `neg`. -/
structure F32.CorrectlyRounds (r : F32) (neg : Bool) (x : Int) (den : Nat) : Prop where
  nearest : r.isFinite = true → ∀ c : F32, |r.value * den - x| ≤ |c.value * den - x|
  finite_iff : r.isFinite = true ↔ |x| < overflowLimit * den
  overflow : overflowLimit * den ≤ |x| → r.isInf = true ∧ r.sign = neg

/-- One rounding of a magnitude is correct for the signed value: a candidate with the other sign is on the far side of
zero, which is itself a magnitude. -/
theorem F32.correctlyRounds_rounded (neg : Bool) (num : Nat) {den : Nat} (hd : 0 < den) :
    (F32.rounded neg num den).CorrectlyRounds neg (withSign neg num) den where
  nearest hfin c := by
    rw [F32.isFinite_iff, F32.mag_rounded] at hfin
    have hc := roundMag_nearest hd hfin c.mag
    have h0 := roundMag_nearest hd hfin 0
    rw [F32.value_rounded, c.value_eq_withSign, withSign_mul_natCast, withSign_mul_natCast]
    simp only [unitsOf_zero, Int.abs_eq_natAbs, withSign] at *
    split <;> split <;> omega
  finite_iff := by
    rw [F32.isFinite_rounded_iff hd, abs_withSign]
    exact_mod_cast Iff.rfl
  overflow hover := by
    rw [abs_withSign] at hover
    exact ⟨F32.isInf_rounded hd (by exact_mod_cast hover), F32.sign_rounded ..⟩

/-! ### The operations, as one rounding of the exact result -/

theorem sumOr_eq_rounded {nan a b : F32} (ha : a.isFinite = true) (hb : b.isFinite = true) :
    ∃ neg n, a.value + b.value = withSign neg n ∧ sumOr nan a b = F32.rounded neg n 1 := by
  rw [sumOr_finite ha hb]
  split
  · next h => exact ⟨a.sign && b.sign, 0, h.trans (withSign_zero _).symm, rfl⟩
  · exact ⟨_, _, (withSign_natAbs _).symm, rfl⟩

theorem F32.mul_eq_rounded {a b : F32} (ha : a.isFinite = true) (hb : b.isFinite = true) :
    a.mul b = F32.rounded (a.sign != b.sign) (unitsOf a.mag * unitsOf b.mag) (2 ^ 149) := by
  obtain ⟨na, ia⟩ := F32.not_nan_inf_of_finite ha
  obtain ⟨nb, ib⟩ := F32.not_nan_inf_of_finite hb
  simp [F32.mul, na, nb, ia, ib, F32.rounded]

theorem F32.div_eq_rounded {a b : F32} (ha : a.isFinite = true) (hb : b.isFinite = true) (h0 : b.mag ≠ 0) :
    a.div b = F32.rounded (a.sign != b.sign) (unitsOf a.mag * 2 ^ 149) (unitsOf b.mag) := by
  obtain ⟨na, ia⟩ := F32.not_nan_inf_of_finite ha
  obtain ⟨nb, ib⟩ := F32.not_nan_inf_of_finite hb
  simp [F32.div, na, nb, ia, ib, h0, F32.rounded]

/-- A nonzero value divided by zero is an infinity; zero divided by zero is a NaN (R20, entry 8). -/
theorem F32.div_zero {a b : F32} (ha : a.isFinite = true) (h0 : b.mag = 0) :
    a.div b = if a.mag = 0 then nanResult .div a b else F32.ofSignMag (a.sign != b.sign) infMag := by
  obtain ⟨na, ia⟩ := F32.not_nan_inf_of_finite ha
  have hb : b.isFinite = true := F32.isFinite_iff.2 (by rw [h0]; decide)
  obtain ⟨nb, ib⟩ := F32.not_nan_inf_of_finite hb
  simp [F32.div, na, nb, ia, ib, h0]

end Sys2Proof
end

section
/-! Sums, differences, products and quotients are correctly rounded (R20). -/

namespace Sys2Proof

/-- The sum of finite values is correctly rounded. A zero sum has a sign of its own, but does not overflow. -/
theorem sumOr_correctlyRounds {nan a b : F32} (ha : a.isFinite = true) (hb : b.isFinite = true) :
    (sumOr nan a b).CorrectlyRounds (decide (a.value + b.value < 0)) (a.value + b.value) 1 := by
  obtain ⟨neg, n, hx, hr⟩ := sumOr_eq_rounded (nan := nan) ha hb
  rw [hr, hx]
  obtain ⟨near, finite, overflow⟩ := F32.correctlyRounds_rounded neg n one_pos
  refine ⟨near, finite, fun hover => ?_⟩
  have hn : n ≠ 0 := by
    rintro rfl
    rw [withSign_zero] at hover
    exact absurd hover (by decide)
  rw [decide_withSign_lt_zero hn]
  exact overflow hover

theorem F32.add_correctlyRounds {a b : F32} (ha : a.isFinite = true) (hb : b.isFinite = true) :
    (a.add b).CorrectlyRounds (decide (a.value + b.value < 0)) (a.value + b.value) 1 := by
  rw [F32.add]
  exact sumOr_correctlyRounds ha hb

theorem F32.sub_correctlyRounds {a b : F32} (ha : a.isFinite = true) (hb : b.isFinite = true) :
    (a.sub b).CorrectlyRounds (decide (a.value - b.value < 0)) (a.value - b.value) 1 := by
  have hb' : b.neg.isFinite = true := by rwa [F32.isFinite, F32.mag_neg]
  rw [F32.sub, sub_eq_add_neg, ← F32.value_neg]
  exact sumOr_correctlyRounds ha hb'

theorem F32.mul_correctlyRounds {a b : F32} (ha : a.isFinite = true) (hb : b.isFinite = true) :
    (a.mul b).CorrectlyRounds (a.sign != b.sign) (a.value * b.value) (2 ^ 149) := by
  rw [F32.mul_eq_rounded ha hb, a.value_eq_withSign, b.value_eq_withSign, withSign_mul]
  exact F32.correctlyRounds_rounded _ _ (Nat.two_pow_pos _)

/-- The quotient by a nonzero value is correctly rounded, with the divisor's sign moved to the dividend. -/
theorem F32.div_correctlyRounds {a b : F32} (ha : a.isFinite = true) (hb : b.isFinite = true) (h0 : b.mag ≠ 0) :
    (a.div b).CorrectlyRounds (a.sign != b.sign) (withSign (a.sign != b.sign) (unitsOf a.mag * 2 ^ 149))
      (unitsOf b.mag) := by
  rw [F32.div_eq_rounded ha hb h0]
  exact F32.correctlyRounds_rounded _ _ (Nat.pos_of_ne_zero (unitsOf_eq_zero_iff.not.2 h0))

/-- The same for the exact operands: the error of a quotient, multiplied by the divisor. -/
theorem F32.div_correctlyRounds_mul_divisor {a b : F32} (ha : a.isFinite = true) (hb : b.isFinite = true)
    (h0 : b.mag ≠ 0) :
    ((a.div b).isFinite = true →
      ∀ c : F32, |(a.div b).value * b.value - a.value * 2 ^ 149| ≤ |c.value * b.value - a.value * 2 ^ 149|) ∧
    ((a.div b).isFinite = true ↔ |a.value| * 2 ^ 149 < overflowLimit * |b.value|) ∧
    (overflowLimit * |b.value| ≤ |a.value| * 2 ^ 149 →
      (a.div b).isInf = true ∧ (a.div b).sign = (a.sign != b.sign)) := by
  obtain ⟨near, finite, overflow⟩ := F32.div_correctlyRounds ha hb h0
  have hnum : a.value * 2 ^ 149 = withSign a.sign (unitsOf a.mag * 2 ^ 149) := withSign_mul_natCast ..
  rw [abs_withSign, Nat.cast_mul, Nat.cast_pow, Nat.cast_ofNat] at finite overflow
  rw [F32.abs_value, F32.abs_value, hnum, b.value_eq_withSign]
  simp only [abs_mul_withSign_sub]
  exact ⟨near, finite, overflow⟩

/-- A quotient by a zero is never finite, and is an infinity for a nonzero dividend. -/
theorem F32.div_zero_overflows {a b : F32} (ha : a.isFinite = true) (h0 : b.mag = 0) :
    (a.div b).isFinite = false ∧
      (a.value ≠ 0 → (a.div b).isInf = true ∧ (a.div b).sign = (a.sign != b.sign)) := by
  have hinf : infMag < 2 ^ 31 := by decide
  rw [F32.div_zero ha h0, ne_eq, F32.value_eq_zero_iff]
  split
  · next h =>
    have hnan := F32.isNaN_iff.1 (isNaN_nanResult .div a b)
    exact ⟨by simp [F32.isFinite]; omega, absurd h⟩
  · exact ⟨by simp [F32.isFinite, F32.mag_ofSignMag hinf],
      fun _ => ⟨F32.isInf_iff.2 (F32.mag_ofSignMag hinf), F32.sign_ofSignMag hinf⟩⟩

/-- Settles O49: each operation is one rounding of its exact result, and a rounding is nearest and overflows from the
midpoint on. -/
theorem arithmeticIsCorrectlyRounded : Obligations.ArithmeticIsCorrectlyRounded := by
  intro a b ha hb limit
  have hlimit : limit = (overflowLimit : Nat) := by decide
  clear_value limit
  subst hlimit
  obtain ⟨addNear, addFin, addInf⟩ := F32.add_correctlyRounds ha hb
  obtain ⟨subNear, subFin, subInf⟩ := F32.sub_correctlyRounds ha hb
  obtain ⟨mulNear, mulFin, mulInf⟩ := F32.mul_correctlyRounds ha hb
  simp only [Nat.cast_one, Nat.cast_pow, Nat.cast_ofNat, mul_one] at *
  by_cases h0 : b.mag = 0
  · obtain ⟨divFin, divInf⟩ := F32.div_zero_overflows ha h0
    have hb0 : |b.value| = 0 := abs_eq_zero.2 (F32.value_eq_zero_iff.2 h0)
    have hnonneg : ¬ |a.value| * 2 ^ 149 < 0 := not_lt.2 (mul_nonneg (abs_nonneg _) (by decide))
    have divIff : (a.div b).isFinite = true ↔ |a.value| * 2 ^ 149 < overflowLimit * |b.value| := by
      rw [divFin, hb0, mul_zero]
      exact iff_of_false Bool.false_ne_true hnonneg
    exact ⟨fun c _ => ⟨(addNear · c), (subNear · c), (mulNear · c), fun h => absurd h (by simp [divFin])⟩,
      addFin, subFin, mulFin, divIff, addInf, subInf, mulInf, fun hne _ => divInf hne⟩
  · obtain ⟨divNear, divFin, divInf⟩ := F32.div_correctlyRounds_mul_divisor ha hb h0
    exact ⟨fun c _ => ⟨(addNear · c), (subNear · c), (mulNear · c), (divNear · c)⟩,
      addFin, subFin, mulFin, divFin, addInf, subInf, mulInf, fun _ => divInf⟩

end Sys2Proof
end

section
/-! Comparisons follow the exact values (R21), and the floor is exact (R20, R22). -/

namespace Sys2Proof

/-! ### Comparisons -/

theorem F32.eq_iff {a b : F32} : a.eq b = true ↔ a.isNaN = false ∧ b.isNaN = false ∧ a.key = b.key := by
  simp [F32.eq, ordered, and_assoc]

theorem F32.value_eq_iff_key_eq {a b : F32} : a.value = b.value ↔ a.key = b.key := by
  rw [le_antisymm_iff, le_antisymm_iff, F32.value_le_iff_key_le, F32.value_le_iff_key_le]

/-- On operands that are not NaNs a comparison is that of the keys. -/
theorem F32.compare_of_ordered {a b : F32} (ha : a.isNaN = false) (hb : b.isNaN = false) :
    a.lt b = decide (a.key < b.key) ∧ a.le b = decide (a.key ≤ b.key) ∧ a.eq b = decide (a.key = b.key) := by
  simp [F32.lt, F32.le, F32.eq, ordered, ha, hb]

/-- Every comparison but `!=` is false on a NaN (R21). -/
theorem F32.compare_of_nan {a b : F32} (h : a.isNaN = true ∨ b.isNaN = true) :
    a.lt b = false ∧ a.le b = false ∧ a.eq b = false := by
  rcases h with h | h <;> simp [F32.lt, F32.le, F32.eq, ordered, h]

theorem F32.key_of_inf {a : F32} (h : a.isInf = true) : a.key = withSign a.sign infMag := by
  rw [← F32.isInf_iff.1 h]; rfl

/-- The key of a finite value lies strictly between those of the infinities. -/
theorem F32.abs_key_lt_of_finite {b : F32} (h : b.isFinite = true) : |b.key| < infMag := by
  rw [show |b.key| = b.mag from abs_withSign b.sign b.mag]
  exact_mod_cast F32.isFinite_iff.1 h

theorem F32.compare_finite {a b : F32} (ha : a.isFinite = true) (hb : b.isFinite = true) :
    a.lt b = decide (a.value < b.value) ∧ a.le b = decide (a.value ≤ b.value) ∧
      a.eq b = decide (a.value = b.value) := by
  simp only [F32.value_lt_iff_key_lt, F32.value_le_iff_key_le, F32.value_eq_iff_key_eq]
  exact F32.compare_of_ordered (F32.not_nan_inf_of_finite ha).1 (F32.not_nan_inf_of_finite hb).1

/-- An infinity lies beyond every finite value, on the side of its sign (R21). -/
theorem F32.compare_inf_finite {a b : F32} (ha : a.isInf = true) (hb : b.isFinite = true) :
    a.lt b = a.sign ∧ a.le b = a.sign ∧ a.eq b = false ∧ b.lt a = !a.sign ∧ b.le a = !a.sign ∧ b.eq a = false := by
  have na := F32.isNaN_of_isInf ha
  have nb := (F32.not_nan_inf_of_finite hb).1
  obtain ⟨hlo, hhi⟩ := abs_lt.1 (F32.abs_key_lt_of_finite hb)
  obtain ⟨lt, le, eq⟩ := F32.compare_of_ordered na nb
  obtain ⟨lt', le', eq'⟩ := F32.compare_of_ordered nb na
  rw [lt, le, eq, lt', le', eq', F32.key_of_inf ha]
  cases a.sign <;> simp [withSign] <;> omega

/-- The infinities are ordered by their signs. -/
theorem F32.compare_inf_inf {a b : F32} (ha : a.isInf = true) (hb : b.isInf = true) :
    a.lt b = (a.sign && !b.sign) ∧ a.le b = (a.sign || !b.sign) ∧ a.eq b = (a.sign == b.sign) := by
  obtain ⟨lt, le, eq⟩ := F32.compare_of_ordered (F32.isNaN_of_isInf ha) (F32.isNaN_of_isInf hb)
  rw [lt, le, eq, F32.key_of_inf ha, F32.key_of_inf hb]
  cases a.sign <;> cases b.sign <;> decide

/-- Settles O59, by the kinds of the operands. -/
theorem comparisonsFollowValues : Obligations.ComparisonsFollowValues :=
  fun _ _ => ⟨⟨rfl, rfl, rfl⟩, F32.compare_of_nan, F32.compare_finite, F32.compare_inf_finite, F32.compare_inf_inf⟩

/-! ### The floor -/

/-- A number up to 2^24, shifted, is the value of a pattern. -/
theorem exists_unitsOf_eq (k : Nat) {r : Nat} (hr : r ≤ 2 ^ 24) : ∃ m, unitsOf m = r * 2 ^ k := by
  induction k generalizing r with
  | zero => exact ⟨_, unitsOf_block (.inl rfl) hr⟩
  | succ k ih =>
    rcases Nat.le_total (2 ^ 23) r with h | h
    · exact ⟨_, unitsOf_block (.inr h) hr⟩
    · obtain ⟨m, hm⟩ := ih (r := r * 2) (by omega)
      exact ⟨m, hm.trans (by ring)⟩

theorem F32.floorInt_eq (a : F32) : a.floorInt = a.value / 2 ^ 149 := rfl

/-- The floor of a finite value is a finite magnitude: a value with its exponent above the point is its own floor, and
below that the floor is at most 2^24 in magnitude. -/
theorem F32.exists_unitsOf_floor {a : F32} (ha : a.isFinite = true) :
    ∃ m < infMag, unitsOf m = a.floorInt.natAbs * 2 ^ 149 := by
  have hval := a.natAbs_value
  rcases unitsOf_multiple_or_lt a.mag 149 with ⟨z, hz⟩ | ⟨-, hlt⟩
  · have hdvd : (2 ^ 149 : Int) ∣ a.value := by
      rw [← Int.dvd_natAbs, hval, hz]
      exact ⟨z, by push_cast; ring⟩
    refine ⟨a.mag, F32.isFinite_iff.1 ha, ?_⟩
    calc unitsOf a.mag = (a.value / 2 ^ 149 * 2 ^ 149).natAbs := by rw [Int.ediv_mul_cancel hdvd, hval]
      _ = a.floorInt.natAbs * 2 ^ 149 := by rw [Int.natAbs_mul, Int.natAbs_pow, F32.floorInt_eq]; rfl
  · have hsmall : a.floorInt.natAbs ≤ 2 ^ 24 := by rw [F32.floorInt_eq]; omega
    obtain ⟨m, hm⟩ := exists_unitsOf_eq 149 hsmall
    have hinf : unitsOf infMag = 2 ^ 23 * 2 ^ 254 := unitsOf_block (k := 254) (.inr le_rfl) (by decide)
    exact ⟨m, unitsOf_lt_iff.1 (by omega), hm⟩

/-- The floor of a finite value is one rounding of the real floor, with its sign when it is not zero. -/
theorem F32.floor_eq_rounded {a : F32} (ha : a.isFinite = true) :
    ∃ neg, withSign neg a.floorInt.natAbs = a.floorInt ∧ a.floor = F32.rounded neg (a.floorInt.natAbs * 2 ^ 149) 1 := by
  obtain ⟨na, ia⟩ := F32.not_nan_inf_of_finite ha
  have hfloor : a.floor = if a.floorInt = 0 then F32.ofSignMag a.sign 0
      else F32.rounded (decide (a.floorInt < 0)) (a.floorInt.natAbs * 2 ^ 149) 1 := by
    simp [F32.floor, na, ia, F32.rounded]
  rw [hfloor]
  split
  · next h =>
    rw [h]
    exact ⟨a.sign, withSign_zero _, rfl⟩
  · exact ⟨_, withSign_natAbs _, rfl⟩

/-- A magnitude is rounded to itself. -/
theorem F32.rounded_unitsOf {m : Nat} (neg : Bool) (hm : m ≤ infMag) :
    F32.rounded neg (unitsOf m) 1 = F32.ofSignMag neg m := by
  rw [F32.rounded, roundMag_unitsOf_one hm]

theorem F32.floor_finite {a : F32} (ha : a.isFinite = true) :
    a.floor.isFinite = true ∧ a.floor.value = a.floorInt * 2 ^ 149 := by
  obtain ⟨neg, hsign, hfloor⟩ := F32.floor_eq_rounded ha
  obtain ⟨m, hm, hunits⟩ := F32.exists_unitsOf_floor ha
  have hlt : m < 2 ^ 31 := hm.trans (by decide)
  rw [hfloor, ← hunits, F32.rounded_unitsOf neg hm.le]
  refine ⟨F32.isFinite_iff.2 ((F32.mag_ofSignMag hlt).trans_lt hm), ?_⟩
  rw [F32.value_ofSignMag hlt, hunits, ← withSign_mul_natCast, hsign]
  rfl

theorem F32.floor_of_inf {a : F32} (h : a.isInf = true) : a.floor = a := by
  simp [F32.floor, F32.isNaN_of_isInf h, h]

theorem F32.isNaN_floor_of_nan {a : F32} (h : a.isNaN = true) : a.floor.isNaN = true := by
  simp [F32.floor, h]

theorem F32.clamp_of_nan {x : F32} (lo hi : F32) (h : x.isNaN = true) : x.clamp lo hi = x := by
  simp [F32.clamp, F32.gt, F32.lt_of_nan, h]

/-- Settles O60, by the kind of the operand. -/
theorem floorIsExact : Obligations.FloorIsExact := by
  intro a b t
  refine ⟨F32.floor_finite, F32.floor_of_inf, F32.isNaN_floor_of_nan, ?_, ?_, F32.clamp_of_nan b t, ?_⟩
  · rw [F32.wrap]
  · rw [F32.lerp]
  · rw [F32.clamp]

end Sys2Proof
end

section
/-! The configuration (R10), the constants derived from it (R13), and the datapath before the filter (R23, R130-R168). -/

namespace Sys2Proof

open Machine

/-- The six symbol durations are told apart by their number of samples. -/
theorem SymbolDuration.ofNat?_eq_some_iff {k : Nat} {n : SymbolDuration} :
    SymbolDuration.ofNat? k = some n ↔ k = n.toNat := by
  constructor
  · intro h
    unfold SymbolDuration.ofNat? at h
    split at h <;> cases h <;> rfl
  · rintro rfl
    cases n <;> rfl

/-- Settles O52: the quotient of the rates is the duration, and the remainder is zero. -/
theorem admitsExactlyTheLegalConfigurations : Obligations.AdmitsExactlyTheLegalConfigurations := by
  intro sampleRate symbolRate n
  unfold checkConfig
  split
  · next hbad =>
    refine iff_of_false nofun ?_
    rintro ⟨hpos, rfl⟩
    rcases hbad with h | h
    · omega
    · exact h (Nat.mul_mod_left ..)
  · next hgood =>
    obtain ⟨hpos, hdvd⟩ : 0 < symbolRate ∧ symbolRate ∣ sampleRate := by
      rw [Nat.dvd_iff_mod_eq_zero]; omega
    rw [SymbolDuration.ofNat?_eq_some_iff, Nat.div_eq_iff_eq_mul_left hpos hdvd, and_iff_right hpos]

/-- Settles O51, one configuration at a time. -/
theorem derivedConstantsAreNearest : Obligations.DerivedConstantsAreNearest := by
  refine ⟨fun n => ?_, rfl⟩
  cases n <;> decide +kernel

/-- Settles O58: each is the definition. -/
theorem gainOscillatorAndMixer : Obligations.GainOscillatorAndMixer :=
  ⟨fun p x a => ⟨rfl, frontEnd_gain p x a⟩, fun _ _ => rfl, fun _ _ => rfl, fun _ _ _ => ⟨rfl, rfl, rfl, rfl⟩⟩

end Sys2Proof
end

section
/-! The ranges that the PLL keeps (R41, R166, R167): the fractional part of a value that is not negative lies in `[0, 1)`
after its rounding too, and a clamp keeps its bounds. -/

namespace Sys2Proof

/-! ### The fractional part -/

/-- The largest binary32 value below 1. -/
def belowOne : F32 := ⟨0x3F7FFFFF⟩

theorem isNaN_belowOne : belowOne.isNaN = false := by decide

theorem value_belowOne : belowOne.value = 2 ^ 149 - 2 ^ 125 := by decide

theorem F32.key_lt_one_iff {a : F32} : a.key < one.key ↔ a.key ≤ belowOne.key := by
  rw [show one.key = belowOne.key + 1 by decide, Int.lt_add_one_iff]

/-- The value of 1 is 2^149 units, and no binary32 value lies between `belowOne` and it. -/
theorem F32.value_lt_one_iff {a : F32} : a.value < 2 ^ 149 ↔ a.value ≤ belowOne.value := by
  rw [show (2 ^ 149 : Int) = one.value by decide, F32.value_lt_iff_key_lt, F32.key_lt_one_iff,
    F32.value_le_iff_key_le]

theorem F32.value_nonneg_iff {a : F32} : 0 ≤ a.value ↔ 0 ≤ a.key :=
  F32.value_le_iff_key_le (a := F32.zero)

theorem F32.isFinite_of_abs_key_lt {a : F32} (h : |a.key| < infMag) : a.isFinite = true := by
  rw [show |a.key| = a.mag from abs_withSign a.sign a.mag] at h
  exact F32.isFinite_iff.2 (by exact_mod_cast h)

/-- The exact fractional part of a value that is not negative is at most `belowOne`: a value from 1 on is a multiple of the
unit in its last place, which is at least 2^126, and one below 1 is its own fractional part. -/
theorem F32.fraction_le_belowOne {a : F32} (h0 : 0 ≤ a.value) : a.value % 2 ^ 149 ≤ belowOne.value := by
  have hval := a.natAbs_value
  rcases unitsOf_multiple_or_lt a.mag 126 with ⟨z, hz⟩ | ⟨-, hlt⟩
  · rw [value_belowOne]; omega
  · have := F32.value_lt_one_iff.1 (show a.value < 2 ^ 149 by omega)
    omega

end Sys2Proof

namespace Sys2Proof.Machine

/-- `a ∈ [0, 1)`, by keys. -/
theorem inUnit_iff {a : F32} : inUnit a = true ↔ a.isNaN = false ∧ 0 ≤ a.key ∧ a.key ≤ belowOne.key := by
  have hz : F32.zero.isNaN = false ∧ F32.zero.key = 0 := by decide
  have ho : one.isNaN = false := by decide
  simp only [inUnit, Bool.and_eq_true, F32.ge_iff, F32.lt_iff, F32.key_lt_one_iff, hz, ho]
  tauto

/-- `a ∈ [0, 1]`, by keys. -/
theorem inUnitClosed_iff {a : F32} : inUnitClosed a = true ↔ a.isNaN = false ∧ 0 ≤ a.key ∧ a.key ≤ one.key := by
  have hz : F32.zero.isNaN = false ∧ F32.zero.key = 0 := by decide
  have ho : one.isNaN = false := by decide
  simp only [inUnitClosed, Bool.and_eq_true, F32.ge_iff, F32.le_iff, hz, ho]
  tauto

/-- `a ∈ [-W, +W]`, by keys. -/
theorem inWindup_iff {a : F32} :
    inWindup a = true ↔ a.isNaN = false ∧ windupLimitNeg.key ≤ a.key ∧ a.key ≤ windupLimit.key := by
  have hw : windupLimitNeg.isNaN = false ∧ windupLimit.isNaN = false := by decide
  simp only [inWindup, Bool.and_eq_true, F32.ge_iff, F32.le_iff, hw]
  tauto

/-- `Wrap` of a finite value that is not negative is in `[0, 1)` (R22): the exact difference from the floor is, and both
bounds are binary32 values. -/
theorem inUnit_wrap {a : F32} (ha : a.isFinite = true) (h0 : 0 ≤ a.key) : inUnit a.wrap = true := by
  obtain ⟨hfin, hfloor⟩ := F32.floor_finite ha
  have hneg : a.floor.neg.isFinite = true := by simpa [F32.isFinite] using hfin
  have hfrac : a.value + a.floor.neg.value = a.value % 2 ^ 149 := by
    rw [F32.value_neg, hfloor, F32.floorInt_eq]; omega
  have hlo : F32.zero.value ≤ a.value + a.floor.neg.value := by
    rw [hfrac]; exact Int.emod_nonneg _ (by decide)
  have hhi : a.value + a.floor.neg.value ≤ belowOne.value := by
    rw [hfrac]; exact F32.fraction_le_belowOne (F32.value_nonneg_iff.2 h0)
  rw [F32.wrap, F32.sub, inUnit_iff]
  exact ⟨(sumOr_key ha hneg).1, sumOr_ge ha hneg (by decide) hlo, sumOr_le ha hneg isNaN_belowOne hhi⟩

/-! ### The phase pair and the PLL registers -/

/-- The NCO keeps the phase in `[0, 1)` (R162, R166): a sum in `[0, 2]` is finite and not negative. -/
theorem inUnit_wrap_add {a b : F32} (ha : inUnit a = true) (hb : inUnitClosed b = true) :
    inUnit (a.add b).wrap = true := by
  obtain ⟨-, ha0, ha1⟩ := inUnit_iff.1 ha
  obtain ⟨-, hb0, hb1⟩ := inUnitClosed_iff.1 hb
  have hbelow : belowOne.key < infMag := by decide
  have hone : one.key < infMag := by decide
  have fa : a.isFinite = true := F32.isFinite_of_abs_key_lt (abs_lt.2 (by omega))
  have fb : b.isFinite = true := F32.isFinite_of_abs_key_lt (abs_lt.2 (by omega))
  have hlo : F32.zero.value ≤ a.value + b.value :=
    add_nonneg (F32.value_nonneg_iff.2 ha0) (F32.value_nonneg_iff.2 hb0)
  have hhi : a.value + b.value ≤ two.value :=
    calc a.value + b.value ≤ belowOne.value + one.value :=
          add_le_add (F32.value_le_iff_key_le.2 ha1) (F32.value_le_iff_key_le.2 hb1)
      _ ≤ two.value := by decide
  have h0 : F32.zero.key ≤ (a.add b).key := by rw [F32.add]; exact sumOr_ge fa fb (by decide) hlo
  have h2 : (a.add b).key ≤ two.key := by rw [F32.add]; exact sumOr_le fa fb (by decide) hhi
  have hzero : F32.zero.key = 0 := by decide
  have htwo : two.key < infMag := by decide
  exact inUnit_wrap (F32.isFinite_of_abs_key_lt (abs_lt.2 (by omega))) (by omega)

/-- The clamp of the step (R161, R167). -/
theorem inUnitClosed_clamp (x : F32) :
    (x.clamp F32.zero one).isNaN = true ∨ inUnitClosed (x.clamp F32.zero one) = true := by
  rcases F32.clamp_range (x := x) (lo := F32.zero) (hi := one) (by decide) (by decide) (by decide)
    with ⟨hnan, heq⟩ | hrange
  · rw [heq]; exact .inl hnan
  · exact .inr (inUnitClosed_iff.2 hrange)

/-- The clamp of the accumulator (R161, R167). -/
theorem inWindup_clamp (x : F32) :
    (x.clamp windupLimitNeg windupLimit).isNaN = true ∨ inWindup (x.clamp windupLimitNeg windupLimit) = true := by
  rcases F32.clamp_range (x := x) (lo := windupLimitNeg) (hi := windupLimit) (by decide) (by decide) (by decide)
    with ⟨hnan, heq⟩ | hrange
  · rw [heq]; exact .inl hnan
  · exact .inr (inWindup_iff.2 hrange)

/-- The ranges of the PLL registers (R41): the part of the invariant that speaks of them. -/
structure PllInv (l : PllState) : Prop where
  phase_range : l.phase.isNaN = true ∨ inUnit l.phase = true
  prevPhase_range : l.prevPhase.isNaN = true ∨ inUnit l.prevPhase = true
  step_range : l.step.isNaN = true ∨ inUnitClosed l.step = true
  acc_range : l.acc.isNaN = true ∨ inWindup l.acc = true

/-- `ProcessError` clamps the accumulator and the step, and leaves the phase pair alone (R161, R167). -/
theorem pllInv_processError {l : PllState} (h : PllInv l) (p : Params) (e : F32) : PllInv (processError p e l) where
  phase_range := h.phase_range
  prevPhase_range := h.prevPhase_range
  step_range := inUnitClosed_clamp _
  acc_range := inWindup_clamp _

/-- The NCO step keeps the phase pair in range, and a NaN phase or step leaves a NaN (R162, R166). -/
theorem pllInv_ncoStep {l : PllState} (h : PllInv l) : PllInv (ncoStep l) where
  phase_range := by
    rcases h.phase_range with hnan | hphase
    · exact .inl (F32.isNaN_wrap_of_nan (F32.isNaN_add_of_nan (.inl hnan)))
    rcases h.step_range with hnan | hstep
    · exact .inl (F32.isNaN_wrap_of_nan (F32.isNaN_add_of_nan (.inr hnan)))
    · exact .inr (inUnit_wrap_add hphase hstep)
  prevPhase_range := h.phase_range
  step_range := h.step_range
  acc_range := h.acc_range

end Sys2Proof.Machine
end

section
/-! The correlator's running maximum (R44, R213, R217), and the part of the invariant that speaks of the correlator. -/

namespace Sys2Proof

/-- A value greater than one that is neither a NaN nor negative is itself neither. -/
theorem F32.nonneg_of_gt {x m : F32} (hm : m.sign = false) (h : x.gt m = true) :
    x.isNaN = false ∧ x.sign = false := by
  obtain ⟨-, hx, hlt⟩ := F32.gt_iff.1 h
  refine ⟨hx, ?_⟩
  rw [F32.key_of_pos hm] at hlt
  by_contra hs
  rw [F32.key_of_neg (by simpa using hs)] at hlt
  omega

theorem F32.lt_irrefl (a : F32) : a.lt a = false := by
  simp [F32.lt]

theorem F32.lt_eq_false_of_gt {a b : F32} (h : a.gt b = true) : a.lt b = false := by
  obtain ⟨-, -, hlt⟩ := F32.gt_iff.1 h
  rw [Bool.eq_false_iff, Ne, F32.lt_iff]
  omega

theorem F32.lt_zero_eq_false {a : F32} (h : a.sign = false) : a.lt F32.zero = false := by
  have hzero : F32.zero.key = 0 := by decide
  rw [Bool.eq_false_iff, Ne, F32.lt_iff, F32.key_of_pos h, hzero]
  omega

end Sys2Proof

namespace Sys2Proof.Machine

/-- What an invocation makes of the maximum (R213, R217), when the maximum is not negative: a greater correlation is no
valley. -/
theorem correlate_max_cases (p : Params) (ph : F32) (u : V) {c : CorState} (hs : c.max.sign = false) :
    let x := correlationOf u c
    let m := (correlate p ph u c).2.max
    (x.gt c.max = true ∧ x.lt F32.zero = false ∧ m = x) ∨
      (x.gt c.max = false ∧ x.lt F32.zero = true ∧ m = F32.zero) ∨
      (x.gt c.max = false ∧ x.lt F32.zero = false ∧ m = c.max) := by
  intro x m
  have hm : m = if x.lt F32.zero then F32.zero else if x.gt c.max then x else c.max :=
    (correlate_windows p ph u c).2.2.2
  cases hgt : x.gt c.max with
  | true =>
    have hlt := F32.lt_zero_eq_false (F32.nonneg_of_gt hs hgt).2
    exact .inl ⟨rfl, hlt, by simp [hm, hlt, hgt]⟩
  | false =>
    cases hlt : x.lt F32.zero with
    | true => exact .inr (.inl ⟨rfl, rfl, by simp [hm, hlt]⟩)
    | false => exact .inr (.inr ⟨rfl, rfl, by simp [hm, hlt, hgt]⟩)

/-- The maximum stays a number without a sign (R44). -/
theorem correlate_max_nonneg (p : Params) (ph : F32) (u : V) {c : CorState} (hn : c.max.isNaN = false)
    (hs : c.max.sign = false) :
    (correlate p ph u c).2.max.isNaN = false ∧ (correlate p ph u c).2.max.sign = false := by
  rcases correlate_max_cases p ph u hs with ⟨hgt, -, hm⟩ | ⟨-, -, hm⟩ | ⟨-, -, hm⟩ <;> rw [hm]
  · exact F32.nonneg_of_gt hs hgt
  · decide
  · exact ⟨hn, hs⟩

theorem correlate_hist_zero (p : Params) (ph : F32) (u : V) (c : CorState) :
    (correlate p ph u c).2.hist[0] = correlationOf u c := by
  obtain ⟨-, -, hhist, -⟩ := correlate_windows p ph u c
  simp [hhist]

/-- Settles O43: the new maximum is the correlation, `+0.0` or the old maximum. -/
theorem correlatorMaximumIsMonotoneBetweenValleys : Obligations.CorrelatorMaximumIsMonotoneBetweenValleys := by
  intro p ph u c hn hs
  refine ⟨(correlate_max_nonneg p ph u hn hs).1, (correlate_max_nonneg p ph u hn hs).2, ?_⟩
  rw [correlate_hist_zero]
  rcases correlate_max_cases p ph u hs with ⟨hgt, hlt, hm⟩ | ⟨hgt, hlt, hm⟩ | ⟨hgt, hlt, hm⟩ <;> rw [hm]
  · simp [hgt, hlt, F32.lt_eq_false_of_gt hgt]
  · simp [hgt, hlt]
  · simp [hgt, hlt, F32.lt_irrefl]

/-- What the invariant says of the correlator (R44). -/
structure CorInv (c : CorState) : Prop where
  phase_range : ∀ x ∈ c.phase.toList, x.isNaN = true ∨ inUnit x = true
  max_nonneg : c.max.isNaN = false ∧ c.max.sign = false
  peaks_le : c.peaks.toNat ≤ 4

/-- The count of peaks saturates at four (R216). -/
theorem correlate_peaks_le (p : Params) (ph : F32) (u : V) {c : CorState} (h : c.peaks.toNat ≤ 4) :
    (correlate p ph u c).2.peaks.toNat ≤ 4 := by
  rcases correlate_votes p ph u c with ⟨-, -, hpeaks⟩ | ⟨-, -, hpeaks⟩ <;> rw [hpeaks]
  · exact h
  · rw [BitVec.toNat_ofNat]; omega

/-- The correlator keeps its part of the invariant when it is fed a phase in range (R211, R213, R216, R217). -/
theorem corInv_correlate {c : CorState} (h : CorInv c) (p : Params) {ph : F32} (u : V)
    (hph : ph.isNaN = true ∨ inUnit ph = true) : CorInv (correlate p ph u c).2 where
  phase_range x hx := by
    obtain ⟨-, hphase, -, -⟩ := correlate_windows p ph u c
    rw [hphase] at hx
    rcases mem_windowWrite hx with rfl | hold
    · exact hph
    · exact h.phase_range x hold
  max_nonneg := correlate_max_nonneg p ph u h.max_nonneg.1 h.max_nonneg.2
  peaks_le := correlate_peaks_le p ph u h.peaks_le

end Sys2Proof.Machine
end

section
/-! Every step keeps the invariant (R41, R43-R45, R275): the invariant falls into one part per block, each block operation
keeps its part, and so does each state of the sequencer, each instruction and each step. -/

namespace Sys2Proof.Machine

/-! ### The parts of the invariant -/

/-- What the invariant says of the sequencer registers (R45, R275). -/
structure SeqInv (r : SeqRegs) : Prop where
  decisionPhase_two : r.decisionPhase = F32.zero ∨ r.decisionPhase = half
  emit_decide : r.emit = true → r.decide = true
  error_flags : r.state = .error → r.decide = false ∧ r.emit = false

/-- With both flags clear every state is allowed (R275). -/
theorem seqInv_of_quiet {r : SeqRegs} (hp : r.decisionPhase = F32.zero ∨ r.decisionPhase = half)
    (hd : r.decide = false) (he : r.emit = false) : SeqInv r :=
  ⟨hp, by simp [he], fun _ => ⟨hd, he⟩⟩

/-- After a handled trigger every state but `ERROR` is allowed, with or without an emission (R275). -/
theorem seqInv_of_decide {r : SeqRegs} (hp : r.decisionPhase = F32.zero ∨ r.decisionPhase = half)
    (hd : r.decide = true) (hs : r.state ≠ .error) : SeqInv r :=
  ⟨hp, fun _ => hd, fun h => absurd h hs⟩

/-- The invariant is the length of the history and one part for each of three blocks. -/
theorem coreInv_iff {p : Params} {c : CoreState} :
    CoreInv p c ↔ c.hold.vHist.length = p.n ∧ PllInv c.pll ∧ CorInv c.cor ∧ SeqInv c.seq := by
  constructor
  · intro h
    exact ⟨h.vHist_length, ⟨h.phase_range, h.prevPhase_range, h.step_range, h.acc_range⟩,
      ⟨h.corPhase_range, h.corMax_nonneg, h.corPeaks_le⟩, ⟨h.decisionPhase_two, h.emit_decide, h.error_flags⟩⟩
  · rintro ⟨hhist, hpll, hcor, hseq⟩
    exact ⟨hhist, hpll.phase_range, hpll.prevPhase_range, hpll.step_range, hpll.acc_range, hcor.phase_range,
      hcor.max_nonneg, hcor.peaks_le, hseq.decisionPhase_two, hseq.emit_decide, hseq.error_flags⟩

section Updates
variable {p : Params} {c : CoreState}

theorem CoreInv.pll (h : CoreInv p c) : PllInv c.pll := (coreInv_iff.1 h).2.1

theorem CoreInv.cor (h : CoreInv p c) : CorInv c.cor := (coreInv_iff.1 h).2.2.1

theorem CoreInv.seq (h : CoreInv p c) : SeqInv c.seq := (coreInv_iff.1 h).2.2.2

theorem CoreInv.withAgc (h : CoreInv p c) (a : AgcState) : CoreInv p (c.withAgc a) :=
  coreInv_iff.2 ⟨h.vHist_length, h.pll, h.cor, h.seq⟩

theorem CoreInv.withCrf (h : CoreInv p c) (f : CrfState) : CoreInv p (c.withCrf f) :=
  coreInv_iff.2 ⟨h.vHist_length, h.pll, h.cor, h.seq⟩

theorem CoreInv.withHold (h : CoreInv p c) {b : HoldState} (hb : b.vHist.length = p.n) : CoreInv p (c.withHold b) :=
  coreInv_iff.2 ⟨hb, h.pll, h.cor, h.seq⟩

theorem CoreInv.withPll (h : CoreInv p c) {l : PllState} (hl : PllInv l) : CoreInv p (c.withPll l) :=
  coreInv_iff.2 ⟨h.vHist_length, hl, h.cor, h.seq⟩

theorem CoreInv.withCor (h : CoreInv p c) {k : CorState} (hk : CorInv k) : CoreInv p (c.withCor k) :=
  coreInv_iff.2 ⟨h.vHist_length, h.pll, hk, h.seq⟩

theorem CoreInv.withSeq (h : CoreInv p c) {r : SeqRegs} (hr : SeqInv r) : CoreInv p (c.withSeq r) :=
  coreInv_iff.2 ⟨h.vHist_length, h.pll, h.cor, hr⟩

end Updates

/-! ### The state after reset -/

/-- The state after reset satisfies the invariant, for every configuration (R380). -/
theorem coreInv_zeroed (p : Params) : CoreInv p (CoreState.zeroed p.n) := by
  have hzero : inUnit F32.zero = true := inUnit_iff.2 (by decide)
  have hstep : inUnitClosed F32.zero = true := inUnitClosed_iff.2 (by decide)
  have hacc : inWindup F32.zero = true := inWindup_iff.2 (by decide)
  have hmax : F32.zero.isNaN = false ∧ F32.zero.sign = false := by decide
  have hphases : ∀ x ∈ (CoreState.zeroed p.n).cor.phase.toList, x = F32.zero := by simp [CoreState.zeroed]
  have hcor : CorInv (CoreState.zeroed p.n).cor :=
    ⟨fun x hx => .inr (hphases x hx ▸ hzero), hmax, Nat.zero_le 4⟩
  exact coreInv_iff.2 ⟨List.length_replicate, ⟨.inr hzero, .inr hzero, .inr hstep, .inr hacc⟩, hcor,
    seqInv_of_quiet (.inl rfl) rfl rfl⟩

/-- Settles O53: the base case, for the modelled configuration. -/
theorem invariantHoldsAtReset : Obligations.InvariantHoldsAtReset := coreInv_zeroed Config.params

/-! ### One sample -/

section Sample
variable {p : Params} {c c' : CoreState}

/-- The level gate keeps the invariant: it runs with both flags clear (R280-R282). -/
theorem coreInv_levelGate (h : CoreInv p c) (hd : c.seq.decide = false) (he : c.seq.emit = false) (lvl : F32) :
    CoreInv p (levelGate p lvl c) := by
  unfold levelGate
  split
  · rcases waitToSettle_cases p lvl c with ⟨-, -, e⟩ | ⟨-, e⟩ <;> rw [e]
    all_goals exact h.withSeq (seqInv_of_quiet h.decisionPhase_two hd he)
  · rcases senseGain_cases p lvl c with ⟨-, e⟩ | ⟨-, -, e⟩ | ⟨-, -, e⟩ <;> rw [e]
    · exact h.withSeq (seqInv_of_quiet h.decisionPhase_two hd he)
    · exact (h.withAgc _).withSeq (seqInv_of_quiet h.decisionPhase_two hd he)
    · exact h.withSeq (seqInv_of_quiet h.decisionPhase_two hd he)

theorem coreInv_carrierSync (h : CoreInv p c) (hs : c.seq.state = .carrierSync) (v : V) :
    CoreInv p (carrierSync p v c) := by
  have hpll := h.withPll (pllInv_processError h.pll p (syncError v))
  rcases carrierSync_cases p v c with ⟨-, e⟩ | ⟨d, -, -, e⟩ | ⟨d, -, -, e⟩ <;> rw [e]
  · exact hpll
  · refine (hpll.withAgc _).withSeq (seqInv_of_decide h.decisionPhase_two rfl ?_)
    dsimp only
    split <;> simp [hs]
  · exact hpll.withSeq (seqInv_of_decide h.decisionPhase_two rfl (by simp [hs]))

theorem coreInv_carrierLock (h : CoreInv p c) (hs : c.seq.state = .carrierLock) (v vq : V) {phi : F32}
    (hphi : phi.isNaN = true ∨ inUnit phi = true) : CoreInv p (carrierLock p v vq phi c) := by
  have hpll := h.withPll (pllInv_processError h.pll p (decisionError v vq))
  rcases carrierLock_cases p v vq phi c with ⟨-, e⟩ | ⟨d, seq, -, hseq, e⟩ <;> rw [e]
  · exact hpll
  · refine ((hpll.withAgc _).withCor (corInv_correlate h.cor p v hphi)).withSeq ?_
    rcases hseq with ⟨-, rfl⟩ | ⟨-, rfl⟩
    · exact seqInv_of_decide h.decisionPhase_two rfl (by simp [hs])
    · exact seqInv_of_decide (.inl rfl) rfl nofun

/-- The decision phase that `ALIGN` stores is a result of the correlator, which is one of the two legal values (R218). -/
theorem coreInv_align (h : CoreInv p c) (hs : c.seq.state = .align) {v vq : V} {phi : F32}
    (hphi : phi.isNaN = true ∨ inUnit phi = true) (ha : align p v vq phi c = some c') : CoreInv p c' := by
  have hpll := h.withPll (pllInv_processError h.pll p (decisionError v vq))
  rcases align_cases ha with ⟨-, rfl⟩ | ⟨d, u, seq, -, -, hseq, rfl⟩
  · exact hpll
  · refine (hpll.withCor (corInv_correlate h.cor p u hphi)).withSeq ?_
    rcases hseq with ⟨-, rfl⟩ | ⟨r, hr, rfl⟩
    · exact seqInv_of_decide h.decisionPhase_two rfl (by simp [hs])
    · exact seqInv_of_decide (corResult_cases hr).2 rfl nofun

theorem coreInv_data (h : CoreInv p c) (hs : c.seq.state = .ok) (v vq : V) (phi : F32) :
    CoreInv p (data p v vq phi c) := by
  have hpll := h.withPll (pllInv_processError h.pll p (gatedError p v vq phi c.seq.decisionPhase))
  rcases data_cases p v vq phi c with ⟨-, e⟩ | ⟨d, -, e⟩ <;> rw [e]
  · exact hpll
  · exact (hpll.withAgc _).withSeq (seqInv_of_decide h.decisionPhase_two rfl (by simp [hs]))

/-- The dispatch keeps the invariant, whatever the state (R290). -/
theorem coreInv_dispatch (h : CoreInv p c) {v vq : V} {phi : F32} (hphi : phi.isNaN = true ∨ inUnit phi = true)
    (hd : dispatch p v vq phi c = some c') : CoreInv p c' := by
  unfold dispatch at hd
  split at hd
  · next hs => cases hd; exact coreInv_carrierSync h hs v
  · next hs => cases hd; exact coreInv_carrierLock h hs v vq hphi
  · next hs => exact coreInv_align h hs hphi hd
  · next hs => cases hd; exact coreInv_data h hs v vq phi
  all_goals cases hd; exact h

/-- The front of a demodulated sample writes the history, whose length stays (R43, R285). -/
theorem coreInv_demodFront (h : CoreInv p c) (g : F32) : CoreInv p (demodFront p g c) :=
  (h.withCrf _).withHold (by simp [h.vHist_length])

theorem coreInv_demodulate (h : CoreInv p c) {g : F32} (hd : demodulate p g c = some c') : CoreInv p c' := by
  obtain ⟨c1, hdisp, rfl⟩ := demodulate_cases hd
  have h1 := coreInv_dispatch (coreInv_demodFront h g) h.phase_range hdisp
  exact h1.withPll (pllInv_ncoStep h1.pll)

/-- The steps 0 to 2 of a sample clear both flags (R275, R276). -/
theorem coreInv_sampleFront (h : CoreInv p c) (x : F32) : CoreInv p (sampleFront p x c) :=
  (h.withSeq (r := c.seq.clearFlags) (seqInv_of_quiet h.decisionPhase_two rfl rfl)).withAgc _

/-- One sample keeps the invariant (R276). -/
theorem coreInv_processSample (h : CoreInv p c) {x : F32} (hp : processSample p x c = some c') : CoreInv p c' := by
  have hfront := coreInv_sampleFront h x
  rcases processSample_cases hp with ⟨-, rfl⟩ | ⟨-, rfl⟩ | ⟨-, -, rfl⟩ | ⟨-, -, hd⟩
  · exact h
  · exact coreInv_levelGate hfront rfl rfl _
  · exact hfront.withSeq (seqInv_of_quiet h.decisionPhase_two rfl rfl)
  · exact coreInv_demodulate hfront hd

end Sample

/-! ### One instruction, one step -/

/-- ResetState leads to a state that satisfies the invariant, from any state (R380). -/
theorem coreInv_resetState (p : Params) (c : CoreState) : CoreInv p (resetState p c) := by
  rw [resetState_eq]; exact coreInv_zeroed p

/-- `BEGIN_CARRIER_SYNC` keeps the flags and leaves `ERROR` (R322). -/
theorem coreInv_beginCarrierSync {p : Params} {c : CoreState} (h : CoreInv p c) : CoreInv p (beginCarrierSync c) :=
  h.withSeq ⟨h.decisionPhase_two, h.emit_decide, nofun⟩

/-- Every instruction keeps the invariant. -/
theorem exec_keeps_inv {i : Instr} {s t : State} (h : s.Inv) (he : exec i s = .next t) : t.Inv := by
  cases i
  case process din =>
    obtain ⟨c, hc, rfl⟩ := execProcess_next_iff.1 he
    exact coreInv_processSample (p := Config.params) h hc
  case init => cases he; exact coreInv_resetState Config.params s.core
  case reset => cases he; exact coreInv_resetState Config.params s.core
  case beginCarrierSync => cases he; exact coreInv_beginCarrierSync h
  -- `NOP` and the `READ`s answer only.
  all_goals cases he; exact h

/-- Settles O54: a step is an idle step, a reset, an instruction or the answer to an illegal word. -/
theorem everyStepKeepsTheInvariant : Obligations.EveryStepKeepsTheInvariant := by
  intro s t h hstep
  rcases step_cases hstep with ⟨-, rfl⟩ | ⟨rest, -, rfl⟩ | ⟨c, rest, i, -, -, hexec⟩ | ⟨c, rest, e, -, -, rfl⟩
  · exact h
  · exact coreInv_resetState Config.params s.core
  · exact exec_keeps_inv (s := s.withInputs rest) h hexec
  · exact h

end Sys2Proof.Machine
end

section
/-! The fields of `STATUS` (R70), and the windows written out (R32, R33). -/

namespace Sys2Proof.Machine

/-! ### The word of `STATUS` -/

theorem bit32_getLsbD (b : Bool) (k : Nat) : (bit32 b).getLsbD k = (decide (k = 0) && b) := by
  cases b <;> cases k <;> simp [bit32]

/-- The word of `STATUS`, bit by bit (R70). -/
theorem statusWord_getLsbD (r : SeqRegs) (k : Nat) :
    (statusWord r).getLsbD k =
      if k < 3 then r.state.code.getLsbD k
      else if k = 3 then r.err
      else if k = 4 then r.decide
      else if k = 5 then r.emit
      else false := by
  simp only [statusWord, BitVec.getLsbD_or, BitVec.getLsbD_shiftLeft, BitVec.getLsbD_setWidth, bit32_getLsbD]
  rcases k with _ | _ | _ | _ | _ | _ | k <;> simp

theorem err_eq_decide (r : SeqRegs) : r.err = decide (r.state = .error) := by
  cases h : r.state <;> simp [SeqRegs.err, h]

/-- The STATE field holds the code of the state (R60, R70). -/
theorem statusWord_state (r : SeqRegs) : (statusWord r).extractLsb' 0 3 = r.state.code := by
  refine BitVec.eq_of_getLsbD_eq fun k hk => ?_
  rw [BitVec.getLsbD_extractLsb', Nat.zero_add, statusWord_getLsbD, if_pos hk]
  simp [hk]

/-- Settles O17: the word is `statusWord`, read bit by bit. -/
theorem statusFields : Obligations.StatusFields := by
  intro s
  refine ⟨statusWord s.core.seq, rfl, statusWord_state _, (statusWord_getLsbD _ 3).trans (err_eq_decide _),
    statusWord_getLsbD _ 4, statusWord_getLsbD _ 5, fun k hk => ?_⟩
  rw [statusWord_getLsbD, if_neg, if_neg, if_neg, if_neg] <;> omega

/-! ### Windows -/

/-- The sum of four entries, newest first (R33). -/
theorem windowSum_four (w : Vector F32 4) : windowSum w = ((w[0].add w[1]).add w[2]).add w[3] := by
  obtain ⟨⟨l⟩, hl⟩ := w
  match l, hl with
  | [_, _, _, _], _ => rfl

/-- Settles O57: one law of the shared operations for each part. -/
theorem windowsShiftByOne : Obligations.WindowsShiftByOne := by
  refine ⟨fun n w x => ⟨windowWrite_zero w x, windowWrite_succ w x⟩,
    fun n w x => ⟨windowWrite_zero w x, windowWrite_succ w x⟩,
    fun w x => ⟨historyWrite_length w x, fun h0 => ?_, fun k hk => ?_, historyRead_isSome w⟩, windowSum_four⟩
  · rw [historyRead_historyWrite, if_pos h0]
  · rw [historyRead_historyWrite, if_pos hk]

end Sys2Proof.Machine
end

section
/-! A command with a legal word is its instruction (R88, R100), and the instructions with the operation code of `READ` are
the reads of the registers (R106), which only answer (R84). -/

namespace Sys2Proof.Machine

/-! ### The step of a legal command -/

/-- The step of a command that decodes: the instruction, with the command taken off the port. -/
theorem step_of_decode_ok {s : State} {c : Command} {rest : List PortEvent} {i : Instr}
    (hin : s.port.inputs = .command c :: rest) (hdec : decode c = .ok i) :
    step s = exec i (s.withInputs rest) := by
  simp only [step, hin, hdec]

/-- Settles O7: taking the command off the port withdraws the response before it. -/
theorem stepRunsTheDecodedInstruction : Obligations.StepRunsTheDecodedInstruction :=
  fun _ _ _ _ hin hdec => step_of_decode_ok hin hdec

/-! ### `READ` -/

/-- Each read instruction is the one meaning of `READ`, at its register (R330). -/
theorem exec_readInstr (r : Reg) (s : State) :
    exec (readInstr r) s = .next (s.respondDone (readReg r s.core)) := by
  cases r <;> rfl

/-- The instructions whose words have the operation code 0x5 are the reads (R106). -/
theorem encode_opcode_read_iff {i : Instr} :
    (encode i).cmd.toNat % 16 = 5 ↔ ∃ r, i = readInstr r := by
  constructor
  · intro h
    cases i with
    | nop | init | reset | beginCarrierSync | process => exact absurd h (by simp [encode])
    | readStatus => exact ⟨.status, rfl⟩
    | readPllPhase => exact ⟨.pllPhase, rfl⟩
    | readPllError => exact ⟨.pllError, rfl⟩
    | readPllStep => exact ⟨.pllStep, rfl⟩
    | readDecisionPhase => exact ⟨.decisionPhase, rfl⟩
    | readSignalPower => exact ⟨.signalPower, rfl⟩
    | readRecoveredI => exact ⟨.recoveredI, rfl⟩
    | readRecoveredQ => exact ⟨.recoveredQ, rfl⟩
    | readCorrelation => exact ⟨.correlation, rfl⟩
    | readAgc => exact ⟨.agc, rfl⟩
    | readOutSymbol => exact ⟨.outSymbol, rfl⟩
    | readConfig => exact ⟨.config, rfl⟩
  · rintro ⟨r, rfl⟩
    cases r <;> decide

/-- A response replaces the one before it (R104). -/
@[simp] theorem State.respondDone_respondDone (s : State) (a b : DataWord) :
    (s.respondDone a).respondDone b = s.respondDone b := rfl

/-- Settles O18: the answer depends on the core, which a read leaves alone. -/
theorem readHasNoSideEffect : Obligations.ReadHasNoSideEffect := by
  intro i s t hopc hexec
  obtain ⟨r, rfl⟩ := encode_opcode_read_iff.1 hopc
  rw [exec_readInstr] at hexec
  obtain rfl : s.respondDone (readReg r s.core) = t := by simpa using hexec
  refine ⟨State.respondDone_core s _, State.respondDone_inputs s _, ?_⟩
  rw [exec_readInstr, State.respondDone_core, State.respondDone_respondDone]

end Sys2Proof.Machine
end

section
/-! Decoding and encoding agree (R101, R106-R108): a command word is its four fields, each test of the decoder speaks of
one of them, and the legal words are those of the instructions. -/

namespace Sys2Proof

/-! ### The fields of a word -/

theorem opcOf_toNat (w : CmdWord) : (opcOf w).toNat = w.toNat % 16 := by simp [opcOf]

theorem rsv0Of_toNat (w : CmdWord) : (rsv0Of w).toNat = w.toNat / 16 % 16 := by
  simp [rsv0Of, Nat.shiftRight_eq_div_pow]

theorem addrOf_toNat (w : CmdWord) : (addrOf w).toNat = w.toNat / 256 % 16 := by
  simp [addrOf, Nat.shiftRight_eq_div_pow]

theorem rsv1Of_toNat (w : CmdWord) : (rsv1Of w).toNat = w.toNat / 4096 := by
  have := w.isLt
  simp only [rsv1Of, BitVec.extractLsb'_toNat, Nat.shiftRight_eq_div_pow]
  omega

/-- A word is its fields (R101). -/
theorem cmdWord_ext {v w : CmdWord} (h1 : rsv1Of v = rsv1Of w) (ha : addrOf v = addrOf w) (h0 : rsv0Of v = rsv0Of w)
    (ho : opcOf v = opcOf w) : v = w := by
  simp only [← BitVec.toNat_inj, rsv1Of_toNat, addrOf_toNat, rsv0Of_toNat, opcOf_toNat] at h1 ha h0 ho
  exact BitVec.eq_of_toNat_eq (by omega)

/-! ### The register addresses -/

theorem Reg.ofNat?_addr (r : Reg) : Reg.ofNat? r.addr.toNat = some r := by cases r <;> rfl

/-- The registers stand at 0x0 to 0xB, one each (R70). -/
theorem Reg.ofNat?_eq_some_iff {a : Nat} {r : Reg} : Reg.ofNat? a = some r ↔ a = r.addr.toNat := by
  refine ⟨fun h => ?_, fun h => h ▸ Reg.ofNat?_addr r⟩
  unfold Reg.ofNat? at h
  split at h <;> cases h <;> rfl

/-- Addresses from 0xC on are reserved (R70, R81). -/
theorem Reg.isSome_ofNat? (a : Nat) : (Reg.ofNat? a).isSome = decide (a < 0xC) := by
  match a with
  | 0 | 1 | 2 | 3 | 4 | 5 | 6 | 7 | 8 | 9 | 10 | 11 => rfl
  | _ + 12 => simp [Reg.ofNat?]

/-! ### The fields of an instruction's word -/

/-- The instructions by operation code: the twelve reads are one (R106). -/
theorem Instr.casesOpcode {motive : Instr → Prop} (nop : motive .nop) (init : motive .init) (reset : motive .reset)
    (beginCarrierSync : motive .beginCarrierSync) (process : ∀ din, motive (.process din))
    (read : ∀ r, motive (readInstr r)) : ∀ i, motive i
  | .nop => nop
  | .init => init
  | .reset => reset
  | .beginCarrierSync => beginCarrierSync
  | .process din => process din
  | .readStatus => read .status
  | .readPllPhase => read .pllPhase
  | .readPllError => read .pllError
  | .readPllStep => read .pllStep
  | .readDecisionPhase => read .decisionPhase
  | .readSignalPower => read .signalPower
  | .readRecoveredI => read .recoveredI
  | .readRecoveredQ => read .recoveredQ
  | .readCorrelation => read .correlation
  | .readAgc => read .agc
  | .readOutSymbol => read .outSymbol
  | .readConfig => read .config

@[simp] theorem encode_process_cmd (din : DataWord) : (encode (.process din)).cmd = 0x0004 := rfl

@[simp] theorem encode_readInstr (r : Reg) : encode (readInstr r) = ⟨readWord r, 0⟩ := by cases r <;> rfl

/-- The word of a read: the operation code 0x5 and the register's address (R106, R330). -/
theorem readWord_fields (r : Reg) :
    rsv1Of (readWord r) = 0 ∧ rsv0Of (readWord r) = 0 ∧
      opcOf (readWord r) = 0x5 ∧ addrOf (readWord r) = r.addr := by
  cases r <;> decide

/-- The fields that R106 fixes for every legal word. -/
theorem encode_fields (i : Instr) :
    rsv1Of (encode i).cmd = 0 ∧ rsv0Of (encode i).cmd = 0 ∧
      (opcOf (encode i).cmd ≠ 0x5 → addrOf (encode i).cmd = 0) := by
  cases i using Instr.casesOpcode with
  | nop | init | reset | beginCarrierSync => decide
  | process => rw [encode_process_cmd]; decide
  | read r => simp [readWord_fields]

/-! ### What decodes -/

theorem ofOpcode_read (addr : Nat) (din : DataWord) :
    ofOpcode 0x5 addr din = (Reg.ofNat? addr).elim (.error .reservedRegister) (.ok ∘ readInstr) := by
  cases h : Reg.ofNat? addr <;> simp [ofOpcode, h]

/-- The instruction of an operation code, and for `READ` of an address, has them in its word (R106). -/
theorem fields_of_ofOpcode {opc addr : Nat} {din : DataWord} {i : Instr} (h : ofOpcode opc addr din = .ok i) :
    (opcOf (encode i).cmd).toNat = opc ∧ (opc = 0x5 → (addrOf (encode i).cmd).toNat = addr) := by
  match opc with
  | 0 | 1 | 2 | 3 | 4 => cases h; exact ⟨rfl, by simp⟩
  | 5 =>
    rw [ofOpcode_read] at h
    cases hr : Reg.ofNat? addr with
    | none => simp [hr] at h
    | some r =>
      obtain rfl : readInstr r = i := by simpa [hr] using h
      simp [readWord_fields, Reg.ofNat?_eq_some_iff.1 hr]
  | _ + 6 => cases h

/-- The operation codes with a meaning (R106, R108). -/
theorem ofOpcode_isOk_iff {opc addr : Nat} {din : DataWord} :
    (∃ i, ofOpcode opc addr din = .ok i) ↔ opc < 0x6 ∧ (opc = 0x5 → addr < 0xC) := by
  match opc with
  | 0 | 1 | 2 | 3 | 4 => simp [ofOpcode]
  | 5 =>
    have hreg := Reg.isSome_ofNat? addr
    rw [ofOpcode_read]
    cases hr : Reg.ofNat? addr <;> simp_all
  | _ + 6 => simp [ofOpcode]

/-- The tests of R107: a command decodes when its word passes them, and to the instruction of its operation code. -/
theorem decode_eq_ok_iff {c : Command} {i : Instr} :
    decode c = .ok i ↔
      rsv1Of c.cmd = 0 ∧ rsv0Of c.cmd = 0 ∧ (opcOf c.cmd ≠ 0x5 → addrOf c.cmd = 0) ∧
        ofOpcode (opcOf c.cmd).toNat (addrOf c.cmd).toNat c.din = .ok i := by
  have hopc (h : ofOpcode (opcOf c.cmd).toNat (addrOf c.cmd).toNat c.din = .ok i) : ¬0x6 ≤ (opcOf c.cmd).toNat :=
    Nat.not_le.2 (ofOpcode_isOk_iff.1 ⟨i, h⟩).1
  unfold decode
  split_ifs with hrsv hreserved haddr
  · exact iff_of_false nofun fun ⟨h1, h0, _⟩ => hrsv.elim (absurd h1) (absurd h0)
  · exact iff_of_false nofun fun ⟨_, _, _, hi⟩ => hopc hi hreserved
  · exact iff_of_false nofun fun ⟨_, _, ha, _⟩ => haddr.2 (ha haddr.1)
  · obtain ⟨h1, h0⟩ : rsv1Of c.cmd = 0 ∧ rsv0Of c.cmd = 0 := by simpa using hrsv
    exact ⟨fun hi => ⟨h1, h0, by simpa using haddr, hi⟩, fun ⟨_, _, _, hi⟩ => hi⟩

/-- The word of what a command decodes to is the command's word. -/
theorem cmd_eq_of_decode {c : Command} {i : Instr} (h : decode c = .ok i) : c.cmd = (encode i).cmd := by
  obtain ⟨h1, h0, haddr, hi⟩ := decode_eq_ok_iff.1 h
  obtain ⟨hopc, hread⟩ := fields_of_ofOpcode hi
  obtain ⟨e1, e0, eaddr⟩ := encode_fields i
  have ho : opcOf c.cmd = opcOf (encode i).cmd := BitVec.eq_of_toNat_eq hopc.symm
  refine cmdWord_ext (h1.trans e1.symm) ?_ (h0.trans e0.symm) ho
  by_cases h5 : opcOf c.cmd = 0x5
  · exact BitVec.eq_of_toNat_eq (hread (by rw [h5]; rfl)).symm
  · exact (haddr h5).trans (eaddr (ho ▸ h5)).symm

/-! ### Decode and encode -/

/-- The instruction with another data word: only `PROCESS` has one (R103). -/
def Instr.withDin (din : DataWord) : Instr → Instr
  | .process _ => .process din
  | i => i

theorem Instr.withDin_eq_self_iff {din : DataWord} {i : Instr} :
    i.withDin din = i ↔ ∀ d, i = .process d → din = d := by
  cases i <;> simp [Instr.withDin]

@[simp] theorem Instr.withDin_readInstr (din : DataWord) (r : Reg) : (readInstr r).withDin din = readInstr r := by
  cases r <;> rfl

/-- The word of an instruction decodes to it, with the data word for operand. -/
theorem decode_encode_cmd (i : Instr) (din : DataWord) : decode ⟨(encode i).cmd, din⟩ = .ok (i.withDin din) := by
  obtain ⟨h1, h0, haddr⟩ := encode_fields i
  refine decode_eq_ok_iff.2 ⟨h1, h0, haddr, ?_⟩
  cases i using Instr.casesOpcode with
  | nop | init | reset | beginCarrierSync => rfl
  | process => rw [encode_process_cmd]; rfl
  | read r => simp [readWord_fields, ofOpcode_read, Reg.ofNat?_addr]

/-- Settles O1: the decoder passes a word on only with the fields of the instruction's own word, and a word is its
fields; what the operand is, the other direction says. -/
theorem decodeAgreesWithEncode : Obligations.DecodeAgreesWithEncode := by
  rintro ⟨cmd, din⟩ i
  rw [← Instr.withDin_eq_self_iff]
  constructor
  · intro h
    obtain rfl : cmd = (encode i).cmd := cmd_eq_of_decode h
    exact ⟨rfl, Except.ok.inj ((decode_encode_cmd i din).symm.trans h)⟩
  · rintro ⟨rfl, hdin⟩
    exact (decode_encode_cmd i din).trans (congrArg _ hdin)

theorem decode_encode (i : Instr) : decode (encode i) = .ok i :=
  (decodeAgreesWithEncode _ i).2 ⟨rfl, fun _ h => h ▸ rfl⟩

/-- Settles O2: every term is well formed. -/
theorem decodeOfEncodeIsIdentity : Obligations.DecodeOfEncodeIsIdentity := fun i _ => decode_encode i

/-- Settles O4: the words of instructions decode to them; the others each fail the test named. -/
theorem specWordsDecode : Obligations.SpecWordsDecode :=
  ⟨decode_encode (.process 0xBE800000), decode_encode .readAgc, decode_encode_cmd .beginCarrierSync 0xFFFFFFFF,
    decode_encode .readConfig, by decide, by decide, by decide, by decide⟩

/-! ### The legal words -/

/-- One instruction for each legal word, in the order of R106. -/
def legalInstrs : List Instr :=
  [.nop, .init, .reset, .beginCarrierSync, .process 0, .readStatus, .readPllPhase, .readPllError, .readPllStep,
    .readDecisionPhase, .readSignalPower, .readRecoveredI, .readRecoveredQ, .readCorrelation, .readAgc, .readOutSymbol,
    .readConfig]

theorem legalWords_eq_map : legalWords = legalInstrs.map fun i => (encode i).cmd := by decide

theorem encode_cmd_mem_legalWords (i : Instr) : (encode i).cmd ∈ legalWords := by
  cases i <;> exact List.contains_iff_mem.1 rfl

/-- The legal words are the words that decode (R106, R108). -/
theorem decode_isOk_iff {c : Command} : (∃ i, decode c = .ok i) ↔ c.cmd ∈ legalWords := by
  obtain ⟨cmd, din⟩ := c
  constructor
  · rintro ⟨i, h⟩
    exact cmd_eq_of_decode h ▸ encode_cmd_mem_legalWords i
  · intro h
    rw [legalWords_eq_map] at h
    obtain ⟨i, -, rfl⟩ := List.mem_map.1 h
    exact ⟨_, decode_encode_cmd i din⟩

/-- A command raises Illegal exactly when it decodes to nothing. -/
theorem decode_isError_iff {c : Command} : (∃ e, decode c = .error e) ↔ ¬∃ i, decode c = .ok i := by
  cases decode c <;> simp

/-- The four illegal classes of R108, on the fields. -/
theorem decode_isError_iff_fields {c : Command} :
    (∃ e, decode c = .error e) ↔
      6 ≤ c.cmd.toNat % 16 ∨ c.cmd.toNat / 16 % 16 ≠ 0 ∨ c.cmd.toNat / 4096 ≠ 0 ∨
        (c.cmd.toNat / 256 % 16 ≠ 0 ∧ c.cmd.toNat % 16 ≠ 5) ∨
        (c.cmd.toNat % 16 = 5 ∧ 12 ≤ c.cmd.toNat / 256 % 16) := by
  simp only [decode_isError_iff, decode_eq_ok_iff, exists_and_left, ofOpcode_isOk_iff, ← BitVec.toNat_inj, ne_eq,
    rsv1Of_toNat, rsv0Of_toNat, addrOf_toNat, opcOf_toNat, BitVec.reduceToNat]
  omega

/-- The numbers below 65 536 that decode, as words, are the legal words (R108). -/
theorem filter_decode_perm (din : DataWord) :
    ((List.range 65536).filter fun w => (decode ⟨BitVec.ofNat 16 w, din⟩).toOption.isSome).Perm
      (legalWords.map BitVec.toNat) := by
  have hok (w : Nat) : (decode ⟨BitVec.ofNat 16 w, din⟩).toOption.isSome ↔ BitVec.ofNat 16 w ∈ legalWords := by
    rw [← decode_isOk_iff (c := ⟨BitVec.ofNat 16 w, din⟩)]
    cases decode ⟨BitVec.ofNat 16 w, din⟩ <;> simp [Except.toOption]
  refine (List.perm_ext_iff_of_nodup (List.nodup_range.filter _) (by decide)).2 fun w => ?_
  rw [List.mem_filter, List.mem_range, hok, List.mem_map]
  constructor
  · rintro ⟨hw, hmem⟩
    exact ⟨_, hmem, Nat.mod_eq_of_lt hw⟩
  · rintro ⟨v, hv, rfl⟩
    exact ⟨v.isLt, by simpa using hv⟩

end Sys2Proof

namespace Sys2Proof.Machine

/-- The step of a command that does not decode raises Illegal (R107, R352). -/
theorem step_of_decode_error {s : State} {c : Command} {rest : List PortEvent} {e : IllegalWord}
    (hin : s.port.inputs = .command c :: rest) (hdec : decode c = .error e) :
    step s = .next (raiseIllegal (s.withInputs rest)) := by
  simp only [step, hin, hdec]

/-- Settles O3: the classes by the fields, the exception by the step, and the count by the list of legal words. -/
theorem seventeenWordsAreLegal : Obligations.SeventeenWordsAreLegal :=
  ⟨fun _ => decode_isError_iff_fields, fun _ _ _ _ hin hdec => step_of_decode_error hin hdec,
    fun din => (filter_decode_perm din).length_eq⟩

/-- Settles O9: an instruction answers DONE and leaves the inputs alone, and a word that decodes to none is answered by
Illegal. -/
theorem everyCommandIsAnsweredOnce : Obligations.EveryCommandIsAnsweredOnce := by
  intro s t c rest hin hstep
  rw [← decode_isOk_iff, ← decode_isError_iff]
  cases hdec : decode c with
  | ok i =>
    rw [step_of_decode_ok hin hdec] at hstep
    obtain ⟨hrest, dout, hresp⟩ := exec_port hstep
    exact ⟨hrest, _, hresp, by simp, by simp⟩
  | error e =>
    rw [step_of_decode_error hin hdec] at hstep
    obtain rfl : raiseIllegal (s.withInputs rest) = t := by simpa using hstep
    exact ⟨rfl, _, raiseIllegal_response _, by simp, fun _ => ⟨rfl, rfl⟩⟩

end Sys2Proof.Machine
end

section
/-! The assembler (R110-R112): what a line assembles to is written by the encoder, and each pseudo-instruction is its
expansion. -/

namespace Sys2Proof

theorem RegOperand.isSome_reg? (r : RegOperand) : r.reg?.isSome = r.wellFormed := by
  cases r with
  | name => rfl
  | address a => exact Reg.isSome_ofNat? a

/-- `READ` assembles to the read of the register that its operand names (R110). -/
theorem assemble_read (r : RegOperand) : assemble (.read r) = r.reg?.map fun reg => [encode (readInstr reg)] := by
  cases h : r.reg? <;> simp [assemble, h]

/-- Only the register operand can keep a line from assembling (R110, R112). -/
theorem isSome_assemble (l : AsmLine) : (assemble l).isSome = l.wellFormed := by
  cases l with
  | read r => rw [assemble_read, Option.isSome_map, RegOperand.isSome_reg?]; rfl
  | _ => rfl

/-- Every command of a line is some instruction's (R110, R111). -/
theorem exists_encode_of_mem_assemble {l : AsmLine} {cs : List Command} (h : assemble l = some cs) {c : Command}
    (hc : c ∈ cs) : ∃ i, c = encode i := by
  cases l with
  | read r =>
    rw [assemble_read, Option.map_eq_some_iff] at h
    obtain ⟨reg, -, rfl⟩ := h
    exact ⟨_, List.mem_singleton.1 hc⟩
  | processRepeat n x =>
    cases h
    exact ⟨_, List.eq_of_mem_replicate hc⟩
  | reacquire =>
    cases h
    rcases List.mem_pair.1 hc with h | h <;> exact ⟨_, h⟩
  | _ =>
    cases h
    exact ⟨_, List.mem_singleton.1 hc⟩

/-- Settles O5: the encoder writes legal words only. -/
theorem assemblerEmitsLegalCommandsOnly : Obligations.AssemblerEmitsLegalCommandsOnly := by
  refine fun l => ⟨isSome_assemble l, fun cs h c hc => ?_⟩
  obtain ⟨i, rfl⟩ := exists_encode_of_mem_assemble h hc
  exact encode_cmd_mem_legalWords i

end Sys2Proof

namespace Sys2Proof.Machine

/-- Settles O6: the expansions by the assembler's own lines; bit 3 of `STATUS` is `ERR`. -/
theorem pseudoInstructionsExpand : Obligations.PseudoInstructionsExpand :=
  ⟨fun _ _ => ⟨_, rfl, rfl⟩, ⟨_, _, rfl, rfl, rfl⟩, ⟨_, rfl, rfl⟩,
    fun s => ⟨statusWord s.core.seq, exec_readInstr .status s,
      (statusWord_getLsbD _ 3).trans (err_eq_decide _)⟩⟩

end Sys2Proof.Machine
end

section
/-! The two filters of the front end (R130, R131), and where the gain changes (R134-R136): what each state of the
sequencer does with the registers of the AGC front end. -/

namespace Sys2Proof.Machine

/-! ### The filters -/

/-- No state of the level gate writes the filters (R280-R282). -/
theorem levelGate_filters (p : Params) (lvl : F32) (c : CoreState) :
    (levelGate p lvl c).agc.hpfLp = c.agc.hpfLp ∧ (levelGate p lvl c).agc.level = c.agc.level := by
  unfold levelGate
  split
  · rcases waitToSettle_cases p lvl c with ⟨-, -, e⟩ | ⟨-, e⟩ <;> simp [e]
  · rcases senseGain_cases p lvl c with ⟨-, e⟩ | ⟨-, -, e⟩ | ⟨-, -, e⟩ <;> simp [e]

/-- Outside `ERROR` the filters after a sample are those of the front end: nothing later in the sample writes them
(R276). -/
theorem processSample_filters {p : Params} {x : F32} {c c' : CoreState} (h : processSample p x c = some c')
    (hs : c.seq.state ≠ .error) :
    c'.agc.hpfLp = (frontEnd p x c.agc).2.hpfLp ∧ c'.agc.level = (frontEnd p x c.agc).2.level := by
  rcases processSample_cases h with ⟨he, -⟩ | ⟨-, rfl⟩ | ⟨-, -, rfl⟩ | ⟨-, -, hd⟩
  · exact absurd he hs
  · exact levelGate_filters ..
  · exact ⟨rfl, rfl⟩
  · obtain ⟨c1, hdisp, rfl⟩ := demodulate_cases hd
    obtain ⟨-, -, -, -, hlp, hlevel, -⟩ := dispatch_frame hdisp
    exact ⟨hlp, hlevel⟩

/-- Settles O19: the front end, written out. -/
theorem filtersRunOnEverySampleOutsideError : Obligations.FiltersRunOnEverySampleOutsideError := by
  intro din s t hexec hs
  obtain ⟨c, hc, rfl⟩ := execProcess_next_iff.1 hexec
  exact processSample_filters hc hs

/-! ### The gain, state by state -/

theorem levelGate_of_waitToSettle {p : Params} {lvl : F32} {c : CoreState} (hs : c.seq.state = .waitToSettle) :
    levelGate p lvl c = waitToSettle p lvl c := by simp only [levelGate, hs]

theorem levelGate_of_senseGain {p : Params} {lvl : F32} {c : CoreState} (hs : c.seq.state = .senseGain) :
    levelGate p lvl c = senseGain p lvl c := by simp only [levelGate, hs]

theorem waitToSettle_gain (p : Params) (lvl : F32) (c : CoreState) :
    (waitToSettle p lvl c).agc.gain = c.agc.gain := by
  rcases waitToSettle_cases p lvl c with ⟨-, -, e⟩ | ⟨-, e⟩ <;> rw [e] <;> rfl

/-- `SENSE_GAIN` sets the initial gain exactly when it enters `CARRIER_SYNC` (R134, R282). -/
theorem senseGain_gain (p : Params) (lvl : F32) {c : CoreState} (hs : c.seq.state = .senseGain) :
    (senseGain p lvl c).agc.gain =
      if (senseGain p lvl c).seq.state = .carrierSync then kSense.div lvl else c.agc.gain := by
  rcases senseGain_cases p lvl c with ⟨-, e⟩ | ⟨-, -, e⟩ | ⟨-, -, e⟩
  · simp [e]
  · simp [e, initialGain]
  · simp [e, hs]

/-- `CARRIER_SYNC` updates the gain on the trigger of a sync symbol (R136, R291). -/
theorem carrierSync_gain (p : Params) (v : V) (c : CoreState) :
    (carrierSync p v c).agc.gain =
      if phaseTrigger F32.zero c.pll ≠ none ∧ decideSymbol v = carrierSyncSymbol then
        (agcProcess v carrierSyncVector agcFast c.agc).gain
      else c.agc.gain := by
  rcases carrierSync_cases p v c with ⟨ht, e⟩ | ⟨d, ht, hd, e⟩ | ⟨d, ht, hd, e⟩
  · simp [e, ht]
  · simp [e, ht, hd]
  · simp [e, ht, hd]

/-- `CARRIER_LOCK` updates the gain on every handled trigger (R136, R292). -/
theorem carrierLock_gain (p : Params) (v vq : V) (phi : F32) (c : CoreState) :
    (carrierLock p v vq phi c).agc.gain =
      if selectTrigger c.pll ≠ none then (agcProcess v carrierSyncVector agcFast c.agc).gain else c.agc.gain := by
  rcases carrierLock_cases p v vq phi c with ⟨ht, e⟩ | ⟨d, seq, ht, -, e⟩ <;> simp [e, ht]

theorem align_gain {p : Params} {v vq : V} {phi : F32} {c c' : CoreState} (h : align p v vq phi c = some c') :
    c'.agc.gain = c.agc.gain := by
  rcases align_cases h with ⟨-, rfl⟩ | ⟨d, u, seq, -, -, -, rfl⟩ <;> rfl

/-- `OK` updates the gain on every emission, when the sample began with the flag clear (R136, R275, R295). -/
theorem data_gain (p : Params) (v vq : V) (phi : F32) {c : CoreState} (he : c.seq.emit = false) :
    (data p v vq phi c).agc.gain =
      if (data p v vq phi c).seq.emit = true then (agcProcess v vq agcSlow c.agc).gain else c.agc.gain := by
  rcases data_cases p v vq phi c with ⟨-, e⟩ | ⟨d, -, e⟩ <;> simp [e, he]

/-- A demodulated sample leaves the front end, the sequencer registers and `recovered` as its dispatch does (R285,
R296). -/
theorem demodulate_dispatch {p : Params} {g : F32} {c c' : CoreState} (h : demodulate p g c = some c') :
    ∃ c1, dispatch p c'.hold.recovered (quantizeV c'.hold.recovered) c.pll.phase (demodFront p g c) = some c1 ∧
      c'.agc = c1.agc ∧ c'.seq = c1.seq := by
  obtain ⟨c1, hdisp, rfl⟩ := demodulate_cases h
  obtain ⟨-, hhold, -⟩ := dispatch_frame hdisp
  have hv : c1.hold.recovered = (baseband p g c).1 := by rw [hhold]; rfl
  exact ⟨c1, by rw [CoreState.withPll_hold, hv]; exact hdisp, rfl, rfl⟩

/-- Settles O33, by the state in which the sample arrives. -/
theorem agcSpeedsByState : Obligations.AgcSpeedsByState := by
  intro din s t hexec
  obtain ⟨c, hc, rfl⟩ := execProcess_next_iff.1 hexec
  rw [State.respondDone_core, State.withCore_core]
  intro v fast slow
  rcases processSample_cases hc with ⟨hs, rfl⟩ | ⟨hpre, rfl⟩ | ⟨hs, -, rfl⟩ | ⟨hdem, -, hd⟩
  · rw [hs]
  · rw [(levelGate_filters ..).2]
    cases hs : s.core.seq.state with
    | waitToSettle => rw [levelGate_of_waitToSettle (c := sampleFront ..) hs]; exact waitToSettle_gain ..
    | senseGain => rw [levelGate_of_senseGain (c := sampleFront ..) hs]; exact senseGain_gain _ _ hs
    | _ => simp [hs, SeqState.preAcquisition] at hpre
  · simp [hs]
  · obtain ⟨c1, hdisp, hagc, hseq⟩ := demodulate_dispatch hd
    rw [hagc, hseq]
    simp only [dispatch, demodFront_seq, sampleFront_seq, SeqRegs.clearFlags_state] at hdisp
    cases hs : s.core.seq.state <;> rw [hs] at hdisp
    case carrierSync => cases hdisp; exact carrierSync_gain ..
    case carrierLock => cases hdisp; exact carrierLock_gain ..
    case align => exact (align_gain hdisp).trans rfl
    case ok => cases hdisp; exact data_gain _ _ _ _ rfl
    all_goals simp [hs, SeqState.demodulating] at hdem

end Sys2Proof.Machine
end

section
/-! Bounds of the rounded operations (R20): the relative error of a sum, a sum just above a power of two, a product with
a factor from `[0, 1]`, and a difference with a term of known sign. -/

namespace Sys2Proof

/-! ### Finite values and their keys -/

theorem F32.isFinite_of_key_le {a b : F32} (hb : b.isFinite = true) (h0 : 0 ≤ a.key) (h : a.key ≤ b.key) :
    a.isFinite = true := by
  have := abs_lt.1 (F32.abs_key_lt_of_finite hb)
  exact F32.isFinite_of_abs_key_lt (abs_lt.2 (by omega))

theorem F32.isFinite_of_mag_le {a b : F32} (hb : b.isFinite = true) (h : a.mag ≤ b.mag) : a.isFinite = true :=
  F32.isFinite_iff.2 (h.trans_lt (F32.isFinite_iff.1 hb))

theorem F32.isFinite_neg {a : F32} (h : a.isFinite = true) : a.neg.isFinite = true :=
  F32.isFinite_of_mag_le h a.mag_neg.le

/-- `a` is not negative: `a >= 0`, by keys. -/
theorem F32.ge_zero_iff {a : F32} : a.ge F32.zero = true ↔ a.isNaN = false ∧ 0 ≤ a.key := by
  have hzero : F32.zero.isNaN = false ∧ F32.zero.key = 0 := by decide
  rw [F32.ge_iff, hzero.2]
  exact and_iff_right hzero.1

theorem F32.key_nonneg_of_sign {a : F32} (h : a.sign = false) : 0 ≤ a.key := by rw [F32.key_of_pos h]; omega

theorem F32.key_nonpos_of_sign {a : F32} (h : a.sign = true) : a.key ≤ 0 := by rw [F32.key_of_neg h]; omega

theorem F32.value_nonpos_iff {a : F32} : a.value ≤ 0 ↔ a.key ≤ 0 :=
  F32.value_le_iff_key_le (b := F32.zero)

theorem F32.isInf_or_isFinite {a : F32} (h : a.isNaN = false) : a.isInf = true ∨ a.isFinite = true := by
  rw [F32.isInf_iff, F32.isFinite_iff]
  have := F32.isNaN_false_iff.1 h
  omega

/-! ### The relative error of a sum -/

/-- Rounding an integer number of units moves it by at most a part in 2^24: the unit in the last place is at most a part
in 2^23 of the number, and a number below 2^23 units is exact. -/
theorem roundPattern_error (n : Nat) : 2 ^ 24 * |(unitsOf (roundPattern n 1) : Int) - n| ≤ n := by
  have hlo := (shift_spec (n / 1)).2
  rw [unitsOf_roundPattern, one_mul]
  rw [Nat.div_one] at hlo ⊢
  generalize Nat.log2 n - 23 = k at *
  have herr := roundNearestEven_error n (2 ^ k) (Nat.two_pow_pos k)
  generalize roundNearestEven n (2 ^ k) = r at *
  push_cast at herr ⊢
  rcases Nat.eq_zero_or_pos k with rfl | hk
  · simp only [Int.abs_eq_natAbs, pow_zero, mul_one] at *
    omega
  · have hn : 2 ^ 23 * 2 ^ k ≤ n := by rw [← Nat.pow_add]; exact hlo hk
    zify at hn
    simp only [Int.abs_eq_natAbs] at *
    generalize (2 : Int) ^ k = d at *
    omega

/-- A finite sum differs from the exact one by at most a part in 2^24 of it. -/
theorem sumOr_error {nan a b : F32} (ha : a.isFinite = true) (hb : b.isFinite = true)
    (hs : (sumOr nan a b).isFinite = true) :
    2 ^ 24 * |(sumOr nan a b).value - (a.value + b.value)| ≤ |a.value + b.value| := by
  obtain ⟨neg, n, hx, hr⟩ := sumOr_eq_rounded (nan := nan) ha hb
  rw [hr, F32.isFinite_iff, F32.mag_rounded] at hs
  have herr := roundPattern_error n
  rw [hr, hx, F32.value_rounded, roundMag_eq_roundPattern hs]
  simp only [withSign, Int.abs_eq_natAbs] at *
  split <;> omega

/-! ### A sum just above a power of two -/

/-- The value of the pattern `(k + 1) * 2 ^ 23 + j` with a small fraction `j`. -/
theorem unitsOf_powTwo_add {k j : Nat} (hj : j ≤ 2 ^ 23) :
    unitsOf ((k + 1) * 2 ^ 23 + j) = (2 ^ 23 + j) * 2 ^ k := by
  have hpattern : (k + 1) * 2 ^ 23 + j = k * 2 ^ 23 + (2 ^ 23 + j) := by omega
  rw [hpattern]
  exact unitsOf_block (.inr (by omega)) (by omega)

/-- A number above a power of two (or zero) by at most a part in 2^24 is rounded down to it: it is no nearer to the next
pattern, which is odd. -/
theorem roundMag_le_powTwo {k n : Nat} (h : 2 ^ 24 * n ≤ (2 ^ 24 + 1) * unitsOf (k * 2 ^ 23)) :
    roundMag n 1 ≤ k * 2 ^ 23 := by
  rcases k with _ | k
  · obtain rfl : n = 0 := by simpa using h
    decide
  have hM : unitsOf ((k + 1) * 2 ^ 23) = 2 ^ 23 * 2 ^ k := by
    simpa only [Nat.add_zero] using unitsOf_powTwo_add (k := k) (Nat.zero_le _)
  have hM1 : unitsOf ((k + 1) * 2 ^ 23 + 1) = (2 ^ 23 + 1) * 2 ^ k := unitsOf_powTwo_add (by decide)
  have hparity : (k + 1) * 2 ^ 23 % 2 = 0 := by omega
  refine (roundMag_eq n 1).trans_le (min_le_of_left_le ?_)
  by_contra! hlt
  have hnear := roundPattern_nearest (num := n) (den := 1) Nat.one_pos hlt.ne
  generalize (k + 1) * 2 ^ 23 = M, roundPattern n 1 = P at *
  have hnext : unitsOf (M + 1) ≤ unitsOf P := unitsOf_le_iff.2 hlt
  rw [hM] at h hnear
  rw [hM1] at hnext
  simp only [Int.abs_eq_natAbs] at hnear
  rcases hnear with hcloser | ⟨htie, heven⟩
  · omega
  · have hodd : unitsOf (M + 1) < unitsOf P := unitsOf_lt_iff.2 (by omega)
    rw [hM1] at hodd
    omega

/-- A rounded sum that is not negative stays within a power of two (or zero) that the exact sum exceeds by at most a
part in 2^24. -/
theorem sumOr_le_powTwo {nan a b c : F32} {k : Nat} (ha : a.isFinite = true) (hb : b.isFinite = true)
    (hs : c.sign = false) (hm : c.mag = k * 2 ^ 23) (h0 : 0 ≤ a.value + b.value)
    (h : 2 ^ 24 * (a.value + b.value - c.value) ≤ c.value) : (sumOr nan a b).key ≤ c.key := by
  rw [(sumOr_key ha hb).2, if_neg h0.not_gt, F32.key_of_pos hs, hm]
  rw [F32.value_of_pos hs, hm] at h
  exact_mod_cast roundMag_le_powTwo (by omega)

/-! ### Products -/

/-- A factor from `[0, 1]` moves a finite value towards zero, and not across it. -/
theorem F32.mul_unit_bounds {a d : F32} (ha : Machine.inUnitClosed a = true) (hd : d.isFinite = true) :
    (a.mul d).isFinite = true ∧ (0 ≤ d.value → 0 ≤ (a.mul d).value ∧ (a.mul d).value ≤ d.value) ∧
      (d.value ≤ 0 → d.value ≤ (a.mul d).value ∧ (a.mul d).value ≤ 0) := by
  obtain ⟨-, h0, h1⟩ := Machine.inUnitClosed_iff.1 ha
  have hone : one.key < infMag := by decide
  have hfin : a.isFinite = true := F32.isFinite_of_abs_key_lt (abs_lt.2 (by omega))
  have hunits : unitsOf a.mag ≤ 2 ^ 149 := by
    have := F32.value_le_iff_key_le.2 h1
    rw [show one.value = 2 ^ 149 by decide] at this
    have := F32.value_nonneg_iff.2 h0
    have := a.natAbs_value
    omega
  have hmag : (a.mul d).mag ≤ d.mag := by
    rw [F32.mul_eq_rounded hfin hd, F32.mag_rounded]
    calc roundMag (unitsOf a.mag * unitsOf d.mag) (2 ^ 149)
        ≤ roundMag (unitsOf d.mag * 2 ^ 149) (2 ^ 149) := by
          rw [Nat.mul_comm]; exact roundMag_mono (Nat.mul_le_mul_left _ hunits)
      _ = d.mag := roundMag_unitsOf _ (Nat.two_pow_pos _) (F32.isFinite_iff.1 hd).le
  have hsign : (a.mul d).sign = (a.sign != d.sign) := by rw [F32.mul_eq_rounded hfin hd, F32.sign_rounded]
  refine ⟨F32.isFinite_of_mag_le hd hmag, ?_⟩
  have hle := unitsOf_le_iff.2 hmag
  rw [(a.mul d).value_eq_withSign, d.value_eq_withSign, hsign]
  cases hs : a.sign with
  | false =>
    rw [Bool.false_bne]
    cases d.sign <;> simp only [withSign, if_true, if_false, Bool.false_eq_true] <;> omega
  | true =>
    have ha0 : a.mag = 0 := by rw [F32.key_of_neg hs] at h0; omega
    have hp0 : (a.mul d).mag = 0 := by
      rw [F32.mul_eq_rounded hfin hd, F32.mag_rounded, ha0, unitsOf_zero, Nat.zero_mul]
      decide
    rw [hp0, unitsOf_zero, withSign_zero]
    exact ⟨fun h => ⟨le_rfl, h⟩, fun h => ⟨h, le_rfl⟩⟩

/-- A product with a positive finite value is a number with the sign of the other factor, an infinity included. -/
theorem F32.mul_pos_sign {a b : F32} (ha : a.isFinite = true) (hs : a.sign = false) (h0 : a.mag ≠ 0)
    (hb : b.isNaN = false) : (a.mul b).isNaN = false ∧ (a.mul b).sign = b.sign := by
  rcases F32.isInf_or_isFinite hb with hinf | hfin
  · have hbm := F32.isInf_iff.1 hinf
    have hmul : a.mul b = F32.ofSignMag b.sign infMag := by
      obtain ⟨na, ia⟩ := F32.not_nan_inf_of_finite ha
      simp [F32.mul, na, hb, hinf, hs, h0, hbm, infMag]
    rw [hmul, F32.isNaN_false_iff, F32.mag_ofSignMag (by decide), F32.sign_ofSignMag (by decide)]
    exact ⟨le_rfl, rfl⟩
  · rw [F32.mul_eq_rounded ha hfin, F32.isNaN_false_iff, F32.mag_rounded, F32.sign_rounded, hs, Bool.false_bne]
    exact ⟨roundMag_le .., rfl⟩

/-! ### Differences -/

/-- An infinity added to a finite value is the sum. -/
theorem sumOr_inf {nan a b : F32} (ha : a.isFinite = true) (hb : b.isInf = true) : sumOr nan a b = b := by
  obtain ⟨na, ia⟩ := F32.not_nan_inf_of_finite ha
  simp [sumOr, na, ia, F32.isNaN_of_isInf hb, hb]

/-- Taking a number that is not negative from a finite value does not raise it, with an overflow to `-inf` included. -/
theorem F32.sub_le_self {a d : F32} (ha : a.isFinite = true) (hd : d.isNaN = false) (hs : d.sign = false) :
    (a.sub d).le a = true := by
  rw [F32.sub]
  rcases F32.isInf_or_isFinite hd with hinf | hfin
  · have hneg : d.neg.isInf = true := by rwa [F32.isInf, F32.mag_neg]
    rw [sumOr_inf ha hneg, (F32.compare_inf_finite hneg ha).2.1, F32.sign_neg, hs]
    rfl
  · have hneg := F32.isFinite_neg hfin
    have hle : a.value + d.neg.value ≤ a.value := by
      have := F32.value_nonneg_iff.2 (F32.key_nonneg_of_sign hs)
      rw [F32.value_neg]; omega
    have na := (F32.not_nan_inf_of_finite ha).1
    exact F32.le_iff.2 ⟨(sumOr_key ha hneg).1, na, sumOr_le ha hneg na hle⟩

/-- Taking a number that is not positive from a finite value does not lower it. -/
theorem F32.sub_ge_self {a d : F32} (ha : a.isFinite = true) (hd : d.isNaN = false) (hs : d.sign = true) :
    (a.sub d).ge a = true := by
  rw [F32.sub]
  rcases F32.isInf_or_isFinite hd with hinf | hfin
  · have hneg : d.neg.isInf = true := by rwa [F32.isInf, F32.mag_neg]
    obtain ⟨-, -, -, -, hle, -⟩ := F32.compare_inf_finite hneg ha
    rw [sumOr_inf ha hneg, F32.ge, hle, F32.sign_neg, hs]
    rfl
  · have hneg := F32.isFinite_neg hfin
    have hge : a.value ≤ a.value + d.neg.value := by
      have := F32.value_nonpos_iff.2 (F32.key_nonpos_of_sign hs)
      rw [F32.value_neg]; omega
    have na := (F32.not_nan_inf_of_finite ha).1
    exact F32.ge_iff.2 ⟨na, (sumOr_key ha hneg).1, sumOr_ge ha hneg na hge⟩

end Sys2Proof
end

section
/-! The level follower stays in its range (R131), and the gain update opposes the error (R135). -/

namespace Sys2Proof.Machine

/-! ### The gain update -/

/-- The product of the update has the sign of the error: both speeds are positive (R135, R136). -/
theorem speed_mul_sign {speed e : F32} (h : speed = agcFast ∨ speed = agcSlow) (he : e.isNaN = false) :
    (speed.mul e).isNaN = false ∧ (speed.mul e).sign = e.sign := by
  rcases h with rfl | rfl <;> exact F32.mul_pos_sign (by decide) (by decide) (by decide) he

/-- Settles O48: what is taken from the gain has the sign of the error. -/
theorem gainUpdateOpposesTheError : Obligations.GainUpdateOpposesTheError := by
  intro v r speed a hspeed hgain
  constructor
  · intro hgt
    obtain ⟨hnan, hsign⟩ := F32.nonneg_of_gt rfl hgt
    obtain ⟨hp, hps⟩ := speed_mul_sign hspeed hnan
    exact F32.sub_le_self hgain hp (hps.trans hsign)
  · intro hlt
    have hnan := (F32.lt_iff.1 hlt).1
    have hsign : (v.norm2.sub r.norm2).sign = true := by
      by_contra hpos
      simp [F32.lt_zero_eq_false (eq_false_of_ne_true hpos)] at hlt
    obtain ⟨hp, hps⟩ := speed_mul_sign hspeed hnan
    exact F32.sub_ge_self hgain hp (hps.trans hsign)

/-! ### The level follower -/

/-- The difference that the follower scales: of two finite values that are not negative it is finite, between minus the
level and the magnitude (R131). -/
theorem levelError_bounds {m l : F32} (hm : m.isFinite = true) (hm0 : 0 ≤ m.key) (hl : l.isFinite = true)
    (hl0 : 0 ≤ l.key) :
    (m.sub l).isFinite = true ∧ -l.value ≤ (m.sub l).value ∧ (m.sub l).value ≤ m.value := by
  have hneg := F32.isFinite_neg hl
  have vm := F32.value_nonneg_iff.2 hm0
  have vl := F32.value_nonneg_iff.2 hl0
  have hlo : l.neg.key ≤ (m.sub l).key := by
    rw [F32.sub]
    exact sumOr_ge hm hneg (F32.not_nan_inf_of_finite hneg).1 (by omega)
  have hhi : (m.sub l).key ≤ m.key := by
    rw [F32.sub]
    exact sumOr_le hm hneg (F32.not_nan_inf_of_finite hm).1 (by rw [F32.value_neg]; omega)
  refine ⟨?_, ?_, F32.value_le_iff_key_le.2 hhi⟩
  · have hm' := abs_lt.1 (F32.abs_key_lt_of_finite hm)
    have hl' := abs_lt.1 (F32.abs_key_lt_of_finite hneg)
    exact F32.isFinite_of_abs_key_lt (abs_lt.2 (by omega))
  · rw [← F32.value_neg]
    exact F32.value_le_iff_key_le.2 hlo

/-- The increment of the follower: finite, never taking more than the level, and at most the rounded difference or
zero. -/
theorem levelIncrement_bounds {α m l : F32} (hα : inUnitClosed α = true) (hm : m.isFinite = true) (hm0 : 0 ≤ m.key)
    (hl : l.isFinite = true) (hl0 : 0 ≤ l.key) :
    (α.mul (m.sub l)).isFinite = true ∧ 0 ≤ l.value + (α.mul (m.sub l)).value ∧
      (α.mul (m.sub l)).value ≤ max 0 (m.sub l).value := by
  obtain ⟨hd, hlo, -⟩ := levelError_bounds hm hm0 hl hl0
  obtain ⟨hp, hpos, hneg⟩ := F32.mul_unit_bounds hα hd
  have vl := F32.value_nonneg_iff.2 hl0
  refine ⟨hp, ?_, ?_⟩ <;> omega

/-- One sample with a finite magnitude keeps a finite level from going below 0 (R131); it can round it to infinity. -/
theorem follow_level_nonneg {p : Params} {a : AgcState} {m : F32} (hα : inUnitClosed p.alphaLvl = true)
    (hl : a.level.isFinite = true) (hl0 : 0 ≤ a.level.key) (hm : m.isFinite = true) :
    (follow p m a).level.isNaN = false ∧ 0 ≤ (follow p m a).level.key := by
  have hzero : F32.zero.key = 0 := by decide
  have hmabs : m.abs.isFinite = true := F32.isFinite_of_mag_le hm m.mag_abs.le
  obtain ⟨hp, h0, -⟩ := levelIncrement_bounds hα hmabs (F32.key_nonneg_of_sign m.sign_abs) hl hl0
  rw [follow, F32.add, ← hzero]
  exact ⟨(sumOr_key hl hp).1, sumOr_ge hl hp (by decide) h0⟩

/-- `l` is in `[0, b]`, by keys. -/
def InRange (b l : F32) : Prop := l.isNaN = false ∧ 0 ≤ l.key ∧ l.key ≤ b.key

theorem inRange_iff {b l : F32} (hb : b.isNaN = false) :
    InRange b l ↔ l.ge F32.zero = true ∧ l.le b = true := by
  rw [F32.ge_zero_iff, F32.le_iff, InRange]
  tauto

/-- A power of two from 2^-126 to 2^127, or zero: the bounds that the follower keeps. -/
def levelBound (k : Nat) : F32 := F32.ofSignMag false (k * 2 ^ 23)

theorem mag_levelBound {k : Nat} (hk : k < 255) : (levelBound k).mag = k * 2 ^ 23 :=
  F32.mag_ofSignMag (by omega)

theorem sign_levelBound {k : Nat} (hk : k < 255) : (levelBound k).sign = false :=
  F32.sign_ofSignMag (by omega)

theorem isFinite_levelBound {k : Nat} (hk : k < 255) : (levelBound k).isFinite = true := by
  rw [F32.isFinite_iff, mag_levelBound hk, infMag]; omega

/-- One sample whose magnitude is within the bound keeps the level in `[0, B]` (R131): the rounding of the difference adds
at most a part in 2^24 of the bound, that of the increment does not pass the difference, and the sum is rounded down to
the bound again. -/
theorem follow_inRange {p : Params} {a : AgcState} {m : F32} {k : Nat} (hα : inUnitClosed p.alphaLvl = true)
    (hk : k < 255) (hl : InRange (levelBound k) a.level) (hm : m.abs.le (levelBound k) = true) :
    InRange (levelBound k) (follow p m a).level := by
  obtain ⟨-, hl0, hlB⟩ := hl
  obtain ⟨-, -, hmB⟩ := F32.le_iff.1 hm
  have hB := isFinite_levelBound hk
  have hm0 : 0 ≤ m.abs.key := F32.key_nonneg_of_sign m.sign_abs
  have fl := F32.isFinite_of_key_le hB hl0 hlB
  have fm := F32.isFinite_of_key_le hB hm0 hmB
  obtain ⟨hn, h0⟩ := follow_level_nonneg hα fl hl0 (F32.isFinite_of_mag_le fm m.mag_abs.ge)
  refine ⟨hn, h0, ?_⟩
  obtain ⟨fd, -, -⟩ := levelError_bounds fm hm0 fl hl0
  obtain ⟨fp, hsum, hmax⟩ := levelIncrement_bounds hα fm hm0 fl hl0
  have herr : 2 ^ 24 * |(m.abs.sub a.level).value - (m.abs.value - a.level.value)| ≤
      |m.abs.value - a.level.value| := by
    rw [F32.sub] at fd ⊢
    have := sumOr_error fm (F32.isFinite_neg fl) fd
    rwa [F32.value_neg, ← sub_eq_add_neg] at this
  have vl0 := F32.value_nonneg_iff.2 hl0
  have vlB := F32.value_le_iff_key_le.2 hlB
  have vmB := F32.value_le_iff_key_le.2 hmB
  rw [follow, F32.add]
  refine sumOr_le_powTwo fl fp (sign_levelBound hk) (mag_levelBound hk) hsum ?_
  simp only [Int.abs_eq_natAbs] at herr
  omega

/-- Any number of such samples does, and the follower writes nothing else (R131). -/
theorem foldl_follow {p : Params} {k : Nat} (hα : inUnitClosed p.alphaLvl = true) (hk : k < 255) (ms : List F32)
    (a : AgcState) (hl : InRange (levelBound k) a.level) (hms : ∀ m ∈ ms, m.abs.le (levelBound k) = true) :
    let t := ms.foldl (fun s m => follow p m s) a
    InRange (levelBound k) t.level ∧ t.gain = a.gain ∧ t.hpfLp = a.hpfLp := by
  induction ms generalizing a with
  | nil => exact ⟨hl, rfl, rfl⟩
  | cons m ms ih =>
    obtain ⟨hm, hrest⟩ := List.forall_mem_cons.1 hms
    exact ih (follow p m a) (follow_inRange hα hk hl hm) hrest

/-- Settles O47: one sample by the bounds of the increment, any number of them by induction on the list. -/
theorem levelStaysNonNegative : Obligations.LevelStaysNonNegative := by
  intro p a hα0 hα1 hl
  have hα : inUnitClosed p.alphaLvl = true := by rw [inUnitClosed, hα0, hα1]; rfl
  obtain ⟨-, hl0⟩ := F32.ge_zero_iff.1 hl
  refine ⟨fun m fl fm => ⟨F32.ge_zero_iff.2 (follow_level_nonneg hα fl hl0 fm), rfl, rfl⟩, ?_⟩
  intro k ms hk bound t hlB hms
  have hB := isFinite_levelBound hk
  have hrange (l : F32) := inRange_iff (l := l) (F32.not_nan_inf_of_finite hB).1
  obtain ⟨ht, hgain, hlp⟩ := foldl_follow hα hk ms a ((hrange _).2 ⟨hl, hlB⟩) hms
  obtain ⟨ht0, htB⟩ := (hrange _).1 ht
  obtain ⟨-, hkey0, hkeyB⟩ := ht
  exact ⟨F32.isFinite_of_key_le hB hkey0 hkeyB, ht0, htB, hgain, hlp⟩

end Sys2Proof.Machine
end

section
/-! The NCO and the trigger (R160-R163): which instruction advances the phase, and a phase that is a NaN. -/

namespace Sys2Proof.Machine

section Sample
variable {p : Params} {c c' : CoreState}

/-! ### What a sample does with the PLL -/

/-- No state of the level gate writes the PLL or the flags (R280-R282). -/
theorem levelGate_frame (p : Params) (lvl : F32) (c : CoreState) :
    (levelGate p lvl c).pll = c.pll ∧ (levelGate p lvl c).seq.decide = c.seq.decide ∧
      (levelGate p lvl c).seq.emit = c.seq.emit := by
  unfold levelGate
  split
  · rcases waitToSettle_cases p lvl c with ⟨-, -, e⟩ | ⟨-, e⟩ <;> simp [e]
  · rcases senseGain_cases p lvl c with ⟨-, e⟩ | ⟨-, -, e⟩ | ⟨-, -, e⟩ <;> simp [e]

/-- No state of the dispatch enters `ERROR` (R290): it is a loss of signal that does (R283). -/
theorem dispatch_state_ne_error {v vq : V} {phi : F32} (hs : c.seq.state ≠ .error)
    (h : dispatch p v vq phi c = some c') : c'.seq.state ≠ .error := by
  unfold dispatch at h
  split at h
  · cases h
    rcases carrierSync_cases p v c with ⟨-, e⟩ | ⟨d, -, -, e⟩ | ⟨d, -, -, e⟩ <;> rw [e]
    · exact hs
    · rw [CoreState.withSeq_seq]; dsimp only; split
      · nofun
      · exact hs
    · exact hs
  · cases h
    rcases carrierLock_cases p v vq phi c with ⟨-, e⟩ | ⟨d, seq, -, ⟨-, rfl⟩ | ⟨-, rfl⟩, e⟩ <;> rw [e]
    · exact hs
    · exact hs
    · nofun
  · rcases align_cases h with ⟨-, rfl⟩ | ⟨d, u, seq, -, -, ⟨-, rfl⟩ | ⟨r, -, rfl⟩, rfl⟩
    · exact hs
    · exact hs
    · nofun
  · cases h
    rcases data_cases p v vq phi c with ⟨-, e⟩ | ⟨d, -, e⟩ <;> rw [e] <;> exact hs
  all_goals cases h; exact hs

theorem SeqState.demodulating_of_preAcquisition {q : SeqState} (h : q.preAcquisition = true) :
    q.demodulating = false := by
  cases q with
  | waitToSettle | senseGain => rfl
  | _ => cases h

theorem SeqState.ne_error_of_demodulating {q : SeqState} (h : q.demodulating = true) : q ≠ .error := by
  rintro rfl; cases h

/-- A sample is demodulated, and then advances the NCO by the step it has just set, or leaves the PLL alone: in `ERROR`,
before acquisition, and when it loses the signal (R160, R162, R276, R283). -/
theorem processSample_pll {x : F32} (h : processSample p x c = some c') :
    ((c.seq.state.demodulating = true ∧ c'.seq.state ≠ .error) ∧
        c'.pll.prevPhase = c.pll.phase ∧ c'.pll.phase = (c.pll.phase.add c'.pll.step).wrap) ∨
      (¬(c.seq.state.demodulating = true ∧ c'.seq.state ≠ .error) ∧ c'.pll = c.pll) := by
  rcases processSample_cases h with ⟨hs, rfl⟩ | ⟨hpre, rfl⟩ | ⟨-, -, rfl⟩ | ⟨hdem, -, hd⟩
  · exact .inr ⟨fun ⟨_, hne⟩ => hne hs, rfl⟩
  · refine .inr ⟨fun ⟨hdem, _⟩ => ?_, (levelGate_frame ..).1⟩
    rw [SeqState.demodulating_of_preAcquisition hpre] at hdem
    cases hdem
  · exact .inr ⟨fun ⟨_, hne⟩ => hne rfl, rfl⟩
  · obtain ⟨c1, hdisp, rfl⟩ := demodulate_cases hd
    have hne := dispatch_state_ne_error (by exact SeqState.ne_error_of_demodulating hdem) hdisp
    obtain ⟨-, -, hphase, -⟩ := dispatch_frame hdisp
    refine .inl ⟨⟨hdem, hne⟩, hphase, ?_⟩
    rw [CoreState.withPll_pll, ncoStep_phase, ncoStep_step, hphase]
    rfl

end Sample

/-- Of the instructions other than `PROCESS`, `INIT` and `RESET`, none writes the PLL (R322, R324, R330). -/
theorem exec_pll_of_not_process {i : Instr} {s t : State} (h : exec i s = .next t) (hp : ∀ din, i ≠ .process din)
    (hi : i ≠ .init) (hr : i ≠ .reset) : t.core.pll = s.core.pll := by
  cases i
  case process din => exact absurd rfl (hp din)
  case init => exact absurd rfl hi
  case reset => exact absurd rfl hr
  all_goals cases h; rfl

/-- Settles O34, by what a sample does with the PLL. -/
theorem ncoAdvancesOncePerDemodulatedSample : Obligations.NcoAdvancesOncePerDemodulatedSample := by
  intro i s t hexec hi hr
  by_cases hp : ∃ din, i = .process din
  · obtain ⟨din, rfl⟩ := hp
    obtain ⟨c, hc, rfl⟩ := execProcess_next_iff.1 hexec
    rcases processSample_pll hc with ⟨hdem, hadv⟩ | ⟨hnot, hsame⟩
    · exact ⟨fun _ => hadv, fun hn => absurd ⟨⟨din, rfl⟩, hdem⟩ hn⟩
    · exact ⟨fun ⟨_, hdem⟩ => absurd hdem hnot, fun _ => hsame⟩
  · exact ⟨fun ⟨hproc, _⟩ => absurd hproc hp,
      fun _ => exec_pll_of_not_process hexec (fun din h => hp ⟨din, h⟩) hi hr⟩

/-! ### A phase that is a NaN -/

/-- A phase that is a NaN gives no trigger: its distance from the threshold is a NaN, which is not less than anything
(R21, R163). -/
theorem phaseTrigger_of_nan {l : PllState} (h : l.phase.isNaN = true) (t : F32) : phaseTrigger t l = none := by
  have hlt : (l.phase.sub t).wrap.lt (l.prevPhase.sub t).wrap = false :=
    F32.lt_of_nan (.inl (F32.isNaN_wrap_of_nan (F32.isNaN_sub_of_nan (.inl h))))
  rw [phaseTrigger_eq_none_iff, hlt]
  exact fun ⟨hf, _⟩ => Bool.false_ne_true hf

section Sample
variable {p : Params} {c : CoreState}

/-- Without a trigger the dispatch answers, and writes the PLL only (R290-R295). -/
theorem dispatch_of_no_trigger (h : ∀ t, phaseTrigger t c.pll = none) (v vq : V) (phi : F32) :
    ∃ l, dispatch p v vq phi c = some (c.withPll l) := by
  have hsel : selectTrigger c.pll = none := by simp only [selectTrigger, h]
  unfold dispatch
  split
  · exact ⟨processError p (syncError v) c.pll, by simp [carrierSync, h]⟩
  · exact ⟨processError p (decisionError v vq) c.pll, by simp [carrierLock, hsel]⟩
  · exact ⟨processError p (decisionError v vq) c.pll, by simp [align, hsel]⟩
  · exact ⟨processError p (gatedError p v vq phi c.seq.decisionPhase) c.pll, by simp [data, h]⟩
  all_goals exact ⟨c.pll, rfl⟩

/-- A demodulated sample with a NaN phase answers, keeps the sequencer registers, and leaves a NaN phase (R162, R285). -/
theorem demodulate_of_nan (h : c.pll.phase.isNaN = true) (g : F32) :
    ∃ c', demodulate p g c = some c' ∧ c'.pll.phase.isNaN = true ∧ c'.seq = c.seq := by
  obtain ⟨l, hl⟩ := dispatch_of_no_trigger (p := p) (c := demodFront p g c) (phaseTrigger_of_nan h)
    (baseband p g c).1 (quantizeV (baseband p g c).1) c.pll.phase
  obtain ⟨-, -, hphase, -⟩ := dispatch_frame hl
  refine ⟨((demodFront p g c).withPll l).withPll (ncoStep l), by simp only [demodulate, hl]; rfl, ?_, rfl⟩
  have hnan : l.phase.isNaN = true := by rw [show l.phase = c.pll.phase from hphase, h]
  exact F32.isNaN_wrap_of_nan (F32.isNaN_add_of_nan (.inl hnan))

/-- A sample with a NaN phase answers with both flags clear and a NaN phase, and leaves a demodulating state only by a loss
of signal (R161, R276). -/
theorem processSample_of_nan (h : c.pll.phase.isNaN = true) (hs : c.seq.state ≠ .error) (x : F32) :
    ∃ c', processSample p x c = some c' ∧ c'.pll.phase.isNaN = true ∧ c'.seq.emit = false ∧ c'.seq.decide = false ∧
      (c.seq.state.demodulating = true →
        c'.seq.state = c.seq.state ∨ (c.seq.state = .ok ∧ c'.seq.state = .error)) := by
  simp only [processSample, if_neg hs]
  split
  · next hpre =>
    obtain ⟨hpll, hdecide, hemit⟩ := levelGate_frame p (sampleFront p x c).agc.level (sampleFront p x c)
    refine ⟨_, rfl, by rw [hpll]; exact h, hemit, hdecide, fun hdem => ?_⟩
    rw [SeqState.demodulating_of_preAcquisition hpre] at hdem
    cases hdem
  · split
    · next hlost =>
      have hok : c.seq.state = .ok := by simpa using (Bool.and_eq_true_iff.1 hlost).1
      exact ⟨_, rfl, h, rfl, rfl, fun _ => .inr ⟨hok, rfl⟩⟩
    · obtain ⟨c', hc', hphase, hseq⟩ := demodulate_of_nan (p := p) (c := sampleFront p x c) h (frontEnd p x c.agc).1
      exact ⟨c', hc', hphase, by rw [hseq]; rfl, by rw [hseq]; rfl, fun _ => .inl (by rw [hseq]; rfl)⟩

end Sample

/-- Settles O35: the response of `PROCESS` leaves the core of its sample as it is. -/
theorem naNPhaseSticks : Obligations.NaNPhaseSticks := by
  intro din s hnan hs
  obtain ⟨c, hc, hcore⟩ := processSample_of_nan (p := Config.params) hnan hs (sampleOf din)
  exact ⟨_, execProcess_next_iff.2 ⟨c, hc, rfl⟩, hcore⟩

end Sys2Proof.Machine
end

section
/-! The ranges of R166 and R167 as statements of their own: the NCO step, and `ProcessError` on an error that is not a
NaN. -/

namespace Sys2Proof

/-- A sum with a finite term is a NaN only for a NaN: two infinities of opposite signs are not among its operands. -/
theorem sumOr_not_nan {nan a b : F32} (ha : a.isNaN = false) (hb : b.isNaN = false)
    (h : a.isFinite = true ∨ b.isFinite = true) : (sumOr nan a b).isNaN = false := by
  rcases F32.isInf_or_isFinite ha with ia | fa
  · have fb : b.isFinite = true := h.resolve_left fun fa => by simp [(F32.not_nan_inf_of_finite fa).2] at ia
    simp [sumOr, ha, hb, ia, (F32.not_nan_inf_of_finite fb).2]
  · rcases F32.isInf_or_isFinite hb with ib | fb
    · rwa [sumOr_inf fa ib]
    · exact (sumOr_key fa fb).1

theorem F32.add_not_nan {a b : F32} (ha : a.isNaN = false) (hb : b.isNaN = false)
    (h : a.isFinite = true ∨ b.isFinite = true) : (a.add b).isNaN = false := by
  rw [F32.add]; exact sumOr_not_nan ha hb h

theorem F32.sub_not_nan {a b : F32} (ha : a.isNaN = false) (hb : b.isNaN = false)
    (h : a.isFinite = true ∨ b.isFinite = true) : (a.sub b).isNaN = false := by
  rw [F32.sub]; exact sumOr_not_nan ha (by rwa [F32.isNaN_neg]) (h.imp_right F32.isFinite_neg)

/-- A clamp between bounds that are not NaNs is a NaN only for a NaN (R22). -/
theorem F32.clamp_not_nan {x lo hi : F32} (hx : x.isNaN = false) (hlo : lo.isNaN = false) (hhi : hi.isNaN = false) :
    (x.clamp lo hi).isNaN = false := by
  rw [F32.clamp]
  split
  · exact hlo
  · split
    · exact hhi
    · exact hx

end Sys2Proof

namespace Sys2Proof.Machine

/-- Settles O36: the NCO adds the step to the phase and wraps. -/
theorem phaseStaysInUnitInterval : Obligations.PhaseStaysInUnitInterval :=
  fun l hphase hstep => ⟨inUnit_wrap_add hphase hstep, ncoStep_prevPhase l⟩

/-! ### `ProcessError` -/

/-- An accumulator within the windup limit is finite (R167). -/
theorem isFinite_of_inWindup {a : F32} (h : inWindup a = true) : a.isFinite = true := by
  obtain ⟨-, hlo, hhi⟩ := inWindup_iff.1 h
  have hW : windupLimit.key < infMag ∧ windupLimitNeg.key = -windupLimit.key := by decide
  exact F32.isFinite_of_abs_key_lt (abs_lt.2 (by omega))

/-- An error that is not a NaN keeps the accumulator within the windup limit: `Ki` is positive and finite, so an infinite
error makes an infinite sum, which the clamp cuts (R161, R167). -/
theorem inWindup_processError {l : PllState} {e : F32} (p : Params) (he : e.isNaN = false)
    (hacc : inWindup l.acc = true) : inWindup (processError p e l).acc = true := by
  have hterm := (F32.mul_pos_sign (a := ki) (by decide) (by decide) (by decide) he).1
  have hsum := F32.add_not_nan (inWindup_iff.1 hacc).1 hterm (.inl (isFinite_of_inWindup hacc))
  have hclamp := F32.clamp_not_nan hsum (show windupLimitNeg.isNaN = false by decide)
    (show windupLimit.isNaN = false by decide)
  exact (inWindup_clamp _).resolve_left (Bool.eq_false_iff.1 hclamp)

/-- `NOMINAL_FREQ` is positive and finite (R13). -/
theorem nominalFreq_pos (n : SymbolDuration) :
    (nominalFreq n).isFinite = true ∧ (nominalFreq n).sign = false ∧ (nominalFreq n).mag ≠ 0 := by
  cases n <;> decide

/-- With such an error the step is in `[0, 1]`: every term of it is a number, and the accumulator is finite (R161, R167). -/
theorem inUnitClosed_processError {l : PllState} {e : F32} (p : Params) (he : e.isNaN = false)
    (hacc : inWindup l.acc = true) : inUnitClosed (processError p e l).step = true := by
  have hacc' := inWindup_processError p he hacc
  have hterm := (F32.mul_pos_sign (a := kp) (by decide) (by decide) (by decide) he).1
  have hprop := F32.sub_not_nan (a := one) (by decide) hterm (.inl (by decide))
  have hdiff := F32.sub_not_nan hprop (inWindup_iff.1 hacc').1 (.inr (isFinite_of_inWindup hacc'))
  obtain ⟨ffreq, sfreq, mfreq⟩ := nominalFreq_pos p.duration
  have hstep := (F32.mul_pos_sign ffreq sfreq mfreq hdiff).1
  have hclamp := F32.clamp_not_nan hstep (show F32.zero.isNaN = false by decide) (show one.isNaN = false by decide)
  exact (inUnitClosed_clamp _).resolve_left (Bool.eq_false_iff.1 hclamp)

/-- Settles O37: the writes are the definition's, and the ranges are those of the two clamps. -/
theorem accumulatorAndStepStayInRange : Obligations.AccumulatorAndStepStayInRange :=
  fun p _ _ => ⟨rfl, rfl, rfl, rfl, rfl, fun he hacc =>
    ⟨inWindup_processError p he hacc, inUnitClosed_processError p he hacc⟩⟩

end Sys2Proof.Machine
end

section
/-! The delay of a trigger is in `[0, 1]` (R163, R164): rounding is monotone, so where the exact distance from the threshold
is at most the exact distance travelled, the rounded distances are too; and where the two are wrapped differently, the
rounding errors are smaller than the gap between the largest phase and 1. -/

namespace Sys2Proof

/-! ### Rounding is monotone -/

/-- The key of the rounding of `x` units. -/
def roundedKey (x : Int) : Int := if x < 0 then -(roundMag x.natAbs 1 : Int) else roundMag x.natAbs 1

theorem sumOr_key_eq_roundedKey {nan a b : F32} (ha : a.isFinite = true) (hb : b.isFinite = true) :
    (sumOr nan a b).key = roundedKey (a.value + b.value) := (sumOr_key ha hb).2

theorem roundedKey_mono {x y : Int} (h : x ≤ y) : roundedKey x ≤ roundedKey y := by
  simp only [roundedKey]
  split <;> split
  · have := roundMag_mono (d := 1) (show y.natAbs ≤ x.natAbs by omega)
    omega
  · omega
  · omega
  · have := roundMag_mono (d := 1) (show x.natAbs ≤ y.natAbs by omega)
    omega

/-- A positive number of units is not rounded to zero: it is at least the smallest magnitude. -/
theorem roundedKey_pos {x : Int} (h : 0 < x) : 0 < roundedKey x := by
  have hone : roundedKey 1 = 1 := by decide
  have := roundedKey_mono (show 1 ≤ x from h)
  omega

theorem F32.sub_key {a b : F32} (ha : a.isFinite = true) (hb : b.isFinite = true) :
    (a.sub b).key = roundedKey (a.value - b.value) := by
  rw [F32.sub, sumOr_key_eq_roundedKey ha (F32.isFinite_neg hb), F32.value_neg, sub_eq_add_neg]

/-- A difference is monotone in its exact value. -/
theorem F32.sub_value_mono {a b a' b' : F32} (ha : a.isFinite = true) (hb : b.isFinite = true)
    (ha' : a'.isFinite = true) (hb' : b'.isFinite = true) (h : a.value - b.value ≤ a'.value - b'.value) :
    (a.sub b).value ≤ (a'.sub b').value := by
  rw [F32.value_le_iff_key_le, F32.sub_key ha hb, F32.sub_key ha' hb']
  exact roundedKey_mono h

/-- `Wrap` of a finite value is its exact fractional part, rounded once (R22): the floor is exact. -/
theorem F32.wrap_key {a : F32} (ha : a.isFinite = true) :
    a.wrap.isNaN = false ∧ a.wrap.key = roundedKey (a.value % 2 ^ 149) := by
  obtain ⟨hfin, hfloor⟩ := F32.floor_finite ha
  have hfrac : a.value - a.floor.value = a.value % 2 ^ 149 := by rw [hfloor, F32.floorInt_eq]; omega
  refine ⟨?_, by rw [F32.wrap, F32.sub_key ha hfin, hfrac]⟩
  rw [F32.wrap, F32.sub]
  exact (sumOr_key ha (F32.isFinite_neg hfin)).1

/-- `Wrap` is in `[0, 1]`; a tiny negative value is rounded up to 1. -/
theorem F32.wrap_range {a : F32} (ha : a.isFinite = true) : Machine.inUnitClosed a.wrap = true := by
  obtain ⟨hnan, hkey⟩ := F32.wrap_key ha
  have hzero : roundedKey 0 = 0 := by decide
  have hone : roundedKey (2 ^ 149) = one.key := by decide
  have hlo := roundedKey_mono (Int.emod_nonneg a.value (show (2 ^ 149 : Int) ≠ 0 by decide))
  have hhi := roundedKey_mono (Int.emod_lt_of_pos a.value (show (0 : Int) < 2 ^ 149 by decide)).le
  rw [← hkey] at hlo hhi
  exact Machine.inUnitClosed_iff.2 ⟨hnan, hzero ▸ hlo, hone ▸ hhi⟩

/-! ### A quotient of at most one -/

/-- The quotient of a value from `[0, w]` by a positive finite `w` is in `[0, 1]`: it is rounded from at most 1. -/
theorem F32.inUnitClosed_div {a w : F32} (ha : a.isFinite = true) (hw : w.isFinite = true) (h0 : 0 ≤ a.key)
    (hle : a.key ≤ w.key) (hpos : 0 < w.key) : Machine.inUnitClosed (a.div w) = true := by
  have hws : w.sign = false := by
    by_contra hs
    have := F32.key_nonpos_of_sign (eq_true_of_ne_false hs)
    omega
  rw [F32.key_of_pos hws] at hle hpos
  have hdiv : a.div w = F32.rounded (a.sign != w.sign) (unitsOf a.mag * 2 ^ 149) (unitsOf w.mag) :=
    F32.div_eq_rounded ha hw (by omega)
  have hmag : (a.div w).mag = roundMag (unitsOf a.mag * 2 ^ 149) (unitsOf w.mag) := by rw [hdiv, F32.mag_rounded]
  have hsign : (a.div w).sign = a.sign := by rw [hdiv, F32.sign_rounded, hws, Bool.bne_false]
  have hunits : 0 < unitsOf w.mag := Nat.pos_of_ne_zero (unitsOf_eq_zero_iff.not.2 (by omega))
  have hone : one.key = one.mag ∧ one.mag ≤ infMag ∧ unitsOf one.mag = 2 ^ 149 := by decide
  rw [Machine.inUnitClosed_iff, F32.isNaN_false_iff, hmag]
  refine ⟨roundMag_le .., ?_⟩
  cases hs : a.sign with
  | true =>
    rw [F32.key_of_neg hs] at h0
    have ha0 : a.mag = 0 := by omega
    have hq : roundMag (unitsOf 0 * unitsOf w.mag) (unitsOf w.mag) = 0 := roundMag_unitsOf _ hunits (Nat.zero_le _)
    rw [unitsOf_zero, Nat.zero_mul] at hq
    rw [F32.key_of_neg (hsign.trans hs), hmag, ha0, unitsOf_zero, Nat.zero_mul, hq]
    decide
  | false =>
    rw [F32.key_of_pos hs] at hle
    rw [F32.key_of_pos (hsign.trans hs), hmag, hone.1]
    have hle1 : roundMag (unitsOf a.mag * 2 ^ 149) (unitsOf w.mag) ≤ one.mag :=
      calc roundMag (unitsOf a.mag * 2 ^ 149) (unitsOf w.mag)
          ≤ roundMag (unitsOf one.mag * unitsOf w.mag) (unitsOf w.mag) := by
            rw [hone.2.2, Nat.mul_comm]
            exact roundMag_mono (Nat.mul_le_mul_left _ (unitsOf_le_iff.2 (by exact_mod_cast hle)))
        _ = one.mag := roundMag_unitsOf _ hunits hone.2.1
    omega

end Sys2Proof

namespace Sys2Proof.Machine

/-! ### Distances between phases -/

/-- A phase in `[0, 1)`, by value. -/
theorem value_of_inUnit {a : F32} (h : inUnit a = true) :
    a.isFinite = true ∧ 0 ≤ a.value ∧ a.value ≤ 2 ^ 149 - 2 ^ 125 := by
  obtain ⟨-, h0, h1⟩ := inUnit_iff.1 h
  refine ⟨F32.isFinite_of_key_le (b := belowOne) (by decide) h0 h1, F32.value_nonneg_iff.2 h0, ?_⟩
  rw [← value_belowOne, F32.value_le_iff_key_le]
  exact h1

/-- The rounded difference of two phases is finite, and off by at most a part in 2^24. -/
theorem sub_error_of_inUnit {x y : F32} (hx : inUnit x = true) (hy : inUnit y = true) :
    (x.sub y).isFinite = true ∧
      2 ^ 24 * |(x.sub y).value - (x.value - y.value)| ≤ |x.value - y.value| := by
  obtain ⟨fx, hx0, hx1⟩ := value_of_inUnit hx
  obtain ⟨fy, hy0, hy1⟩ := value_of_inUnit hy
  have hlimit : (2 ^ 149 : Int) ≤ overflowLimit := by decide
  have hfin : (x.sub y).isFinite = true := by
    rw [(F32.sub_correctlyRounds fx fy).finite_iff, Nat.cast_one, mul_one, abs_lt]
    omega
  refine ⟨hfin, ?_⟩
  rw [F32.sub] at hfin ⊢
  rw [show x.value - y.value = x.value + y.neg.value by rw [F32.value_neg, sub_eq_add_neg]]
  exact sumOr_error fx (F32.isFinite_neg fy) hfin

/-- Its exact fractional part is the difference itself, or one more for a negative one; and the difference is longer than
the exact one by at most a part in 2^24. -/
theorem sub_fraction_cases {x y : F32} (hx : inUnit x = true) (hy : inUnit y = true) :
    let d := (x.sub y).value
    (y.value ≤ x.value ∧ 0 ≤ d ∧ (y.value < x.value → 0 < d) ∧ 2 ^ 24 * d ≤ (2 ^ 24 + 1) * (x.value - y.value) ∧
        d % 2 ^ 149 = d) ∨
      (x.value < y.value ∧ d < 0 ∧ (2 ^ 24 + 1) * (x.value - y.value) ≤ 2 ^ 24 * d ∧
        d % 2 ^ 149 = d + 2 ^ 149) := by
  obtain ⟨-, hx0, hx1⟩ := value_of_inUnit hx
  obtain ⟨-, hy0, hy1⟩ := value_of_inUnit hy
  have herr := (sub_error_of_inUnit hx hy).2
  simp only [Int.abs_eq_natAbs] at herr
  omega

/-- When the phase `x` lies less far beyond the threshold `t` than the phase `y` before it, going round, then it has
travelled at least as far as it lies beyond the threshold, and not nothing (R163, R164). -/
theorem fraction_le_of_lt {x y t : F32} (hx : inUnit x = true) (hy : inUnit y = true) (ht : inUnit t = true)
    (h : (x.sub t).value % 2 ^ 149 < (y.sub t).value % 2 ^ 149) :
    (x.sub t).value % 2 ^ 149 ≤ (x.sub y).value % 2 ^ 149 ∧ 0 < (x.sub y).value % 2 ^ 149 := by
  obtain ⟨fx, hx0, hx1⟩ := value_of_inUnit hx
  obtain ⟨fy, hy0, hy1⟩ := value_of_inUnit hy
  obtain ⟨ft, ht0, -⟩ := value_of_inUnit ht
  have hmono (hle : y.value ≤ x.value) : (y.sub t).value ≤ (x.sub t).value :=
    F32.sub_value_mono fy ft fx ft (by omega)
  have hanti (hle : y.value ≤ t.value) : (x.sub t).value ≤ (x.sub y).value :=
    F32.sub_value_mono fx ft fx fy (by omega)
  have hxy := sub_fraction_cases hx hy
  rcases sub_fraction_cases hx ht with ⟨hcx, hx', -, herrx, ex⟩ | ⟨hcx, hx', herrx, ex⟩ <;>
    rcases sub_fraction_cases hy ht with ⟨hcy, hy', -, herry, ey⟩ | ⟨hcy, hy', herry, ey⟩ <;>
    rw [ex, ey] at h <;> rw [ex]
  · -- Both beyond the threshold: it was crossed after going round, so `x` is before `y`.
    rcases hxy with ⟨hc, -⟩ | ⟨-, -, herr, er⟩
    · exact absurd (hmono hc) (by omega)
    · rw [er]; omega
  · -- The threshold lies between them, and was crossed without going round.
    rcases hxy with ⟨hc, -, hpos, -, er⟩ | ⟨hc, -⟩
    · rw [er]; exact ⟨hanti hcy.le, hpos (by omega)⟩
    · omega
  · -- Going round, `x` lies farther beyond the threshold than `y`, also after the rounding.
    omega
  · -- Both before the threshold: it was crossed before going round, so `x` is before `y`.
    rcases hxy with ⟨hc, -⟩ | ⟨-, -, herr, er⟩
    · exact absurd (hmono hc) (by omega)
    · rw [er]; have := hanti hcy.le; omega

/-- The same for the rounded distances of R163: where the wrapped distance from the threshold has fallen, it is a part of
the wrapped distance travelled, which is not zero. -/
theorem wrap_sub_le_of_lt {x y t : F32} (hx : inUnit x = true) (hy : inUnit y = true) (ht : inUnit t = true)
    (h : (x.sub t).wrap.lt (y.sub t).wrap = true) :
    (x.sub t).wrap.key ≤ (x.sub y).wrap.key ∧ 0 < (x.sub y).wrap.key := by
  obtain ⟨-, hkt⟩ := F32.wrap_key (sub_error_of_inUnit hx ht).1
  obtain ⟨-, hkt'⟩ := F32.wrap_key (sub_error_of_inUnit hy ht).1
  obtain ⟨-, hky⟩ := F32.wrap_key (sub_error_of_inUnit hx hy).1
  have hlt : (x.sub t).value % 2 ^ 149 < (y.sub t).value % 2 ^ 149 := by
    by_contra! hge
    obtain ⟨-, -, hkey⟩ := F32.lt_iff.1 h
    have := roundedKey_mono hge
    omega
  obtain ⟨hle, hpos⟩ := fraction_le_of_lt hx hy ht hlt
  rw [hkt, hky]
  exact ⟨roundedKey_mono hle, roundedKey_pos hpos⟩

/-! ### The trigger -/

/-- The delay of a trigger at a threshold in `[0, 1)`, for phases in `[0, 1)`, is in `[0, 1]` (R164). -/
theorem inUnitClosed_of_phaseTrigger {t d : F32} {l : PllState} (ht : inUnit t = true) (hphase : inUnit l.phase = true)
    (hprev : inUnit l.prevPhase = true) (h : phaseTrigger t l = some d) : inUnitClosed d = true := by
  obtain ⟨⟨hlt, -⟩, rfl⟩ := phaseTrigger_cases h
  have hone : one.isFinite = true := by decide
  obtain ⟨-, ha0, ha1⟩ := inUnitClosed_iff.1 (F32.wrap_range (sub_error_of_inUnit hphase ht).1)
  obtain ⟨-, hw0, hw1⟩ := inUnitClosed_iff.1 (F32.wrap_range (sub_error_of_inUnit hphase hprev).1)
  obtain ⟨hle, hpos⟩ := wrap_sub_le_of_lt hphase hprev ht hlt
  exact F32.inUnitClosed_div (F32.isFinite_of_key_le hone ha0 ha1) (F32.isFinite_of_key_le hone hw0 hw1) ha0 hle hpos

/-- When a trigger fires, its delay is the quotient of R163. -/
theorem phaseTrigger_of_lt_of_ne {t : F32} {l : PllState}
    (h : (l.phase.sub t).wrap.lt (l.prevPhase.sub t).wrap = true ∧ l.phase.ne l.prevPhase = true) :
    phaseTrigger t l = some ((l.phase.sub t).wrap.div (l.phase.sub l.prevPhase).wrap) :=
  if_pos (Bool.and_eq_true_iff.2 h)

/-- Settles O38: both thresholds are in `[0, 1)`. -/
theorem triggerDelayInUnitInterval : Obligations.TriggerDelayInUnitInterval := by
  intro l t a b
  refine ⟨phaseTrigger_of_lt_of_ne, phaseTrigger_eq_none_iff.2, fun ht hphase hprev => ⟨fun d hd => ?_, fun heq => ?_⟩⟩
  · have htu : inUnit t = true := by
      rcases ht with rfl | rfl
      · exact inUnit_iff.2 (by decide)
      · exact inUnit_iff.2 (by decide)
    exact inUnitClosed_of_phaseTrigger htu hphase hprev hd
  · rw [phaseTrigger_eq_none_iff, F32.ne, heq]
    exact fun ⟨_, hne⟩ => Bool.false_ne_true hne

end Sys2Proof.Machine
end

section
/-! The carrier-rejection filter (R190-R194): a section is its difference equation in each lane (R191), the filter is the
cascade of two (R192), and so the lanes are independent (R193). -/

namespace Sys2Proof.Machine

/-! ### One section -/

/-- A lane of a window, after a write, is the window of that lane after the write of that lane. -/
theorem windowWrite_map {α β : Type} {n : Nat} (f : α → β) (w : Vector α (n + 1)) (x : α) :
    (windowWrite w x).map f = windowWrite (w.map f) (f x) := by
  ext k hk
  cases k with
  | zero => simp
  | succ k =>
    have hk' : k < n := by omega
    rw [Vector.getElem_map, windowWrite_succ w x k hk', windowWrite_succ _ _ k hk', Vector.getElem_map]

/-- The lanes of a vector. -/
def IsLane (π : V → F32) : Prop := π = V.i ∨ π = V.q

/-- In each lane a section is the difference equation over the input, the two before it and the two outputs before it
(R191). -/
theorem biquad_lane {π : V → F32} (hπ : IsLane π) (k : BiquadCoef) (u : V) (b : BiquadState) :
    π (biquad k u b).1 = biquadLane k (π u) (π b.x[0]) (π b.x[1]) (π b.y[0]) (π b.y[1]) := by
  have hx0 : (windowWrite b.x u)[0] = u := windowWrite_zero b.x u
  have hx1 : (windowWrite b.x u)[1] = b.x[0] := windowWrite_succ b.x u 0 (by decide)
  have hx2 : (windowWrite b.x u)[2] = b.x[1] := windowWrite_succ b.x u 1 (by decide)
  rcases hπ with rfl | rfl <;> simp only [biquad, hx0, hx1, hx2]

/-- A section shifts both histories by one, entry by entry (R191). -/
theorem biquad_shift (k : BiquadCoef) (u : V) (b : BiquadState) :
    (biquad k u b).2.x[0] = u ∧ (biquad k u b).2.x[1] = b.x[0] ∧ (biquad k u b).2.x[2] = b.x[1] ∧
      (biquad k u b).2.y[0] = (biquad k u b).1 ∧ (biquad k u b).2.y[1] = b.y[0] := by
  obtain ⟨hx, hy⟩ := biquad_windows k u b
  rw [hx, hy]
  exact ⟨windowWrite_zero _ _, windowWrite_succ _ _ 0 (by decide), windowWrite_succ _ _ 1 (by decide),
    windowWrite_zero _ _, windowWrite_succ _ _ 0 (by decide)⟩

/-! ### The cascade -/

/-- The filter is section 0 on the input, then section 1 on the output of section 0 (R192). -/
theorem crf_cascade (p : Params) (m : V) (c : CrfState) :
    (crf p m c).1 = (biquad (p.crfCoef p.duration 1) (biquad (p.crfCoef p.duration 0) m c.sec0).1 c.sec1).1 ∧
      (crf p m c).2.sec0 = (biquad (p.crfCoef p.duration 0) m c.sec0).2 ∧
      (crf p m c).2.sec1 = (biquad (p.crfCoef p.duration 1) (biquad (p.crfCoef p.duration 0) m c.sec0).1 c.sec1).2 :=
  ⟨rfl, rfl, rfl⟩

/-- Settles O46: the equation is that of each lane, and the newest entries are the input and the output of a section. -/
theorem biquadSectionStep : Obligations.BiquadSectionStep := by
  refine ⟨fun k u b => ⟨biquad_lane (.inl rfl) k u b, biquad_lane (.inr rfl) k u b, biquad_shift k u b⟩, fun p m c => ?_⟩
  obtain ⟨hv, hsec0, hsec1⟩ := crf_cascade p m c
  obtain ⟨hx0, -, -, hy0, -⟩ := biquad_shift (p.crfCoef p.duration 0) m c.sec0
  obtain ⟨hx1, -, -, hy1, -⟩ :=
    biquad_shift (p.crfCoef p.duration 1) (biquad (p.crfCoef p.duration 0) m c.sec0).1 c.sec1
  refine ⟨hv, hsec0, hsec1, ?_, ?_, ?_, ?_⟩
  · rw [hsec0, hx0]
  · rw [hsec0, hy0]
  · rw [hsec1, hx1]
  · rw [hsec1, hy1, hv]

/-! ### The lanes -/

/-- Two section states agree in a lane. -/
def BiquadState.SameLane (π : V → F32) (b b' : BiquadState) : Prop := b.x.map π = b'.x.map π ∧ b.y.map π = b'.y.map π

/-- Two filter states agree in a lane: both sections do. -/
def CrfState.SameLane (π : V → F32) (c c' : CrfState) : Prop :=
  c.sec0.x.map π = c'.sec0.x.map π ∧ c.sec0.y.map π = c'.sec0.y.map π ∧
    c.sec1.x.map π = c'.sec1.x.map π ∧ c.sec1.y.map π = c'.sec1.y.map π

theorem CrfState.sameLane_iff {π : V → F32} {c c' : CrfState} :
    c.SameLane π c' ↔ c.sec0.SameLane π c'.sec0 ∧ c.sec1.SameLane π c'.sec1 := and_assoc.symm

/-- Windows that agree in a lane agree in it at each index. -/
theorem getElem_lane {π : V → F32} {n : Nat} {w w' : Vector V n} (h : w.map π = w'.map π) (j : Nat) (hj : j < n) :
    π w[j] = π w'[j] := by
  rw [← Vector.getElem_map π, ← Vector.getElem_map π]
  simp only [h]

section Lane
variable {π : V → F32} {m m' : V} (hπ : IsLane π) (hm : π m = π m')
include hπ hm

/-- What a section computes in a lane, output and state, depends on that lane alone. -/
theorem biquad_sameLane {b b' : BiquadState} (k : BiquadCoef) (hb : b.SameLane π b') :
    π (biquad k m b).1 = π (biquad k m' b').1 ∧ (biquad k m b).2.SameLane π (biquad k m' b').2 := by
  obtain ⟨hx, hy⟩ := hb
  have hout : π (biquad k m b).1 = π (biquad k m' b').1 := by
    rw [biquad_lane hπ, biquad_lane hπ, hm, getElem_lane hx 0, getElem_lane hx 1, getElem_lane hy 0,
      getElem_lane hy 1]
  obtain ⟨hwx, hwy⟩ := biquad_windows k m b
  obtain ⟨hwx', hwy'⟩ := biquad_windows k m' b'
  refine ⟨hout, ?_, ?_⟩
  · rw [hwx, hwx', windowWrite_map, windowWrite_map, hx, hm]
  · rw [hwy, hwy', windowWrite_map, windowWrite_map, hy, hout]

/-- What the filter computes in a lane, output and state, depends on that lane alone: section 0 hands section 1 an input
that does. -/
theorem crf_sameLane {c c' : CrfState} (p : Params) (hc : c.SameLane π c') :
    π (crf p m c).1 = π (crf p m' c').1 ∧ (crf p m c).2.SameLane π (crf p m' c').2 := by
  obtain ⟨h0, h1⟩ := CrfState.sameLane_iff.1 hc
  obtain ⟨hout0, hsec0⟩ := biquad_sameLane hπ hm (p.crfCoef p.duration 0) h0
  obtain ⟨hout1, hsec1⟩ := biquad_sameLane hπ hout0 (p.crfCoef p.duration 1) h1
  exact ⟨hout1, CrfState.sameLane_iff.2 ⟨hsec0, hsec1⟩⟩

end Lane

/-- Settles O45: one argument for both lanes. -/
theorem filterLanesAreIndependent : Obligations.FilterLanesAreIndependent := by
  intro p m m' c c'
  exact ⟨fun hm hc => crf_sameLane (.inl rfl) hm p hc, fun hm hc => crf_sameLane (.inr rfl) hm p hc⟩

end Sys2Proof.Machine
end

section
/-! One invocation of the correlator (R210-R219): its windows move by one entry, the peak test and the vote read the new
windows and the maximum before the valley reset, and the result reads the votes. -/

namespace Sys2Proof.Machine

/-! ### The windows -/

/-- An invocation shifts the three windows it writes by one, entry by entry (R211, R213). -/
theorem correlate_shift (p : Params) (ph : F32) (u : V) (c : CorState) :
    let t := (correlate p ph u c).2
    (∀ k : Fin 7, t.v[k.val + 1] = c.v[k.val]) ∧ t.phase[1] = c.phase[0] ∧ t.phase[2] = c.phase[1] ∧
      t.hist[1] = c.hist[0] ∧ t.hist[2] = c.hist[1] := by
  obtain ⟨hv, hphase, hhist, -⟩ := correlate_windows p ph u c
  dsimp only
  rw [hv, hphase, hhist]
  exact ⟨fun k => windowWrite_succ _ _ k.val k.isLt, windowWrite_succ _ _ 0 (by decide),
    windowWrite_succ _ _ 1 (by decide), windowWrite_succ _ _ 0 (by decide), windowWrite_succ _ _ 1 (by decide)⟩

/-- The newest entries are the value, the phase and the correlation of the new window (R211-R213). -/
theorem correlate_newest (p : Params) (ph : F32) (u : V) (c : CorState) :
    let t := (correlate p ph u c).2
    t.v[0] = u ∧ t.phase[0] = ph ∧ t.hist[0] = correlationValue t.v := by
  obtain ⟨hv, hphase, hhist, -⟩ := correlate_windows p ph u c
  dsimp only
  rw [hv, hphase, hhist]
  exact ⟨windowWrite_zero _ _, windowWrite_zero _ _, windowWrite_zero _ _⟩

/-! ### The peak test, the tilt and the vote -/

/-- The three conditions of a peak (R214). -/
theorem peakTest_iff {c : CorState} :
    peakTest c = true ↔
      c.hist[1].eq c.max = true ∧ c.hist[0].lt c.max = true ∧ c.max.ge peakThreshold = true := by
  simp only [peakTest, Bool.and_eq_true, and_assoc]

/-- What the peak test and the vote read is what the invocation leaves, but for the maximum (R217, R219). -/
theorem correlateFront_windows (p : Params) (ph : F32) (u : V) (c : CorState) :
    (correlateFront ph u c).phase = (correlate p ph u c).2.phase ∧
      (correlateFront ph u c).hist = (correlate p ph u c).2.hist := by
  obtain ⟨-, hphase, hhist, -⟩ := correlate_windows p ph u c
  exact ⟨hphase.symm, hhist.symm⟩

/-- The maximum that the peak test reads (R213). -/
theorem correlateFront_max (ph : F32) (u : V) (c : CorState) :
    (correlateFront ph u c).max = if (correlationOf u c).gt c.max then correlationOf u c else c.max := rfl

/-- The tilt reads the history only (R215). -/
theorem corTilt_congr {c c' : CorState} (h : c.hist = c'.hist) : corTilt c = corTilt c' := by
  simp only [corTilt, h]

/-- The count of a peak, as a number: it saturates at four, which its three bits hold (R216). -/
theorem peakCount_toNat (n : Nat) : (BitVec.ofNat 3 (min (n + 1) 4)).toNat = min (n + 1) 4 := by
  rw [BitVec.toNat_ofNat]
  omega

/-- A peak adds one vote, which becomes the newest, and one to the saturating count (R214-R216). -/
theorem correlate_peak (p : Params) (ph : F32) (u : V) (c : CorState)
    (h : peakTest (correlateFront ph u c) = true) :
    let t := (correlate p ph u c).2
    let b := if (corTilt t).lt F32.zero then t.phase[2] else t.phase[0]
    t.dec[0] = F32.lerp (p.cosCyc t.phase[1].wrap) (p.cosCyc b.wrap) (corTilt t).abs ∧
      t.dec[1] = c.dec[0] ∧ t.dec[2] = c.dec[1] ∧ t.dec[3] = c.dec[2] ∧
      t.peaks.toNat = min (c.peaks.toNat + 1) 4 := by
  obtain ⟨hphase, hhist⟩ := correlateFront_windows p ph u c
  rcases correlate_votes p ph u c with ⟨hno, -⟩ | ⟨-, hdec, hcount⟩
  · exact absurd h (by simp [hno])
  · rw [corTilt_congr hhist] at hdec
    simp only [hphase] at hdec
    dsimp only
    rw [hdec, hcount]
    exact ⟨windowWrite_zero _ _, windowWrite_succ _ _ 0 (by decide), windowWrite_succ _ _ 1 (by decide),
      windowWrite_succ _ _ 2 (by decide), peakCount_toNat _⟩

/-- Without a peak the votes and the count stay (R214). -/
theorem correlate_noPeak (p : Params) (ph : F32) (u : V) (c : CorState)
    (h : ¬peakTest (correlateFront ph u c) = true) :
    (correlate p ph u c).2.dec = c.dec ∧ (correlate p ph u c).2.peaks = c.peaks := by
  rcases correlate_votes p ph u c with ⟨-, hdec, hcount⟩ | ⟨hyes, -, -⟩
  · exact ⟨hdec, hcount⟩
  · exact absurd hyes h

/-! ### The count and the result -/

/-- The count never falls and rises by at most one (R216). -/
theorem correlate_peaks_step (p : Params) (ph : F32) (u : V) {c : CorState} (h : c.peaks.toNat ≤ 4) :
    c.peaks.toNat ≤ (correlate p ph u c).2.peaks.toNat ∧
      (correlate p ph u c).2.peaks.toNat ≤ c.peaks.toNat + 1 := by
  rcases correlate_votes p ph u c with ⟨-, -, hcount⟩ | ⟨-, -, hcount⟩
  · rw [hcount]; omega
  · rw [hcount, peakCount_toNat]; omega

/-- The result reads the sum of the four votes (R218). -/
theorem corResult_eq (c : CorState) :
    corResult c =
      if 4 ≤ c.peaks.toNat then
        some (if (((c.dec[0].add c.dec[1]).add c.dec[2]).add c.dec[3]).gt F32.zero then F32.zero else half)
      else none := by
  simp only [corResult, windowSum_four]

/-- Settles O44: the correlation of the statement is that of the new window, so its peak is the peak test before the valley
reset, and the vote and the result read what the invocation leaves. -/
theorem correlatorAnswersAfterFourPeaks : Obligations.CorrelatorAnswersAfterFourPeaks := by
  intro p ph u c hfour r t term x top peak left right tilt b
  obtain ⟨hv, -, -, hmax⟩ := correlate_windows p ph u c
  obtain ⟨hv0, hphase0, hhist0⟩ := correlate_newest p ph u c
  have hx : correlationValue t.v = x := correlationValue_eq t.v
  have hxOf : correlationOf u c = x := (congrArg correlationValue hv).symm.trans hx
  have htop : (correlateFront ph u c).max = top := by rw [correlateFront_max, hxOf]
  have hpeak : peakTest (correlateFront ph u c) = true ↔ peak := by
    rw [peakTest_iff, htop, (correlateFront_windows p ph u c).2]
    exact Iff.rfl
  obtain ⟨hle, hsucc⟩ := correlate_peaks_step p ph u hfour
  refine ⟨⟨hv0, hphase0, hhist0.trans hx⟩, correlate_shift p ph u c, ?_, fun h => correlate_peak p ph u c (hpeak.2 h),
    fun h => correlate_noPeak p ph u c (mt hpeak.1 h), corResult_eq t, hle, hsucc, correlate_peaks_le p ph u hfour⟩
  rw [hmax, hxOf]

end Sys2Proof.Machine
end

section
/-! The quantizer and the symbol map (R240-R247): the decision index by the exact value of its lane, and the four bits of a
symbol, two for each lane. -/

namespace Sys2Proof.Machine

/-! ### The decision index -/

/-- The band edges of R243: all finite, at `-0.5`, `0` and `0.5`. -/
theorem bandEdges :
    (half.isFinite = true ∧ half.value = 2 ^ 148) ∧ (F32.zero.isFinite = true ∧ F32.zero.value = 0) ∧
      (halfNeg.isFinite = true ∧ halfNeg.value = -2 ^ 148) := by decide

/-- The index of a finite value, by its exact value (R243). -/
theorem decisionIndex_of_finite {s : F32} (h : s.isFinite = true) :
    decisionIndex s =
      if 2 ^ 148 ≤ s.value then 3 else if 0 ≤ s.value then 2 else if -2 ^ 148 ≤ s.value then 1 else 0 := by
  obtain ⟨⟨fhalf, vhalf⟩, ⟨fzero, vzero⟩, fneg, vneg⟩ := bandEdges
  have hge {b : F32} (hb : b.isFinite = true) : s.ge b = decide (b.value ≤ s.value) := (F32.compare_finite hb h).2.1
  simp only [decisionIndex, hge fhalf, hge fzero, hge fneg, vhalf, vzero, vneg, decide_eq_true_eq]

/-- A NaN is in no band (R243). -/
theorem decisionIndex_of_nan {s : F32} (h : s.isNaN = true) : decisionIndex s = 0 := by
  have hge (b : F32) : s.ge b = false := (F32.compare_of_nan (.inr h)).2.1
  simp only [decisionIndex, hge, Bool.false_eq_true, if_false]

/-- An infinity is above every band edge or below every one (R243). -/
theorem decisionIndex_of_inf {s : F32} (h : s.isInf = true) : decisionIndex s = if s.sign then 0 else 3 := by
  obtain ⟨⟨fhalf, -⟩, ⟨fzero, -⟩, fneg, -⟩ := bandEdges
  have hge {b : F32} (hb : b.isFinite = true) : s.ge b = !s.sign := (F32.compare_inf_finite h hb).2.2.2.2.1
  rw [decisionIndex, hge fhalf, hge fzero, hge fneg]
  cases s.sign <;> rfl

/-- Settles O40: on a finite value each band of R243 is one value of the formula. -/
theorem decisionIndexIsExact : Obligations.DecisionIndexIsExact := by
  refine ⟨fun s hs => ?_, fun _ => decisionIndex_of_nan, fun _ => decisionIndex_of_inf⟩
  rw [decisionIndex_of_finite hs]
  split_ifs with hge_half hge_zero hge_halfNeg
  · change (3 : Int) = _; omega
  · change (2 : Int) = _; omega
  · change (1 : Int) = _; omega
  · change (0 : Int) = _; omega

/-! ### The levels -/

/-- Each level lies in its own band (R240, R243). -/
@[simp] theorem decisionIndex_levelOf (k : Fin 4) : decisionIndex (levelOf k) = k := by
  revert k; decide +kernel

/-- Settles O41: a quantized lane is a level, and a level has its own index. -/
theorem quantizeIsProjection : Obligations.QuantizeIsProjection := by
  intro s
  have hindex : decisionIndex (quantize s) = decisionIndex s := decisionIndex_levelOf _
  have hlevel {k : Fin 4} (hk : decisionIndex s = k) : quantize s = levelOf k := congrArg levelOf hk
  exact ⟨hlevel, hlevel, hlevel, hlevel, hindex, congrArg levelOf hindex⟩

/-! ### The symbol map -/

/-- The four bits of a symbol: the `i` lane is coded in bits 3 and 0, the `q` lane in bits 2 and 1, the high bit for an index
below 2 and the low bit for an outer level (R246). -/
theorem symbolMap_bits (i q : Fin 4) :
    (symbolMap i q).getLsbD 3 = decide (i.val < 2) ∧ (symbolMap i q).getLsbD 0 = decide (i = 0 ∨ i = 3) ∧
      (symbolMap i q).getLsbD 2 = decide (q.val < 2) ∧ (symbolMap i q).getLsbD 1 = decide (q = 0 ∨ q = 3) := by
  revert i q; decide

/-- The two bits of a lane give its index back (R247). -/
theorem laneIndexOf_bits (k : Fin 4) : laneIndexOf (decide (k.val < 2)) (decide (k = 0 ∨ k = 3)) = k := by
  revert k; decide

/-- The index of a lane has the two bits it was made from (R247). -/
theorem bits_laneIndexOf (hi lo : Bool) :
    decide ((laneIndexOf hi lo).val < 2) = hi ∧ decide (laneIndexOf hi lo = 0 ∨ laneIndexOf hi lo = 3) = lo := by
  revert hi lo; decide

/-- The inverse map takes an entry of the symbol map to the levels of its row and column (R247). -/
theorem symbolPoint_symbolMap (i q : Fin 4) : symbolPoint (symbolMap i q) = ⟨levelOf i, levelOf q⟩ := by
  obtain ⟨h3, h0, h2, h1⟩ := symbolMap_bits i q
  rw [symbolPoint, h3, h0, h2, h1, laneIndexOf_bits, laneIndexOf_bits]

/-- A symbol is the entry of the symbol map at the indices its bits code (R246, R247). -/
theorem symbolMap_laneIndexOf (a : BitVec 4) :
    symbolMap (laneIndexOf (a.getLsbD 3) (a.getLsbD 0)) (laneIndexOf (a.getLsbD 2) (a.getLsbD 1)) = a := by
  obtain ⟨h3, h0, h2, h1⟩ := symbolMap_bits (laneIndexOf (a.getLsbD 3) (a.getLsbD 0))
    (laneIndexOf (a.getLsbD 2) (a.getLsbD 1))
  obtain ⟨ihi, ilo⟩ := bits_laneIndexOf (a.getLsbD 3) (a.getLsbD 0)
  obtain ⟨qhi, qlo⟩ := bits_laneIndexOf (a.getLsbD 2) (a.getLsbD 1)
  refine BitVec.eq_of_getLsbD_eq fun k hk => ?_
  match k, hk with
  | 0, _ => exact h0.trans ilo
  | 1, _ => exact h1.trans qlo
  | 2, _ => exact h2.trans qhi
  | 3, _ => exact h3.trans ihi

/-- Settles O42: the symbol of a point is the map's entry at its two indices, and the bits code them both ways. -/
theorem symbolMapIsBijective : Obligations.SymbolMapIsBijective := by
  refine ⟨fun a => ?_, fun u => symbolPoint_symbolMap _ _, fun u => symbolMap_bits _ _⟩
  rw [decideSymbol, symbolPoint, decisionIndex_levelOf, decisionIndex_levelOf, symbolMap_laneIndexOf]

end Sys2Proof.Machine
end

section
/-! The fractional-delay sampler (R250): the clamp keeps the delay between 0 and `DMAX`, whose whole part is `N - 2`, so both
entries it reads are inside the window. -/

namespace Sys2Proof

/-- `DMAX` is finite and not negative, and the whole part of it is `N - 2` (R13). -/
theorem dmax_floorInt (n : SymbolDuration) :
    (dmax n).isFinite = true ∧ 0 ≤ (dmax n).key ∧ (dmax n).floorInt = n.toNat - 2 := by
  cases n <;> decide

theorem F32.floorInt_mono {a b : F32} (h : a.key ≤ b.key) : a.floorInt ≤ b.floorInt :=
  Int.ediv_le_ediv (by decide) (F32.value_le_iff_key_le.2 h)

end Sys2Proof

namespace Sys2Proof.Machine

/-- The clamped delay is finite, and its whole part is from 0 to `N - 2` (R250). -/
theorem clampedDelay_range {d : F32} (n : SymbolDuration) (hd : d.isNaN = false) :
    (d.clamp F32.zero (dmax n)).isFinite = true ∧ 0 ≤ (d.clamp F32.zero (dmax n)).floorInt ∧
      (d.clamp F32.zero (dmax n)).floorInt ≤ n.toNat - 2 := by
  obtain ⟨hfin, hkey, hfloor⟩ := dmax_floorInt n
  have hzero : F32.zero.isNaN = false ∧ F32.zero.key = 0 ∧ F32.zero.floorInt = 0 := by decide
  obtain ⟨nzero, kzero, floorZero⟩ := hzero
  rcases F32.clamp_range (x := d) nzero (F32.not_nan_inf_of_finite hfin).1 (kzero.trans_le hkey)
    with ⟨hnan, -⟩ | ⟨-, hlo, hhi⟩
  · simp [hd] at hnan
  · exact ⟨F32.isFinite_of_key_le hfin (kzero.symm.trans_le hlo) hhi,
      floorZero.symm.trans_le (F32.floorInt_mono hlo), (F32.floorInt_mono hhi).trans_eq hfloor⟩

/-- The index of a finite delay that is not negative is its whole part (R250). -/
theorem windowIndex_of_finite {d : F32} (hd : d.isFinite = true) (h0 : 0 ≤ d.floorInt) :
    windowIndex d = some d.floorInt.toNat := by
  simp [windowIndex, hd, h0]

/-- What the sampler answers when both entries are in the window (R250). -/
theorem sampleSymbol_eq_some {p : Params} {d : F32} {h : List V} {k : Nat} {late early : V}
    (hk : windowIndex (d.clamp F32.zero (dmax p.duration)) = some k) (hlate : h[k]? = some late)
    (hearly : h[k + 1]? = some early) :
    let dc := d.clamp F32.zero (dmax p.duration)
    let f := dc.sub dc.floor
    sampleSymbol p d h = some ⟨F32.lerp late.i early.i f, F32.lerp late.q early.q f⟩ := by
  simp only [sampleSymbol, historyRead, hk, hlate, hearly]

/-- Settles O39: the whole part of the clamped delay is at most `N - 2`, so it and the next index are below `N`. -/
theorem sampleSymbolStaysInWindow : Obligations.SampleSymbolStaysInWindow := by
  intro p d h hd hlen dc k f
  obtain ⟨hfin, h0, hle⟩ := clampedDelay_range p.duration hd
  have hk : k + 2 ≤ p.n := by
    have : (k : Int) = dc.floorInt := Int.toNat_of_nonneg h0
    have : dc.floorInt ≤ (p.n : Int) - 2 := hle
    omega
  have hlate : h[k]? = some h[k] := List.getElem?_eq_getElem (by omega)
  have hearly : h[k + 1]? = some h[k + 1] := List.getElem?_eq_getElem (by omega)
  exact ⟨h0, hk, _, _, hlate, hearly, sampleSymbol_eq_some (windowIndex_of_finite hfin h0) hlate hearly⟩

end Sys2Proof.Machine
end

section
/-! The response of `PROCESS` (R105, R320), and the samples before acquisition (R280-R282): the level gate's frame and the whole
next state of the machine. -/

namespace Sys2Proof.Machine

/-! ### The response -/

theorem processWord_of_not_emit {r : SeqRegs} (h : r.emit = false) :
    processWord r = r.outSymbol.setWidth 32 <<< 4 := by
  simp [processWord, bit32, h]

theorem processWord_of_emit {r : SeqRegs} (h : r.emit = true) :
    processWord r = r.outSymbol.setWidth 32 <<< 4 ||| 1 := by
  simp [processWord, bit32, h]

/-- `PROCESS` leaves the core of its sample, and writes nothing of the port but the response (R104, R320). -/
theorem exec_process_of_sample {din : DataWord} {s : State} {c : CoreState}
    (h : processSample Config.params (sampleOf din) s.core = some c) :
    exec (.process din) s =
      .next { core := c, port := { s.port with response := some ⟨.done, processWord c.seq⟩ } } :=
  execProcess_next_iff.2 ⟨c, h, rfl⟩

/-- A sample that emits nothing and holds `out_symbol` is answered with the old symbol and `emit = 0` (R275, R320). -/
theorem exec_process_of_quiet_sample {din : DataWord} {s : State} {c : CoreState}
    (h : processSample Config.params (sampleOf din) s.core = some c) (he : c.seq.emit = false)
    (ho : c.seq.outSymbol = s.core.seq.outSymbol) :
    exec (.process din) s =
      .next { core := c
              port := { s.port with response := some ⟨.done, s.core.seq.outSymbol.setWidth 32 <<< 4⟩ } } := by
  rw [exec_process_of_sample h, processWord_of_not_emit he, ho]

/-! ### Counters -/

/-- The test of `kSettlingTime` on an incremented count (R12, R272). -/
theorem settled_satIncr_iff {p : Params} {c : BitVec 32} :
    settled p (satIncr c).toNat = true ↔ p.sampleRate ≤ 4 * min (c.toNat + 1) (2 ^ 32 - 1) := by
  rw [settled, satIncr_toNat, decide_eq_true_iff]

/-- The test of `kCarrierSyncLength` on an incremented count (R12, R272). -/
theorem syncLongEnough_satIncr_iff {p : Params} {c : BitVec 32} :
    syncLongEnough p (satIncr c).toNat = true ↔ (p.symbolRate : Nat) ≤ 40 * min (c.toNat + 1) (2 ^ 32 - 1) := by
  rw [syncLongEnough, satIncr_toNat, decide_eq_true_iff]

/-! ### Before acquisition -/

section Sample
variable {p : Params} {c c' : CoreState}

/-- No state of the level gate writes the filter, the sample-and-hold, the correlator, the symbol or the decision phase
(R280-R282). -/
theorem levelGate_keeps (p : Params) (lvl : F32) (c : CoreState) :
    (levelGate p lvl c).crf = c.crf ∧ (levelGate p lvl c).hold = c.hold ∧ (levelGate p lvl c).cor = c.cor ∧
      (levelGate p lvl c).seq.outSymbol = c.seq.outSymbol ∧
      (levelGate p lvl c).seq.decisionPhase = c.seq.decisionPhase := by
  unfold levelGate
  split
  · rcases waitToSettle_cases p lvl c with ⟨-, -, e⟩ | ⟨-, e⟩ <;> simp [e]
  · rcases senseGain_cases p lvl c with ⟨-, e⟩ | ⟨-, -, e⟩ | ⟨-, -, e⟩ <;> simp [e]

theorem SeqState.preAcquisition_iff {q : SeqState} :
    q.preAcquisition = true ↔ q = .waitToSettle ∨ q = .senseGain := by
  cases q <;> simp [SeqState.preAcquisition]

/-- Before acquisition a sample is the level gate after the front end (R276, R280). -/
theorem processSample_of_preAcquisition (h : c.seq.state.preAcquisition = true) (x : F32) :
    processSample p x c = some (levelGate p (frontEnd p x c.agc).2.level (sampleFront p x c)) := by
  have hne : c.seq.state ≠ .error := by rintro he; rw [he] at h; cases h
  rw [processSample, if_neg hne, if_pos h, sampleFront_agc]

end Sample

/-- Before acquisition `PROCESS` answers the old symbol, with `emit = 0` (R280, R320). -/
theorem exec_process_of_levelGate {din : DataWord} {s : State} {c : CoreState}
    (h : s.core.seq.state.preAcquisition = true)
    (hc : levelGate Config.params (frontEnd Config.params (sampleOf din) s.core.agc).2.level
      (sampleFront Config.params (sampleOf din) s.core) = c) :
    exec (.process din) s =
      .next { core := c
              port := { s.port with response := some ⟨.done, s.core.seq.outSymbol.setWidth 32 <<< 4⟩ } } := by
  subst hc
  obtain ⟨-, -, hemit⟩ := levelGate_frame Config.params _ (sampleFront Config.params (sampleOf din) s.core)
  obtain ⟨-, -, -, hsym, -⟩ := levelGate_keeps Config.params _ (sampleFront Config.params (sampleOf din) s.core)
  exact exec_process_of_quiet_sample (processSample_of_preAcquisition h _) hemit hsym

/-- Settles O32, by what the level gate leaves alone. -/
theorem preAcquisitionFrame : Obligations.PreAcquisitionFrame := by
  intro din s hs
  refine ⟨_, exec_process_of_levelGate (SeqState.preAcquisition_iff.2 hs) rfl, ?_⟩
  obtain ⟨hpll, hdecide, hemit⟩ := levelGate_frame Config.params
    (frontEnd Config.params (sampleOf din) s.core.agc).2.level (sampleFront Config.params (sampleOf din) s.core)
  obtain ⟨hcrf, hhold, hcor, hsym, hdp⟩ := levelGate_keeps Config.params
    (frontEnd Config.params (sampleOf din) s.core.agc).2.level (sampleFront Config.params (sampleOf din) s.core)
  exact ⟨hpll, hcrf, hhold, hcor, hdecide, hemit, hsym, hdp⟩

/-- Settles O20: the level gate in `WAIT_TO_SETTLE`, by its two cases. -/
theorem waitToSettleSample : Obligations.WaitToSettleSample := by
  intro din s hs p a x lp y lvl n seq
  refine exec_process_of_levelGate (SeqState.preAcquisition_iff.2 (.inl hs)) ?_
  rw [levelGate_of_waitToSettle (c := sampleFront ..) hs]
  rcases waitToSettle_cases p lvl (sampleFront p x s.core) with ⟨hcount, hlevel, e⟩ | ⟨hnot, e⟩
  · rw [if_pos ⟨settled_satIncr_iff.1 hcount, hlevel⟩]
    exact e
  · rw [if_neg fun ⟨hcount, hlevel⟩ => hnot ⟨settled_satIncr_iff.2 hcount, hlevel⟩]
    exact e

/-- Settles O21: the level gate in `SENSE_GAIN`, by its three cases. -/
theorem senseGainSample : Obligations.SenseGainSample := by
  intro din s hs p a n seq
  refine exec_process_of_levelGate (SeqState.preAcquisition_iff.2 (.inr hs)) ?_
  rw [levelGate_of_senseGain (c := sampleFront ..) hs]
  rcases senseGain_cases p a.level (sampleFront p (sampleOf din) s.core) with
    ⟨hdrop, e⟩ | ⟨hlevel, hcount, e⟩ | ⟨hlevel, hcount, e⟩
  · exact e.trans (if_pos hdrop).symm
  · have hle := settled_satIncr_iff.1 hcount
    exact e.trans ((if_neg (ne_false_of_eq_true hlevel)).trans (if_pos hle)).symm
  · have hlt := mt settled_satIncr_iff.2 (ne_true_of_eq_false hcount)
    exact e.trans ((if_neg (ne_false_of_eq_true hlevel)).trans (if_neg hlt)).symm

end Sys2Proof.Machine
end

section
/-! The demodulating states (R285-R296): what the dispatch does with the flags, the symbol and the state, and the whole next
state of the machine in each of them. -/

namespace Sys2Proof.Machine

/-- The last step of a demodulated sample: the NCO step (R285, R296). -/
def CoreState.advanceNco (c : CoreState) : CoreState := c.withPll (ncoStep c.pll)

/-! ### The dispatch -/

section Sample
variable {p : Params} {v vq : V} {phi x : F32} {c c' c1 : CoreState}

theorem dispatch_of_carrierSync (h : c.seq.state = .carrierSync) :
    dispatch p v vq phi c = some (carrierSync p v c) := by simp only [dispatch, h]

theorem dispatch_of_carrierLock (h : c.seq.state = .carrierLock) :
    dispatch p v vq phi c = some (carrierLock p v vq phi c) := by simp only [dispatch, h]

theorem dispatch_of_align (h : c.seq.state = .align) : dispatch p v vq phi c = align p v vq phi c := by
  simp only [dispatch, h]

theorem dispatch_of_ok (h : c.seq.state = .ok) : dispatch p v vq phi c = some (data p v vq phi c) := by
  simp only [dispatch, h]

/-- What the dispatch does, when it answers: the action of one demodulating state, or nothing (R290). -/
theorem dispatch_cases (h : dispatch p v vq phi c = some c') :
    (c.seq.state = .carrierSync ∧ c' = carrierSync p v c) ∨
      (c.seq.state = .carrierLock ∧ c' = carrierLock p v vq phi c) ∨
      (c.seq.state = .align ∧ align p v vq phi c = some c') ∨
      (c.seq.state = .ok ∧ c' = data p v vq phi c) ∨ (c.seq.state.demodulating = false ∧ c' = c) := by
  cases hs : c.seq.state with
  | carrierSync => rw [dispatch_of_carrierSync hs] at h; cases h; exact .inl ⟨rfl, rfl⟩
  | carrierLock => rw [dispatch_of_carrierLock hs] at h; cases h; exact .inr (.inl ⟨rfl, rfl⟩)
  | align => rw [dispatch_of_align hs] at h; exact .inr (.inr (.inl ⟨rfl, h⟩))
  | ok => rw [dispatch_of_ok hs] at h; cases h; exact .inr (.inr (.inr (.inl ⟨rfl, rfl⟩)))
  | waitToSettle | senseGain | error =>
    simp only [dispatch, hs, Option.some.injEq] at h
    exact .inr (.inr (.inr (.inr ⟨rfl, h.symm⟩)))

/-- The dispatch emits nothing and holds the symbol, or it is that of `OK` on a trigger at the decision phase (R295). -/
theorem dispatch_emission (he : c.seq.emit = false) (h : dispatch p v vq phi c = some c') :
    (c'.seq.emit = false ∧ c'.seq.outSymbol = c.seq.outSymbol) ∨
      (c.seq.state = .ok ∧ (∃ d, phaseTrigger c.seq.decisionPhase c.pll = some d) ∧
        c'.seq = { c.seq.setDecide with outSymbol := decideSymbol v, emit := true }) := by
  rcases dispatch_cases h with ⟨-, rfl⟩ | ⟨-, rfl⟩ | ⟨-, ha⟩ | ⟨hs, rfl⟩ | ⟨-, rfl⟩
  · rcases carrierSync_cases p v c with ⟨-, e⟩ | ⟨d, -, -, e⟩ | ⟨d, -, -, e⟩ <;> rw [e] <;> exact .inl ⟨he, rfl⟩
  · rcases carrierLock_cases p v vq phi c with ⟨-, e⟩ | ⟨d, seq, -, ⟨-, rfl⟩ | ⟨-, rfl⟩, e⟩ <;> rw [e] <;>
      exact .inl ⟨he, rfl⟩
  · rcases align_cases ha with ⟨-, rfl⟩ | ⟨d, u, seq, -, -, ⟨-, rfl⟩ | ⟨r, -, rfl⟩, rfl⟩ <;> exact .inl ⟨he, rfl⟩
  · rcases data_cases p v vq phi c with ⟨-, e⟩ | ⟨d, ht, e⟩ <;> rw [e]
    · exact .inl ⟨he, rfl⟩
    · exact .inr ⟨hs, ⟨d, ht⟩, rfl⟩
  · exact .inl ⟨he, rfl⟩

/-- The dispatch sets `decide` on the triggers that its state handles (R291-R293, R295). -/
theorem dispatch_decide (hc : c.seq.decide = false) (h : dispatch p v vq phi c = some c') :
    c'.seq.decide = true ↔
      (c.seq.state = .carrierSync ∧ phaseTrigger F32.zero c.pll ≠ none) ∨
      ((c.seq.state = .carrierLock ∨ c.seq.state = .align) ∧ selectTrigger c.pll ≠ none) ∨
      (c.seq.state = .ok ∧ c'.seq.state = .ok ∧ phaseTrigger c.seq.decisionPhase c.pll ≠ none) := by
  rcases dispatch_cases h with ⟨hs, rfl⟩ | ⟨hs, rfl⟩ | ⟨hs, ha⟩ | ⟨hs, rfl⟩ | ⟨hs, rfl⟩
  · rcases carrierSync_cases p v c with ⟨ht, e⟩ | ⟨d, ht, -, e⟩ | ⟨d, ht, -, e⟩ <;> simp [e, hs, ht, hc]
  · rcases carrierLock_cases p v vq phi c with ⟨ht, e⟩ | ⟨d, seq, ht, ⟨-, rfl⟩ | ⟨-, rfl⟩, e⟩ <;>
      simp [e, hs, ht, hc]
  · rcases align_cases ha with ⟨ht, rfl⟩ | ⟨d, u, seq, ht, -, ⟨-, rfl⟩ | ⟨r, -, rfl⟩, rfl⟩ <;> simp [hs, ht, hc]
  · rcases data_cases p v vq phi c with ⟨ht, e⟩ | ⟨d, ht, e⟩ <;> simp [e, hs, ht, hc]
  · cases hq : c'.seq.state with
    | waitToSettle | senseGain | error => simp [hc]
    | _ => simp [hq, SeqState.demodulating] at hs

/-! ### The sample -/

/-- A demodulated sample that answers is the dispatch with the `recovered` it writes, then the NCO step (R285, R296). -/
theorem demodulate_dispatch_advanceNco {g : F32} (h : demodulate p g c = some c') :
    ∃ c1, dispatch p c'.hold.recovered (quantizeV c'.hold.recovered) c.pll.phase (demodFront p g c) = some c1 ∧
      c' = c1.advanceNco := by
  obtain ⟨c1, hdisp, rfl⟩ := demodulate_cases h
  obtain ⟨-, hhold, -⟩ := dispatch_frame hdisp
  have hv : c1.hold.recovered = (baseband p g c).1 := by rw [hhold]; rfl
  exact ⟨c1, by rw [CoreState.withPll_hold, hv]; exact hdisp, rfl⟩

/-- A sample in a demodulating state, from the answer of its dispatch (R276, R285, R296). -/
theorem processSample_of_dispatch (hdem : c.seq.state.demodulating = true)
    (hl : c.seq.state = .ok → (frontEnd p x c.agc).2.level.lt levelThreshold = false)
    (hd : dispatch p (baseband p (frontEnd p x c.agc).1 c).1 (quantizeV (baseband p (frontEnd p x c.agc).1 c).1)
      c.pll.phase (demodFront p (frontEnd p x c.agc).1 (sampleFront p x c)) = some c1)
    (hc : c1.advanceNco = c') : processSample p x c = some c' := by
  rw [processSample_demodulating p x c hdem hl]
  exact (congrArg (Option.map _) hd).trans (congrArg some hc)

/-- A loss of signal in `OK` ends the sample in `ERROR` (R283). -/
theorem processSample_of_lost (hs : c.seq.state = .ok)
    (hl : (frontEnd p x c.agc).2.level.lt levelThreshold = true) :
    processSample p x c = some ((sampleFront p x c).withSeq { c.seq.clearFlags with state := .error }) := by
  simp [processSample, hs, hl, SeqState.preAcquisition]

/-- In `ERROR` a sample changes nothing (R297). -/
theorem processSample_of_error (hs : c.seq.state = .error) (x : F32) : processSample p x c = some c := if_pos hs

/-- Outside `ERROR` a sample emits nothing and holds the symbol, or it is one of `OK` on a trigger at the decision phase
(R275, R295). -/
theorem processSample_emission (hs : c.seq.state ≠ .error) (h : processSample p x c = some c') :
    (c'.seq.emit = false ∧ c'.seq.outSymbol = c.seq.outSymbol) ∨
      (c.seq.state = .ok ∧ (∃ d, phaseTrigger c.seq.decisionPhase c.pll = some d) ∧
        c'.seq = { c.seq.clearFlags.setDecide with outSymbol := decideSymbol c'.hold.recovered, emit := true }) := by
  rcases processSample_cases h with ⟨he, -⟩ | ⟨-, rfl⟩ | ⟨-, -, rfl⟩ | ⟨-, -, hd⟩
  · exact absurd he hs
  · obtain ⟨-, -, hemit⟩ := levelGate_frame p (sampleFront p x c).agc.level (sampleFront p x c)
    obtain ⟨-, -, -, hsym, -⟩ := levelGate_keeps p (sampleFront p x c).agc.level (sampleFront p x c)
    exact .inl ⟨hemit, hsym⟩
  · exact .inl ⟨rfl, rfl⟩
  · obtain ⟨c1, hdisp, -, hseq⟩ := demodulate_dispatch hd
    rw [hseq]
    exact dispatch_emission (c := demodFront p _ (sampleFront p x c)) rfl hdisp

/-- The `decide` flag after a sample outside `ERROR` (R275). -/
theorem processSample_decide (hs : c.seq.state ≠ .error) (h : processSample p x c = some c') :
    c'.seq.decide = true ↔
      (c.seq.state = .carrierSync ∧ phaseTrigger F32.zero c.pll ≠ none) ∨
      ((c.seq.state = .carrierLock ∨ c.seq.state = .align) ∧ selectTrigger c.pll ≠ none) ∨
      (c.seq.state = .ok ∧ c'.seq.state = .ok ∧ phaseTrigger c.seq.decisionPhase c.pll ≠ none) := by
  rcases processSample_cases h with ⟨he, -⟩ | ⟨hpre, rfl⟩ | ⟨hok, -, rfl⟩ | ⟨-, -, hd⟩
  · exact absurd he hs
  · rw [(levelGate_frame ..).2.1]
    rcases SeqState.preAcquisition_iff.1 hpre with hq | hq <;> simp [hq]
  · simp [hok]
  · obtain ⟨c1, hdisp, -, hseq⟩ := demodulate_dispatch hd
    rw [hseq]
    exact dispatch_decide (c := demodFront p _ (sampleFront p x c)) rfl hdisp

end Sample

/-- Settles O30, by what a sample does with the symbol. -/
theorem emissionOnlyInOkOnTrigger : Obligations.EmissionOnlyInOkOnTrigger := by
  intro din s t hexec hs
  obtain ⟨c, hc, rfl⟩ := execProcess_next_iff.1 hexec
  rw [State.respondDone_core, State.withCore_core]
  rcases processSample_emission hs hc with ⟨hemit, hsym⟩ | ⟨hok, ht, hseq⟩
  · exact ⟨fun he => absurd (he.symm.trans hemit) nofun, fun _ => hsym⟩
  · rw [hseq]
    exact ⟨fun _ => ⟨hok, hok, rfl, ht, rfl⟩, nofun⟩

/-- Settles O31: the response leaves the flags of the sample as they are. -/
theorem decideMarksHandledTriggers : Obligations.DecideMarksHandledTriggers := by
  intro din s t hexec hs
  obtain ⟨c, hc, rfl⟩ := execProcess_next_iff.1 hexec
  exact processSample_decide hs hc

/-! ### The whole next state -/

/-- In a state other than `OK` and `ERROR`, `PROCESS` answers the old symbol, with `emit = 0` (R275, R320). -/
theorem exec_process_of_not_ok {din : DataWord} {s : State} {c : CoreState} (hok : s.core.seq.state ≠ .ok)
    (he : s.core.seq.state ≠ .error) (h : processSample Config.params (sampleOf din) s.core = some c) :
    exec (.process din) s =
      .next { core := c
              port := { s.port with response := some ⟨.done, s.core.seq.outSymbol.setWidth 32 <<< 4⟩ } } := by
  rcases processSample_emission he h with ⟨hemit, hsym⟩ | ⟨h, -⟩
  · exact exec_process_of_quiet_sample h hemit hsym
  · exact absurd h hok

/-- Settles O22: the dispatch in `CARRIER_SYNC`, by its three cases. -/
theorem carrierSyncSample : Obligations.CarrierSyncSample := by
  intro din s hs p fe bb v n seq fired
  refine exec_process_of_not_ok (by simp [hs]) (by simp [hs])
    (processSample_of_dispatch (by rw [hs]; rfl) (by simp [hs]) (dispatch_of_carrierSync hs) ?_)
  rcases carrierSync_cases p v (demodFront p fe.1 (sampleFront p (sampleOf din) s.core)) with
    ⟨ht, e⟩ | ⟨d, ht, (hd : decideSymbol v = 0xF), e⟩ | ⟨d, ht, (hd : decideSymbol v ≠ 0xF), e⟩
  · have hf : ¬fired := not_not.2 ht
    rw [if_neg fun h => hf h.1, if_neg hf]
    exact congrArg CoreState.advanceNco e
  · have hf : fired := ne_of_eq_of_ne ht (Option.some_ne_none d)
    have hstate := if_congr (syncLongEnough_satIncr_iff (p := p) (c := s.core.seq.carrierSyncCount))
      (rfl : SeqState.carrierLock = .carrierLock) hs
    rw [if_pos ⟨hf, hd⟩, if_pos hf, if_pos hd, ← hstate]
    exact congrArg CoreState.advanceNco e
  · have hf : fired := ne_of_eq_of_ne ht (Option.some_ne_none d)
    rw [if_neg fun h => hd h.2, if_pos hf, if_neg hd]
    exact congrArg CoreState.advanceNco e

end Sys2Proof.Machine
end

section
/-! `CARRIER_LOCK`, `ALIGN`, `OK` and `ERROR` (R292-R297): the whole next state of the machine in each of them. -/

namespace Sys2Proof.Machine

/-! ### Triggers -/

/-- No trigger is selected exactly when neither threshold has one (R286). -/
theorem selectTrigger_eq_none_iff {l : PllState} :
    selectTrigger l = none ↔ phaseTrigger F32.zero l = none ∧ phaseTrigger half l = none := by
  cases h : phaseTrigger F32.zero l <;> simp [selectTrigger, h]

/-- A trigger at a threshold in `[0, 1)` has a delay that is not a NaN: a phase that is a NaN gives no trigger (R163,
R164). -/
theorem PllInv.trigger_not_nan {l : PllState} (h : PllInv l) {t d : F32} (ht : inUnit t = true)
    (hd : phaseTrigger t l = some d) : d.isNaN = false := by
  have hphase : l.phase.isNaN = false := by
    by_contra hnan
    rw [phaseTrigger_of_nan (by simpa using hnan)] at hd
    cases hd
  have hprev : l.prevPhase.isNaN = false := by
    by_contra hnan
    obtain ⟨⟨hlt, -⟩, -⟩ := phaseTrigger_cases hd
    rw [F32.lt_of_nan (.inr (F32.isNaN_wrap_of_nan (F32.isNaN_sub_of_nan (.inl (by simpa using hnan)))))] at hlt
    cases hlt
  have hx : inUnit l.phase = true := h.phase_range.resolve_left (by simp [hphase])
  have hy : inUnit l.prevPhase = true := h.prevPhase_range.resolve_left (by simp [hprev])
  obtain ⟨hnan, -⟩ := inUnitClosed_iff.1 (inUnitClosed_of_phaseTrigger ht hx hy hd)
  exact hnan

/-- A selected trigger has a delay that is not a NaN (R164, R286). -/
theorem PllInv.selectTrigger_not_nan {l : PllState} (h : PllInv l) {d : F32} (hd : selectTrigger l = some d) :
    d.isNaN = false := by
  rcases selectTrigger_cases hd with h0 | ⟨-, hhalf⟩
  · exact h.trigger_not_nan (inUnit_iff.2 (by decide)) h0
  · exact h.trigger_not_nan (inUnit_iff.2 (by decide)) hhalf

/-- The sampler answers at the delay of a selected trigger, on a full history (R250, entry 11). -/
theorem sampleSymbol_of_selectTrigger {p : Params} {l : PllState} (h : PllInv l) {d : F32} {vHist : List V}
    (hd : selectTrigger l = some d) (hlen : vHist.length = p.n) : ∃ u, sampleSymbol p d vHist = some u := by
  obtain ⟨-, -, late, early, -, -, hu⟩ := sampleSymbolStaysInWindow p d vHist (h.selectTrigger_not_nan hd) hlen
  exact ⟨_, hu⟩

/-! ### `ALIGN` answers -/

/-- `ALIGN` answers wherever the sampler does (R293). -/
theorem align_answers {p : Params} {v vq : V} {phi : F32} {c : CoreState}
    (h : ∀ d, selectTrigger c.pll = some d → ∃ u, sampleSymbol p d c.hold.vHist = some u) :
    ∃ c', align p v vq phi c = some c' := by
  cases ht : selectTrigger c.pll with
  | none => exact ⟨_, by simp [align, ht]; rfl⟩
  | some d =>
    obtain ⟨u, hu⟩ := h d ht
    cases hr : (correlate p phi u c.cor).1 with
    | none => exact ⟨_, by simp [align, ht, hu, hr]; rfl⟩
    | some r => exact ⟨_, by simp [align, ht, hu, hr]; rfl⟩

/-! ### The whole next state -/

/-- Settles O23: the dispatch in `CARRIER_LOCK`, without and with a trigger. -/
theorem carrierLockSample : Obligations.CarrierLockSample := by
  intro din s hs p fe bb v seq fired
  refine exec_process_of_not_ok (by simp [hs]) (by simp [hs])
    (processSample_of_dispatch (by rw [hs]; rfl) (by simp [hs]) (dispatch_of_carrierLock hs) ?_)
  have hfired : fired ↔ selectTrigger s.core.pll ≠ none := by
    rw [ne_eq, selectTrigger_eq_none_iff, not_and_or]
  rcases carrierLock_cases p v (quantizeV v) s.core.pll.phase
      (demodFront p fe.1 (sampleFront p (sampleOf din) s.core)) with
    ⟨ht, e⟩ | ⟨d, _, ht, ⟨(hd : decideSymbol v = 0xF), rfl⟩ | ⟨(hd : decideSymbol v ≠ 0xF), rfl⟩, e⟩
  · have hf : ¬fired := fun hf => hfired.1 hf ht
    rw [if_neg hf, if_neg hf, if_neg hf]
    exact congrArg CoreState.advanceNco e
  · have hf : fired := hfired.2 (ne_of_eq_of_ne ht (Option.some_ne_none d))
    rw [if_pos hf, if_pos hf, if_pos hf, if_pos hd]
    exact congrArg CoreState.advanceNco e
  · have hf : fired := hfired.2 (ne_of_eq_of_ne ht (Option.some_ne_none d))
    rw [if_pos hf, if_pos hf, if_pos hf, if_neg hd]
    exact congrArg CoreState.advanceNco e

/-- Settles O24: under the invariant the sampler answers, so the dispatch does. -/
theorem alignSample : Obligations.AlignSample := by
  intro din s hs hinv p fe bb v vHist seq pll hold response
  have hlen : vHist.length = p.n := (historyWrite_length ..).trans hinv.vHist_length
  obtain ⟨c1, halign⟩ := align_answers (p := p) (v := v) (vq := quantizeV v) (phi := s.core.pll.phase)
    (c := demodFront p fe.1 (sampleFront p (sampleOf din) s.core))
    fun d hd => sampleSymbol_of_selectTrigger (p := p) hinv.pll hd hlen
  have hdisp := dispatch_of_align (p := p) (v := v) (vq := quantizeV v) (phi := s.core.pll.phase)
    (c := demodFront p fe.1 (sampleFront p (sampleOf din) s.core)) hs
  have hexec {c : CoreState} (hc : c1.advanceNco = c) :
      exec (.process din) s = .next { core := c, port := { s.port with response := response } } :=
    exec_process_of_not_ok (by simp [hs]) (by simp [hs])
      (processSample_of_dispatch (by rw [hs]; rfl) (by simp [hs]) (hdisp.trans halign) hc)
  rcases align_cases halign with ⟨(ht : selectTrigger s.core.pll = none), rfl⟩ |
    ⟨d, u, _, (ht : selectTrigger s.core.pll = some d), hu, hr, rfl⟩ <;> rw [ht]
  · exact hexec rfl
  · refine ⟨u, hu, hexec ?_⟩
    rcases hr with ⟨hr, rfl⟩ | ⟨r, hr, rfl⟩
    · rw [show (correlate p s.core.pll.phase u s.core.cor).1 = none from hr]; rfl
    · rw [show (correlate p s.core.pll.phase u s.core.cor).1 = some r from hr]; rfl

/-- Settles O25: the loss of signal, then the dispatch in `OK` without and with a trigger. -/
theorem okSample : Obligations.OkSample := by
  intro din s hs p fe bb v dp phi seq e demod
  by_cases hl : fe.2.level.lt levelThreshold = true
  · rw [if_pos hl]
    exact exec_process_of_quiet_sample (processSample_of_lost hs hl) rfl rfl
  · rw [if_neg hl]
    have hsample {c : CoreState} (hc : (data p v (quantizeV v) phi
        (demodFront p fe.1 (sampleFront p (sampleOf din) s.core))).advanceNco = c) :
        processSample p (sampleOf din) s.core = some c :=
      processSample_of_dispatch (by rw [hs]; rfl) (fun _ => Bool.eq_false_of_not_eq_true hl) (dispatch_of_ok hs) hc
    rcases data_cases p v (quantizeV v) phi (demodFront p fe.1 (sampleFront p (sampleOf din) s.core)) with
      ⟨(ht : phaseTrigger dp s.core.pll = none), he⟩ | ⟨d, (ht : phaseTrigger dp s.core.pll = some d), he⟩
    · rw [if_pos ht]
      exact exec_process_of_quiet_sample (hsample (congrArg CoreState.advanceNco he)) rfl rfl
    · rw [if_neg (ne_of_eq_of_ne ht (Option.some_ne_none d))]
      have hexec := exec_process_of_sample (hsample (congrArg CoreState.advanceNco he))
      rw [processWord_of_emit rfl] at hexec
      exact hexec

/-! ### `ERROR` -/

/-- The status word in `ERROR` with both flags clear (R70, R275). -/
theorem statusWord_of_error {r : SeqRegs} (hs : r.state = .error) (hd : r.decide = false) (he : r.emit = false) :
    statusWord r = 0x0000000E := by
  simp only [statusWord, SeqRegs.err, hs, hd, he]; decide

/-- Settles O26: what each instruction does in `ERROR`. -/
theorem errorStateHoldsUntilReset : Obligations.ErrorStateHoldsUntilReset := by
  intro s hinv hs
  obtain ⟨hdecide, hemit⟩ := hinv.error_flags hs
  have hprocess (din : DataWord) := exec_process_of_quiet_sample (din := din)
    (processSample_of_error hs (sampleOf din)) hemit rfl
  refine ⟨hprocess, ?_, fun i t hexec => ?_⟩
  · rw [← statusWord_of_error hs hdecide hemit]; rfl
  · cases i
    case process din =>
      rw [hprocess] at hexec
      cases hexec
      simp [hs]
    case init => cases hexec; exact ⟨fun _ => .inl rfl, nofun⟩
    case reset => cases hexec; exact ⟨fun _ => .inr (.inl rfl), nofun⟩
    case beginCarrierSync => cases hexec; exact ⟨fun _ => .inr (.inr rfl), nofun⟩
    -- `NOP` and the `READ`s answer only.
    all_goals cases hexec; exact ⟨fun h => absurd hs h, nofun⟩

end Sys2Proof.Machine
end

section
/-! The transition table (R271): which state follows which, under which condition and with which effects, and which
instructions change the state at all (R270). -/

namespace Sys2Proof.Machine

/-! ### One row or two for each state -/

section Sample
variable {p : Params} {lvl : F32} {v vq : V} {phi : F32} {c c' : CoreState}

/-- `WAIT_TO_SETTLE` is left for `SENSE_GAIN`, settled and above the level threshold (R271, R281). -/
theorem waitToSettle_transition :
    (waitToSettle p lvl c).seq.state = c.seq.state ∨
      ((waitToSettle p lvl c).seq.state = .senseGain ∧ p.sampleRate ≤ 4 * (satIncr c.seq.skippedSamples).toNat ∧
        levelThreshold.lt lvl = true ∧ (waitToSettle p lvl c).seq.skippedSamples = 0) := by
  rcases waitToSettle_cases p lvl c with ⟨hcount, hlevel, e⟩ | ⟨-, e⟩ <;> rw [e]
  · exact .inr ⟨rfl, of_decide_eq_true hcount, hlevel, rfl⟩
  · exact .inl rfl

/-- `SENSE_GAIN` is left for `WAIT_TO_SETTLE` on a level drop, and for `CARRIER_SYNC` when settled, with the initial gain
(R271, R282). -/
theorem senseGain_transition :
    (senseGain p lvl c).seq.state = c.seq.state ∨
      ((senseGain p lvl c).seq.state = .waitToSettle ∧ levelThreshold.lt lvl = false ∧
        (senseGain p lvl c).seq.skippedSamples = 0) ∨
      ((senseGain p lvl c).seq.state = .carrierSync ∧ levelThreshold.lt lvl = true ∧
        p.sampleRate ≤ 4 * (satIncr c.seq.skippedSamples).toNat ∧ (senseGain p lvl c).agc.gain = kSense.div lvl ∧
        (senseGain p lvl c).seq.skippedSamples = 0 ∧ (senseGain p lvl c).seq.carrierSyncCount = 0) := by
  rcases senseGain_cases p lvl c with ⟨hdrop, e⟩ | ⟨hlevel, hcount, e⟩ | ⟨-, -, e⟩ <;> rw [e]
  · exact .inr (.inl ⟨rfl, hdrop, rfl⟩)
  · exact .inr (.inr ⟨rfl, hlevel, of_decide_eq_true hcount, rfl, rfl, rfl⟩)
  · exact .inl rfl

/-- `CARRIER_SYNC` is left for `CARRIER_LOCK`, on the trigger of a sync symbol that makes the count long enough (R271,
R291). -/
theorem carrierSync_transition (h : c' = carrierSync p v c) :
    c'.seq.state = c.seq.state ∨
      (c'.seq.state = .carrierLock ∧ (∃ d, phaseTrigger F32.zero c.pll = some d) ∧
        decideSymbol v = 0xF ∧ (p.symbolRate : Nat) ≤ 40 * (satIncr c.seq.carrierSyncCount).toNat ∧
        c'.agc.gain = c.agc.gain.sub (agcFast.mul (v.norm2.sub carrierSyncVector.norm2))) := by
  rcases carrierSync_cases p v c with ⟨-, e⟩ | ⟨d, ht, hd, e⟩ | ⟨d, -, -, e⟩ <;> rw [h, e]
  · exact .inl rfl
  · by_cases hlong : syncLongEnough p (satIncr c.seq.carrierSyncCount).toNat = true
    · exact .inr ⟨if_pos hlong, ⟨d, ht⟩, hd, of_decide_eq_true hlong, rfl⟩
    · exact .inl (if_neg hlong)
  · exact .inl rfl

/-- `CARRIER_LOCK` is left for `ALIGN`, on the trigger of a symbol other than the sync symbol (R271, R292). -/
theorem carrierLock_transition (h : c' = carrierLock p v vq phi c) :
    c'.seq.state = c.seq.state ∨
      (c'.seq.state = .align ∧ (∃ d, selectTrigger c.pll = some d) ∧
        decideSymbol v ≠ 0xF ∧ c'.seq.decisionPhase = F32.zero) := by
  rcases carrierLock_cases p v vq phi c with ⟨-, e⟩ | ⟨d, seq, ht, ⟨-, rfl⟩ | ⟨hd, rfl⟩, e⟩ <;> rw [h, e]
  · exact .inl rfl
  · exact .inl rfl
  · exact .inr ⟨rfl, ⟨d, ht⟩, hd, rfl⟩

/-- `ALIGN` is left for `OK`, on a trigger with a result of the correlator, which becomes the decision phase (R271,
R293). -/
theorem align_transition (h : align p v vq phi c = some c') :
    c'.seq.state = c.seq.state ∨
      (c'.seq.state = .ok ∧ (∃ d, selectTrigger c.pll = some d) ∧
        ∃ u, (correlate p phi u c.cor).1 = some c'.seq.decisionPhase ∧ (correlate p phi u c.cor).2 = c'.cor) := by
  rcases align_cases h with ⟨-, rfl⟩ | ⟨d, u, seq, ht, -, ⟨-, rfl⟩ | ⟨r, hr, rfl⟩, rfl⟩
  · exact .inl rfl
  · exact .inl rfl
  · exact .inr ⟨rfl, ⟨d, ht⟩, u, hr, rfl⟩

/-- A demodulated sample in `OK` stays there (R271, R294). -/
theorem data_state : (data p v vq phi c).seq.state = c.seq.state := by
  rcases data_cases p v vq phi c with ⟨-, e⟩ | ⟨d, -, e⟩ <;> rw [e] <;> rfl

end Sample

/-! ### The whole table -/

/-- Settles O28, by the state in which the sample arrives. -/
theorem transitionTable : Obligations.TransitionTable := by
  intro din s t hexec
  obtain ⟨c, hc, rfl⟩ := execProcess_next_iff.1 hexec
  rw [State.respondDone_core, State.withCore_core]
  intro p level v skipped count
  rcases processSample_cases hc with ⟨-, rfl⟩ | ⟨hpre, rfl⟩ | ⟨hs, hl, rfl⟩ | ⟨-, -, hd⟩
  · exact .inl rfl
  · rcases SeqState.preAcquisition_iff.1 hpre with hs | hs
    · rw [levelGate_of_waitToSettle (c := sampleFront ..) hs]
      exact waitToSettle_transition.imp_right fun row => .inl ⟨hs, row⟩
    · rw [levelGate_of_senseGain (c := sampleFront ..) hs]
      rcases senseGain_transition with hsame | drop | sync
      · exact .inl hsame
      · exact .inr (.inr (.inl ⟨hs, drop⟩))
      · exact .inr (.inr (.inr (.inl ⟨hs, sync⟩)))
  · exact .inr (.inr (.inr (.inr (.inr (.inr (.inr ⟨hs, rfl, hl⟩))))))
  · obtain ⟨c1, hdisp, rfl⟩ := demodulate_dispatch_advanceNco hd
    rcases dispatch_cases hdisp with ⟨hs, e⟩ | ⟨hs, e⟩ | ⟨hs, ha⟩ | ⟨hs, e⟩ | ⟨-, e⟩
    · exact (carrierSync_transition e).imp_right fun row => .inr (.inr (.inr (.inl ⟨hs, row⟩)))
    · exact (carrierLock_transition e).imp_right fun row => .inr (.inr (.inr (.inr (.inl ⟨hs, row⟩))))
    · exact (align_transition ha).imp_right fun row => .inr (.inr (.inr (.inr (.inr (.inl ⟨hs, row⟩)))))
    · exact .inl ((congrArg (·.seq.state) e).trans data_state)
    · exact .inl (congrArg (·.seq.state) e)

/-- Settles O29: `PROCESS` by the table, and every other instruction by its meaning. -/
theorem stateChangesOnlyByTableAndCommands : Obligations.StateChangesOnlyByTableAndCommands := by
  intro i s t hexec hne
  cases i
  case process din =>
    refine .inl ⟨din, rfl, ?_⟩
    rcases transitionTable din s t hexec with h | ⟨h, h', -⟩ | ⟨h, h', -⟩ | ⟨h, h', -⟩ | ⟨h, h', -⟩ | ⟨h, h', -⟩ |
      ⟨h, h', -⟩ | ⟨h, h', -⟩
    · exact absurd h hne
    all_goals rw [h, h']; decide
  case init => cases hexec; exact .inr (.inl ⟨.inl rfl, rfl⟩)
  case reset => cases hexec; exact .inr (.inl ⟨.inr rfl, rfl⟩)
  case beginCarrierSync => cases hexec; exact .inr (.inr ⟨rfl, rfl⟩)
  -- `NOP` and the `READ`s answer only.
  all_goals cases hexec; exact absurd rfl hne

end Sys2Proof.Machine
end

section
/-! The commands (R320-R340): `PROCESS` answers in every state that satisfies the invariant, so that no step stops
there, and the whole meaning of each of the other commands. -/

namespace Sys2Proof.Machine

/-! ### `PROCESS` answers -/

/-- The three ways of a sample, by the state in which it arrives (R276). -/
theorem SeqState.error_or_preAcquisition_or_demodulating (q : SeqState) :
    q = .error ∨ q.preAcquisition = true ∨ q.demodulating = true := by
  cases q with
  | error => exact .inl rfl
  | waitToSettle | senseGain => exact .inr (.inl rfl)
  | carrierSync | carrierLock | align | ok => exact .inr (.inr rfl)

section Sample
variable {p : Params} {c : CoreState}

/-- The dispatch answers on a full history: only `ALIGN` reads it, and the sampler answers there (R290, R293). -/
theorem CoreInv.dispatch_answers (h : CoreInv p c) (v vq : V) (phi : F32) : ∃ c', dispatch p v vq phi c = some c' := by
  cases hs : c.seq.state with
  | align =>
    rw [dispatch_of_align hs]
    exact align_answers fun d hd => sampleSymbol_of_selectTrigger h.pll hd h.vHist_length
  | carrierSync => exact ⟨_, dispatch_of_carrierSync hs⟩
  | carrierLock => exact ⟨_, dispatch_of_carrierLock hs⟩
  | ok => exact ⟨_, dispatch_of_ok hs⟩
  | waitToSettle | senseGain | error => exact ⟨c, by simp only [dispatch, hs]⟩

/-- Every sample answers in a core that satisfies the invariant (R276, R340). -/
theorem CoreInv.processSample_answers (h : CoreInv p c) (x : F32) : ∃ c', processSample p x c = some c' := by
  rcases c.seq.state.error_or_preAcquisition_or_demodulating with hs | hpre | hdem
  · exact ⟨c, processSample_of_error hs x⟩
  · exact ⟨_, processSample_of_preAcquisition hpre x⟩
  · by_cases hlost : c.seq.state = .ok ∧ (frontEnd p x c.agc).2.level.lt levelThreshold = true
    · obtain ⟨hok, hl⟩ := hlost
      exact ⟨_, processSample_of_lost hok hl⟩
    · have hfront := coreInv_demodFront (coreInv_sampleFront h x) (frontEnd p x c.agc).1
      obtain ⟨c1, hdisp⟩ := hfront.dispatch_answers _ _ _
      have hlevel (hok : c.seq.state = .ok) := Bool.eq_false_of_not_eq_true fun hl => hlost ⟨hok, hl⟩
      exact ⟨_, processSample_of_dispatch hdem hlevel hdisp rfl⟩

end Sample

theorem bit32_eq_ite (b : Bool) : bit32 b = if b then 1 else 0 := by cases b <;> rfl

/-- Settles O27: the sample answers, and `PROCESS` with it. -/
theorem processCompletes : Obligations.ProcessCompletes := by
  intro din s hinv
  obtain ⟨c, hc⟩ := hinv.processSample_answers (sampleOf din)
  refine ⟨_, exec_process_of_sample hc, rfl, ?_⟩
  rw [processWord, bit32_eq_ite]

/-! ### No step stops -/

/-- Every instruction completes in a state that satisfies the invariant (R340). -/
theorem completes_of_inv (i : Instr) {s : State} (h : s.Inv) : Completes i s := by
  cases i with
  | process din =>
    obtain ⟨t, ht, -⟩ := processCompletes din s h
    exact ⟨t, ht⟩
  | _ => exact completes_of_not_process (by simp) s

/-- Settles O55, by what the port offers: only an instruction could stop. -/
theorem invariantStatesNeverStop : Obligations.InvariantStatesNeverStop := by
  intro s hinv
  match hin : s.port.inputs with
  | [] => exact ⟨idle s, by simp only [step, hin]⟩
  | .powerOnReset :: rest => exact ⟨powerOnReset Config.params s rest, by simp only [step, hin]⟩
  | .command c :: rest =>
    cases hdec : decode c with
    | ok i =>
      rw [step_of_decode_ok hin hdec]
      exact completes_of_inv i (s := s.withInputs rest) hinv
    | error e => exact ⟨_, step_of_decode_error hin hdec⟩

/-! ### The commands without an operand -/

theorem exec_nop (s : State) : exec .nop s = .next (s.respondDone 0) := rfl

/-- `INIT` leaves the core of reset, whatever the core before it (R321, R380). -/
theorem exec_init (s : State) : exec .init s = .next ((s.withCore State.reset.core).respondDone 0) := by
  rw [exec, execInit, resetState_eq, State.reset]

theorem exec_reset_eq_exec_init (s : State) : exec .reset s = exec .init s := rfl

theorem exec_beginCarrierSync (s : State) :
    exec .beginCarrierSync s = .next ((s.withCore (beginCarrierSync s.core)).respondDone 0) := rfl

/-- Settles O12: a response is all that `NOP` writes. -/
theorem nopChangesNothing : Obligations.NopChangesNothing :=
  ⟨decode_encode_cmd .nop, exec_nop⟩

/-- Settles O14: `RESET` is `INIT`, and `INIT` leaves the core of reset. -/
theorem resetIsAliasOfInit : Obligations.ResetIsAliasOfInit :=
  ⟨decode_encode_cmd .reset, fun s => ⟨_, (exec_reset_eq_exec_init s).trans (exec_init s), exec_init s, rfl, rfl⟩⟩

/-- Settles O15: the two registers are those of `beginCarrierSync`. -/
theorem beginCarrierSyncSetsTwoRegisters : Obligations.BeginCarrierSyncSetsTwoRegisters :=
  ⟨decode_encode_cmd .beginCarrierSync, exec_beginCarrierSync⟩

/-! ### `READ` -/

/-- The word of a read decodes to it, whatever `DIN` is (R106, R107). -/
theorem decode_readWord (r : Reg) (din : DataWord) : decode ⟨readWord r, din⟩ = .ok (readInstr r) := by
  have h := decode_encode_cmd (readInstr r) din
  rwa [encode_readInstr, Instr.withDin_readInstr] at h

/-- A flag in its place is a number in its place. -/
theorem bit32_shiftLeft (b : Bool) (k : Nat) : bit32 b <<< k = (((if b then 1 else 0) <<< k : Nat) : DataWord) := by
  refine BitVec.eq_of_toNat_eq ?_
  cases b <;> simp [bit32]

/-- The word of `STATUS`, with its flags as numbers (R70). -/
theorem statusWord_eq_ite (r : SeqRegs) :
    statusWord r = ((if r.emit then 1 else 0) <<< 5 ||| (if r.decide then 1 else 0) <<< 4
      ||| (if r.state = .error then 1 else 0) <<< 3 ||| r.state.code.setWidth 32) := by
  simp only [statusWord, bit32_shiftLeft, err_eq_decide, decide_eq_true_eq]

/-- A `READ` word for any address has the operation code 0x5, the address, and reserved fields of zero (R101, R330). -/
theorem toNat_readWord_address (addr : BitVec 4) :
    (addr.setWidth 16 <<< 8 ||| 0x0005 : CmdWord).toNat = 256 * addr.toNat + 5 := by
  revert addr; decide

/-- A `READ` of a reserved address does not decode (R81, R108). -/
theorem decode_read_reserved {addr : BitVec 4} (h : 0xC ≤ addr.toNat) (din : DataWord) :
    ∃ e, decode ⟨addr.setWidth 16 <<< 8 ||| 0x0005, din⟩ = .error e := by
  rw [decode_isError_iff_fields, toNat_readWord_address]
  omega

/-- Settles O16: a register's word decodes to its read, which answers the register; a reserved address raises
Illegal. -/
theorem readAnswersTheRegister : Obligations.ReadAnswersTheRegister := by
  intro s din answers r
  have read (q : Reg) : decode ⟨readWord q, din⟩ = .ok (readInstr q) ∧ answers (readInstr q) (readReg q s.core) :=
    ⟨decode_readWord q din, exec_readInstr q s⟩
  refine ⟨statusWord_eq_ite r ▸ read .status, read .pllPhase, read .pllError, read .pllStep, read .decisionPhase,
    read .signalPower, read .recoveredI, read .recoveredQ, read .correlation, read .agc, read .outSymbol, read .config,
    fun addr haddr => ?_⟩
  obtain ⟨e, he⟩ := decode_read_reserved haddr din
  exact ⟨⟨e, he⟩, fun rest hin => step_of_decode_error hin he⟩

end Sys2Proof.Machine
end

section
/-! Exceptions, reset and hazards (R350-R352, R370, R380-R383): an illegal word and an idle step hold the core, power-on
reset is `INIT` without a response, `INIT` zeroes every element, and no history outlives it. -/

namespace Sys2Proof.Machine

/-! ### The steps that execute no instruction -/

/-- The step with nothing offered (R370, entry 2). -/
theorem step_of_no_input {s : State} (hin : s.port.inputs = []) : step s = .next (idle s) := by
  simp only [step, hin]

/-- The step of power-on reset (R381, entry 4). -/
theorem step_of_powerOnReset {s : State} {rest : List PortEvent} (hin : s.port.inputs = .powerOnReset :: rest) :
    step s = .next (powerOnReset Config.params s rest) := by
  simp only [step, hin]

/-- Taking the next input off the port withdraws the response of Illegal (R100, R352). -/
@[simp] theorem raiseIllegal_withInputs (s : State) (rest : List PortEvent) :
    (raiseIllegal s).withInputs rest = s.withInputs rest := rfl

/-- A second input taken off the port leaves no mark of the first. -/
@[simp] theorem State.withInputs_withInputs (s : State) (rest rest' : List PortEvent) :
    (s.withInputs rest).withInputs rest' = s.withInputs rest' := rfl

/-- Power-on reset leaves the core of reset, whatever the core before it (R380, R381). -/
theorem powerOnReset_core_eq_reset (s : State) (rest : List PortEvent) :
    (powerOnReset Config.params s rest).core = State.reset.core := by
  rw [powerOnReset_core, resetState_eq, State.reset]

/-- Settles O8: Illegal writes a response only, which the step of the next command withdraws. -/
theorem illegalWordChangesNothing : Obligations.IllegalWordChangesNothing := by
  intro s c rest e hin hdec
  refine ⟨_, step_of_decode_error hin hdec, rfl, rfl, rfl, fun c2 rest2 i hrest hdec2 => ?_⟩
  have hnext : (raiseIllegal (s.withInputs rest)).port.inputs = .command c2 :: rest2 := hrest
  rw [step_of_decode_ok hnext hdec2, raiseIllegal_withInputs, State.withInputs_withInputs, State.withInputs]

/-- Settles O11: the idle step takes nothing off the port. -/
theorem idleStepHoldsTheCore : Obligations.IdleStepHoldsTheCore :=
  fun _ hin => step_of_no_input hin

/-- Settles O10: `rst_n` and `INIT` both leave the core of reset. -/
theorem powerOnResetIsInitWithoutResponse : Obligations.PowerOnResetIsInitWithoutResponse := by
  intro s s' rest hin
  refine ⟨_, step_of_powerOnReset hin, rfl, powerOnReset_core_eq_reset s rest, fun t' hinit => ?_⟩
  obtain rfl : (s'.withCore State.reset.core).respondDone 0 = t' := by simpa [exec_init] using hinit
  exact (powerOnReset_core_eq_reset s rest).symm

/-! ### The core of reset -/

/-- Both sections of the filter are zero at reset (R42, R380). -/
theorem reset_crf_zero {b : BiquadState} (hb : b ∈ [State.reset.core.crf.sec0, State.reset.core.crf.sec1]) :
    (∀ v ∈ b.x.toList, v = V.zero) ∧ ∀ v ∈ b.y.toList, v = V.zero := by
  have hsec : b = ⟨Vector.replicate 3 V.zero, Vector.replicate 2 V.zero⟩ := by
    rcases List.mem_pair.1 hb with rfl | rfl <;> rfl
  subst hsec
  exact ⟨fun _ => List.eq_of_mem_replicate, fun _ => List.eq_of_mem_replicate⟩

/-- The history has its configured length, all of it zero, at reset (R43, R380). -/
theorem reset_vHist : State.reset.core.hold.vHist = List.replicate Config.params.n V.zero := rfl

/-- The windows of the correlator are zero at reset (R44, R380). -/
theorem reset_cor_windows_zero :
    (∀ v ∈ State.reset.core.cor.v.toList, v = V.zero) ∧ (∀ a ∈ State.reset.core.cor.phase.toList, a = F32.zero) ∧
      (∀ a ∈ State.reset.core.cor.hist.toList, a = F32.zero) ∧
      ∀ a ∈ State.reset.core.cor.dec.toList, a = F32.zero :=
  ⟨fun _ => List.eq_of_mem_replicate (n := 8), fun _ => List.eq_of_mem_replicate (n := 3),
    fun _ => List.eq_of_mem_replicate (n := 3), fun _ => List.eq_of_mem_replicate (n := 4)⟩

/-- Settles O13: `INIT` leaves the core of reset, whose elements are zero, the windows entry by entry. -/
theorem initZeroesEveryElement : Obligations.InitZeroesEveryElement := by
  refine ⟨decode_encode_cmd .init, fun s => ⟨_, exec_init s, rfl, ?_⟩⟩
  rw [State.respondDone_core, State.withCore_core]
  obtain ⟨hv, hphase, hhist, hdec⟩ := reset_cor_windows_zero
  refine ⟨rfl, rfl, fun b => reset_crf_zero, ?_, ?_, rfl, hv, hphase, hhist, rfl, hdec, rfl, rfl⟩
  · rw [reset_vHist, List.length_replicate]
  · rw [reset_vHist]
    exact fun _ => List.eq_of_mem_replicate

/-! ### No history outlives `INIT` -/

/-- The command words 0x0001 and 0x0002 are those of `INIT` and `RESET`, whatever `DIN` is (R321, R323). -/
theorem decode_init_or_reset {c : Command} (hc : c.cmd = 0x0001 ∨ c.cmd = 0x0002) :
    decode c = .ok .init ∨ decode c = .ok .reset := by
  obtain ⟨cmd, din⟩ := c
  rcases hc with rfl | rfl
  · exact .inl (decode_encode_cmd .init din)
  · exact .inr (decode_encode_cmd .reset din)

/-- The step of `INIT` or `RESET` reaches one state, given by the inputs that follow (R380, R383). -/
theorem step_of_init_or_reset {s : State} {c : Command} {rest : List PortEvent}
    (hin : s.port.inputs = .command c :: rest) (hc : c.cmd = 0x0001 ∨ c.cmd = 0x0002) :
    step s = .next ((State.reset.withInputs rest).respondDone 0) := by
  have hinit : exec .init (s.withInputs rest) = .next ((State.reset.withInputs rest).respondDone 0) :=
    exec_init (s.withInputs rest)
  rcases decode_init_or_reset hc with hdec | hdec
  · rw [step_of_decode_ok hin hdec, hinit]
  · rw [step_of_decode_ok hin hdec, exec_reset_eq_exec_init, hinit]

/-- States of a machine whose steps agree run alike from there on. -/
theorem run_succ_congr {M : Host.Core} {s s' : M.State} (h : M.step s = M.step s') (k : Nat) :
    M.run (k + 1) s = M.run (k + 1) s' := by
  simp only [Host.Core.run, h]

/-- Settles O56: the first command brings both machines to the same state. -/
theorem runsAfterInitForgetHistory : Obligations.RunsAfterInitForgetHistory := by
  intro s s' c rest k hin hin' hc
  have hstep : step s = step s' := (step_of_init_or_reset hin hc).trans (step_of_init_or_reset hin' hc).symm
  exact run_succ_congr (M := Sys2Proof.core) hstep k

end Sys2Proof.Machine
end
